-- ==== Sys2Proof/Word.lean ====
section
/-! DEFINITION. The two data widths of IMGCORE: 32-bit register words and 8-bit channel bytes
(00_scope.md R10, R12; 10_state.md R33). -/

namespace Sys2Proof

/-- A 32-bit register word (R33): `u32`, or `i32` when read by `BitVec.toInt`. -/
abbrev Word := BitVec 32

/-- One byte of data memory, one channel of a pixel: `u8` (R90, R91). -/
abbrev Byte := BitVec 8

end Sys2Proof
end

