-- ==== Sys2Proof/Config.lean ====
section
/-! DEFINITION. What is fixed for the block (00_scope.md R10, R11), the names of its error codes
(60_exceptions.md R270), and the free values: constants without a body, which no proof can see into
(93_implementation_defined.md U1–U4, U18). Each free value is applied to a draw number that State
counts up, so that two draws are unrelated. -/

namespace Sys2Proof

/-- `HIST_WORKERS` (R10). -/
abbrev Config.histWorkers : Nat := 4

/-- `HIST_BINS` (R10). -/
abbrev Config.histBins : Nat := 256

/-- `KMAX_RADIUS` (R11): the largest radius of a custom kernel. -/
abbrev Config.kmaxRadius : Nat := 2

/-- `ADDR_WIDTH` (R11): the data memory has `2 ^ addrWidth` bytes. -/
abbrev Config.addrWidth : Nat := 32

/-- The error codes of R270 by name. Their numbers are `ErrorCode.bits` in Machine/Flags.lean. Codes 8–15
are reserved and never reported (U11), so they have no name. -/
inductive ErrorCode where
  | ok
  | invalidBuffer
  | emptyInput
  | invalidKernel
  | illegalCommand
  | bufferOverlap
  | invalidLayout
  | addressRange
  deriving DecidableEq, Repr

/-- FREE VALUE (R254, U2): what a read of HIST or CUM returns while BUSY. Argument: the draw number. -/
opaque Config.busyBinRead : Nat → Word

/-- FREE VALUE (R300, U1): HIST after `rst_n`. Arguments: the draw number, the bin. -/
opaque Config.resetHist : Nat → Nat → Word

/-- FREE VALUE (R300, U1): CUM after `rst_n`. Arguments: the draw number, the bin. -/
opaque Config.resetCum : Nat → Nat → Word

/-- FREE VALUE (R300, U18): the workers' local histograms after `rst_n`. Arguments: the draw number, the
worker, the bin. -/
opaque Config.resetLocal : Nat → Nat → Nat → Word

/-- FREE VALUE (R300, U18): the workers' completion bits after `rst_n`. Arguments: the draw number, the
worker. -/
opaque Config.resetDone : Nat → Nat → Bool

/-- FREE VALUE (R301, U3): a destination byte after a reset that abandons a pixel command. Arguments: the
draw number, the byte's address. -/
opaque Config.abandonedByte : Nat → Nat → Byte

end Sys2Proof
end

