-- ==== Sys2Proof/Syntax.lean ====
section
/-! DEFINITION. The commands of IMGCORE: one constructor per row of the opcode table (30_encoding.md R122). -/

namespace Sys2Proof

/-- A command (R122, R126). Only the gradient commands have an operand in the command word, the gradient
constant `c` (R124, R190); every other command reads its operands from the configuration registers, and the
GC field of its word is ignored (R128), so it is no part of the command. -/
inductive Instr where
  | nop
  | convMean3
  | convGauss3
  | convGauss5
  | convCustom
  | median3
  | variation5
  | gradMag (c : Nat)
  | gradX (c : Nat)
  | gradY (c : Nat)
  | histColor
  | histGray
  | histCum
  | histClear
  | grayLuma
  deriving DecidableEq, Repr

end Sys2Proof
end

