-- ==== Sys2Proof/WellFormed.lean ====
section
/-! DEFINITION. Which commands a command word can express: the gradient constant is an unsigned 4-bit field
(30_encoding.md R121, R125; 00_scope.md R11). -/

namespace Sys2Proof

/-- A gradient constant fits its field GC: 0–15 (R121). -/
def gcFits (c : Nat) : Bool := decide (c < 16)

/-- The command can be written as a command word. -/
def Instr.wellFormed : Instr → Bool
  | .nop => true
  | .convMean3 => true
  | .convGauss3 => true
  | .convGauss5 => true
  | .convCustom => true
  | .median3 => true
  | .variation5 => true
  | .gradMag c => gcFits c
  | .gradX c => gcFits c
  | .gradY c => gcFits c
  | .histColor => true
  | .histGray => true
  | .histCum => true
  | .histClear => true
  | .grayLuma => true

end Sys2Proof
end

