-- ==== Sys2Proof/Decode.lean ====
section
/-! DEFINITION. Command words: the decoder of 30_encoding.md R126, total on all words, and the encoder of
R132 and R133. A command word is one 32-bit register value (R120, R130), so there is no byte stream to read. -/

namespace Sys2Proof

/-- `w[hi:lo]`, read as an unsigned number (R13). -/
def field (w : Word) (hi lo : Nat) : Nat := w.toNat / 2 ^ lo % 2 ^ (hi + 1 - lo)

/-- The decoder (R126): a reserved bit (R128) or an unassigned OP (R127) is refused as ILLEGAL_COMMAND. -/
def decode (w : Word) : Except ErrorCode Instr :=
  if field w 31 12 ≠ 0 ∨ field w 7 6 ≠ 0 then .error .illegalCommand
  else
    match field w 5 0 with
    | 0x00 => .ok .nop
    | 0x01 => .ok .convMean3
    | 0x02 => .ok .convGauss3
    | 0x03 => .ok .convGauss5
    | 0x04 => .ok .convCustom
    | 0x08 => .ok .median3
    | 0x0C => .ok .variation5
    | 0x10 => .ok (.gradMag (field w 11 8))
    | 0x11 => .ok (.gradX (field w 11 8))
    | 0x12 => .ok (.gradY (field w 11 8))
    | 0x18 => .ok .histColor
    | 0x19 => .ok .histGray
    | 0x1A => .ok .histCum
    | 0x1B => .ok .histClear
    | 0x20 => .ok .grayLuma
    | _ => .error .illegalCommand

/-- `enc(OP, n) = zext_32({n[3:0], 2'b00, OP[5:0]})` (R132). -/
def enc (op : BitVec 6) (n : BitVec 4) : Word := (n ++ 0#2 ++ op).setWidth 32

/-- The opcode of a command (R122). -/
def opcode : Instr → BitVec 6
  | .nop => 0x00
  | .convMean3 => 0x01
  | .convGauss3 => 0x02
  | .convGauss5 => 0x03
  | .convCustom => 0x04
  | .median3 => 0x08
  | .variation5 => 0x0C
  | .gradMag _ => 0x10
  | .gradX _ => 0x11
  | .gradY _ => 0x12
  | .histColor => 0x18
  | .histGray => 0x19
  | .histCum => 0x1A
  | .histClear => 0x1B
  | .grayLuma => 0x20

/-- The GC field a command is written with: its gradient constant, or 0 where the field is ignored (R132;
DEDUCED, log entry 19). -/
def gcField : Instr → BitVec 4
  | .nop => 0
  | .convMean3 => 0
  | .convGauss3 => 0
  | .convGauss5 => 0
  | .convCustom => 0
  | .median3 => 0
  | .variation5 => 0
  | .gradMag c => BitVec.ofNat 4 c
  | .gradX c => BitVec.ofNat 4 c
  | .gradY c => BitVec.ofNat 4 c
  | .histColor => 0
  | .histGray => 0
  | .histCum => 0
  | .histClear => 0
  | .grayLuma => 0

/-- The command word of a command (R121, R133). -/
def encode (i : Instr) : Word := enc (opcode i) (gcField i)

/-- The command word whose low `nbits` bits are `w` and whose other bits are 0. -/
def tableWord (nbits w : Nat) : Word := BitVec.ofNat 32 (w % 2 ^ nbits)

/-- What the decoder reads from a word numbered as the opcode table numbers it. -/
def decodeTableWord (nbits w : Nat) : Option Instr :=
  match decode (tableWord nbits w) with
  | .ok i => some i
  | .error _ => none

end Sys2Proof
end

