-- ==== Sys2Proof/Machine/Bank.lean ====
section
/-! DEFINITION. A register file of fixed size: KW, HIST, CUM, LH, WDONE (10_state.md R46–R48, R61). A bank is
a list with its length, so that it can be written out, compared and evaluated. -/

namespace Sys2Proof.Machine

/-- `n` like registers, in order of their index. -/
structure Bank (α : Type) (n : Nat) where
  cells : List α
  size : cells.length = n
  deriving DecidableEq, Repr

/-- All registers of a bank hold `v`. -/
def Bank.fill {α : Type} (n : Nat) (v : α) : Bank α n := ⟨List.replicate n v, List.length_replicate⟩

/-- Register `k` holds `f k`. -/
def Bank.gen {α : Type} (n : Nat) (f : Nat → α) : Bank α n :=
  ⟨(List.range n).map f, (List.length_map f).trans List.length_range⟩

/-- Register `i`. -/
def Bank.get {α : Type} {n : Nat} (b : Bank α n) (i : Fin n) : α := b.cells[i.1]'(by rw [b.size]; exact i.2)

/-- Register `k` of a bank of words (an index that no register has reads 0; no operation uses one). -/
def Bank.nth {w n : Nat} (b : Bank (BitVec w) n) (k : Nat) : BitVec w := b.cells.getD k 0

/-- The bank with register `k` replaced. -/
def Bank.set {α : Type} {n : Nat} (b : Bank α n) (k : Nat) (v : α) : Bank α n :=
  ⟨b.cells.set k v, by rw [List.length_set, b.size]⟩

/-- Register by register. -/
def Bank.map2 {α : Type} {n : Nat} (f : α → α → α) (a b : Bank α n) : Bank α n :=
  ⟨List.zipWith f a.cells b.cells, by rw [List.length_zipWith, a.size, b.size, Nat.min_self]⟩

end Sys2Proof.Machine
end

