-- ==== Sys2Proof/Machine/State.lean ====
section
/-! DEFINITION. Everything the spec gives the machine (10_state.md), and the two queues through which its host
acts on it (46_system.md R250, R262). All of it is plain data. -/

namespace Sys2Proof.Machine

/-- Which duty of the host is broken: the buffer hazard rule of R310, or another "must" of R262 (U6). -/
inductive Hazard where
  /-- The host writes a byte of the source region while BUSY. -/
  | sourceWrite
  /-- The host reads a byte of the destination region while BUSY. -/
  | destRead
  /-- The host writes a byte of the destination region while BUSY. -/
  | destWrite
  /-- The host starts a command without having written an operand that the command reads, HIST among them (R262 "configure", "reset"). -/
  | operandUnwritten
  /-- The host sleeps on `irq` for a command, with DONE or ERR of the command before it not cleared (R262 "complete"). -/
  | irqNotCleared
  deriving DecidableEq, Repr

/-- Why the machine stops. -/
inductive Fault where
  /-- `HAZARD` (R310, R262, U5, U6): raised by a host action that breaks a duty of the host. The hardware's result is
  unspecified and the spec says a model computes none. Safe. -/
  | hazard (h : Hazard)
  deriving DecidableEq, Repr

/-- Why a command has no meaning. -/
inductive Refusal where
  /-- Raised by an arm of `exec` whose command is not modelled yet; no arm is. Safe. -/
  | notModelled (mnemonic : String)
  deriving DecidableEq, Repr

/-- `ENG` (R60), visible as STATUS.BUSY. -/
inductive Eng where
  | idle
  | busy
  deriving DecidableEq, Repr

/-- The configuration registers: the operands of a command (R32, R33, R39–R46). -/
structure ConfigRegs where
  cmd : Word
  width : Word
  height : Word
  layout : Word
  srcBase : Word
  srcLen : Word
  dstBase : Word
  kradius : Word
  knorm : Word
  kw : Bank Word 25
  deriving DecidableEq, Repr

/-- The flags of STATUS but for BUSY, which is `ENG` (R37, R50). -/
structure StatusFlags where
  done : Bool
  err : Bool
  busywr : Bool
  errcode : ErrorCode
  deriving DecidableEq, Repr

/-- `IRQ_EN` (R38). -/
structure IrqEnable where
  doneIe : Bool
  errIe : Bool
  deriving DecidableEq, Repr

/-- Which operands the host has written since reset (R262 "configure" and "reset", R303 steps 3 and 5). CMD and KNORM are not
among them: the spec gives the outcome of a START before they are written (R39, R45). -/
structure OperandsWritten where
  width : Bool
  height : Bool
  layout : Bool
  srcBase : Bool
  srcLen : Bool
  dstBase : Bool
  kradius : Bool
  kw : Bank Bool 25
  /-- The bins of HIST that have a known value: written by the host, or cleared by a HIST_CLEAR that it has started (R303 step 3). -/
  hist : Bank Bool 256
  deriving DecidableEq, Repr

/-- What the host has done of its duties (R262). DESIGN CHOICE (log entry 13): the model's own record of them. -/
structure HostDuties where
  /-- The operands written since reset. -/
  written : OperandsWritten
  /-- DONE was 1 when the last START was accepted, and no write to STATUS has cleared it since. -/
  doneOwed : Bool
  /-- ERR was 1 when the last START was accepted, and no write to STATUS has cleared it since. -/
  errOwed : Bool
  deriving DecidableEq, Repr

/-- The response of a register transaction (R250, R257). -/
inductive Resp where
  | okay
  | slverr
  deriving DecidableEq, Repr

/-- What the host does next (R30, R31, R131, R262). DESIGN CHOICE (log entries 4, 15, 17, 18): a queue of these. -/
inductive HostAct where
  /-- `RegWrite(off, v)` as an access of `size` bits (R250, R251). -/
  | regWrite (off : BitVec 12) (size : Nat) (v : Word)
  /-- `RegRead(off)` as an access of `size` bits (R250, R251). -/
  | regRead (off : BitVec 12) (size : Nat)
  /-- The host reads a byte of data memory on its own path (R90). -/
  | memRead (a : Word)
  /-- The host writes a byte of data memory on its own path (R90). -/
  | memWrite (a : Word) (v : Byte)
  /-- `wait`: the host repeats `rd STATUS` until DONE reads 1 (R131). -/
  | waitDone
  /-- The host sleeps until `irq` is 1 (R262 row "complete", program P2). -/
  | waitIrq
  /-- `rst_n` is taken low and released (R300, R301). -/
  | reset
  deriving DecidableEq, Repr

/-- What the host gets back (R250). -/
inductive Reply where
  | regWrote (r : Resp)
  | regRead (r : Resp) (v : Word)
  | memRead (v : Byte)
  deriving DecidableEq, Repr

/-- The data memory (R90): the bytes that are not 0, by address. Its canonical form is `Memory.wf`. -/
abbrev Memory := List Host.Cell

/-- The state of the machine. The last six fields are the model's own; the rest is what 10_state.md names. -/
structure State where
  /-- `ENG` (R60). -/
  eng : Eng
  /-- `CUR` (R60): the command word latched at acceptance. -/
  cur : Word
  /-- The configuration registers (R39–R46). -/
  cfg : ConfigRegs
  /-- DONE, ERR, BUSYWR, ERRCODE (R37). -/
  status : StatusFlags
  /-- IRQ_EN (R38). -/
  irqEn : IrqEnable
  /-- HIST (R47). -/
  hist : Bank Word 256
  /-- CUM (R48). -/
  cum : Bank Word 256
  /-- LH (R61): one local histogram per worker. -/
  lh : Bank (Bank Word 256) 4
  /-- WDONE (R61). -/
  wdone : Bank Bool 4
  /-- The data memory (R90). -/
  mem : Memory
  /-- While BUSY: the model steps left before the engine's step (R315, U16). -/
  delay : Nat
  /-- The parameter of U16: the completion delays of the STARTs to come, next first; 0 where none is listed. DESIGN CHOICE (log entry 5). -/
  delays : List Nat
  /-- The number of the next draw of a free value. DESIGN CHOICE (log entries 9, 10). -/
  draws : Nat
  /-- What the host has done of its duties (R262). -/
  duties : HostDuties
  /-- The host's actions still to come, next first (R250: one at a time, in the order issued). DESIGN CHOICE (log entry 4). -/
  host : List HostAct
  /-- The answers the host has got, latest first. -/
  replies : List Reply
  deriving DecidableEq, Repr

/-- Every configuration register 0 (R33, R300). -/
def ConfigRegs.zero : ConfigRegs :=
  { cmd := 0, width := 0, height := 0, layout := 0, srcBase := 0, srcLen := 0, dstBase := 0, kradius := 0, knorm := 0, kw := .fill 25 0 }

/-- Every flag 0 (R33, R37, R300). -/
def StatusFlags.zero : StatusFlags := { done := false, err := false, busywr := false, errcode := .ok }

/-- No operand written and nothing left to clear, as after reset (R303). -/
def HostDuties.none : HostDuties :=
  { written := ⟨false, false, false, false, false, false, false, .fill 25 false, .fill 256 false⟩, doneOwed := false, errOwed := false }

/-- The machine right after reset, whatever HIST, CUM, LH and WDONE then hold (R300). -/
def State.afterReset (hist cum : Bank Word 256) (lh : Bank (Bank Word 256) 4) (wdone : Bank Bool 4) (mem : Memory)
    (delays : List Nat) (draws : Nat) (host : List HostAct) (replies : List Reply) : State :=
  { eng := .idle, cur := 0, cfg := .zero, status := .zero, irqEn := ⟨false, false⟩, hist := hist, cum := cum, lh := lh, wdone := wdone,
    mem := mem, delay := 0, delays := delays, draws := draws, duties := .none, host := host, replies := replies }

/-- The machine after reset, with no host yet. DESIGN CHOICE (log entries 1, 2, 3): HIST, CUM, LH, WDONE and CUR,
which R300 leaves unspecified, are 0 here, and memory lists nothing; no statement rests on these. A reset that
happens in a run draws them (`resetPulse` in Machine/HostPort.lean). -/
def State.reset : State :=
  .afterReset (.fill 256 0) (.fill 256 0) (.fill 4 (.fill 256 0)) (.fill 4 false) [] [] 0 [] []

end Sys2Proof.Machine
end

