-- ==== Sys2Proof/Machine/Flags.lean ====
section
/-! DEFINITION. The STATUS word, its write-1-to-clear, and the interrupt line (10_state.md R37, R38, R50;
60_exceptions.md R270, R280–R285). -/

namespace Sys2Proof

/-- The 4-bit number of an error code (R270). -/
def ErrorCode.bits : ErrorCode → BitVec 4
  | .ok => 0
  | .invalidBuffer => 1
  | .emptyInput => 2
  | .invalidKernel => 3
  | .illegalCommand => 4
  | .bufferOverlap => 5
  | .invalidLayout => 6
  | .addressRange => 7

end Sys2Proof

namespace Sys2Proof.Machine

/-- STATUS.BUSY: 1 while `ENG = BUSY` (R37, R60). -/
def State.isBusy (s : State) : Bool := decide (s.eng = .busy)

/-- The STATUS word (R37): reserved [31:12], ERRCODE [11:8], reserved [7:4], BUSYWR, ERR, DONE, BUSY. -/
def State.statusWord (s : State) : Word :=
  0#20 ++ s.status.errcode.bits ++ 0#4 ++ BitVec.ofBool s.status.busywr ++ BitVec.ofBool s.status.err ++
    BitVec.ofBool s.status.done ++ BitVec.ofBool s.isBusy

/-- The IRQ_EN word (R38): reserved bits read 0. -/
def State.irqEnWord (s : State) : Word := 0#30 ++ BitVec.ofBool s.irqEn.errIe ++ BitVec.ofBool s.irqEn.doneIe

/-- `irq` (R283): a level, a function of the current state. -/
def State.irq (s : State) : Bool := (s.status.done && s.irqEn.doneIe) || (s.status.err && s.irqEn.errIe)

/-- A write of `v` to STATUS does the duty to clear DONE where bit 1 is set, and ERR where bit 2 is (R262 "complete"). -/
def HostDuties.cleared (v : Word) (d : HostDuties) : HostDuties :=
  { d with doneOwed := d.doneOwed && !v.getLsbD 1, errOwed := d.errOwed && !v.getLsbD 2 }

/-- A write of `v` to STATUS clears each of DONE, ERR, BUSYWR whose bit in `v` is 1 (R37). It is how the host
returns from a termination (R285), and how it does its duty to clear DONE and ERR (R262). -/
def State.acknowledge (v : Word) (s : State) : State :=
  { s with status := { s.status with
      done := s.status.done && !v.getLsbD 1
      err := s.status.err && !v.getLsbD 2
      busywr := s.status.busywr && !v.getLsbD 3 }, duties := s.duties.cleared v }

/-- A write of `v` to IRQ_EN stores `v[1:0]` (R38, R253). -/
def State.setIrqEn (v : Word) (s : State) : State := { s with irqEn := ⟨v.getLsbD 0, v.getLsbD 1⟩ }

/-- A register write or START is dropped because `ENG = BUSY` (R255). -/
def State.dropWrite (s : State) : State := { s with status := { s.status with busywr := true } }

end Sys2Proof.Machine
end

