-- ==== Sys2Proof/Machine/Ops.lean ====
section
/-! DEFINITION. The named operations that the commands share: the data memory (20_memory.md), validation
(60_exceptions.md R271–R275), acceptance of a START (46_system.md R258), termination (60_exceptions.md R276)
and the pixel driver (40_convolution.md R150). -/

namespace Sys2Proof.Machine

/-! ## Data memory (R90) -/

/-- What an address that memory does not list reads as. DESIGN CHOICE (log entry 2): the spec gives the data
memory no contents of its own (R108, U19). -/
abbrev Memory.unlisted : Byte := 0

/-- Canonical form from address `lo` on: addresses rise strictly, stay below `2^32` (R90), and no entry is what
an unlisted address reads as. -/
def Memory.wfFrom : Nat → Memory → Bool
  | _, [] => true
  | lo, (a, b) :: m => decide (lo ≤ a) && decide (a < 2 ^ Config.addrWidth) && decide (b ≠ Memory.unlisted) && Memory.wfFrom (a + 1) m

/-- Memory is in its canonical form. -/
def Memory.wf (m : Memory) : Bool := Memory.wfFrom 0 m

/-- `MemRead(a, 1)` (R14, R90). -/
def Memory.read (a : Nat) : Memory → Byte
  | [] => Memory.unlisted
  | (k, v) :: m => if a = k then v else if a < k then Memory.unlisted else Memory.read a m

/-- A cell before a canonical memory whose addresses are all above it. -/
def Memory.consCell (a : Nat) (b : Byte) (m : Memory) : Memory := if b = Memory.unlisted then m else (a, b) :: m

/-- `MemWrite(a, 1, b)` (R14, R90), keeping the canonical form. -/
def Memory.write (a : Nat) (b : Byte) : Memory → Memory
  | [] => Memory.consCell a b []
  | (k, v) :: m => if a = k then Memory.consCell a b m else if a < k then Memory.consCell a b ((k, v) :: m) else (k, v) :: Memory.write a b m

/-- The bytes `bs` stored at ascending addresses from `a`. -/
def Memory.writeBytes : Nat → List Byte → Memory → Memory
  | _, [], m => m
  | a, b :: bs, m => Memory.writeBytes (a + 1) bs (Memory.write a b m)

/-- Byte `f a` stored at every address `a` of a list. -/
def Memory.writeEach (f : Nat → Byte) : List Nat → Memory → Memory
  | [], m => m
  | a :: as, m => Memory.writeEach f as (Memory.write a (f a) m)

/-- The byte of the state's data memory at `a`. -/
def State.readByte (s : State) (a : Nat) : Byte := s.mem.read a

/-! ## Classes and validation -/

/-- The opcode classes of R123. -/
inductive CmdClass where
  | pixel
  | scan
  | control
  deriving DecidableEq, Repr

/-- The class of a command (R123). -/
def commandClass : Instr → CmdClass
  | .nop => .control
  | .convMean3 => .pixel
  | .convGauss3 => .pixel
  | .convGauss5 => .pixel
  | .convCustom => .pixel
  | .median3 => .pixel
  | .variation5 => .pixel
  | .gradMag _ => .pixel
  | .gradX _ => .pixel
  | .gradY _ => .pixel
  | .histColor => .scan
  | .histGray => .scan
  | .histCum => .scan
  | .histClear => .control
  | .grayLuma => .pixel

/-- `base + len` is at or below `2^32`, computed exactly (R273). -/
def inRange (base len : Nat) : Bool := decide (base + len ≤ 2 ^ Config.addrWidth)

/-- `overlap(SB, DB, L)` (R274). -/
def overlap (sb db len : Nat) : Bool := decide (sb < db + len) && decide (db < sb + len)

/-- The checks that the pixel and scan classes share (R271), in order. -/
def checkSource (c : ConfigRegs) : Option ErrorCode :=
  if c.layout.toNat ≠ 0 then some .invalidLayout
  else if c.width.toNat = 0 ∨ c.height.toNat = 0 then some .emptyInput
  else if c.srcLen.toNat ≠ 4 * c.width.toNat * c.height.toNat then some .invalidBuffer
  else if inRange c.srcBase.toNat c.srcLen.toNat then none
  else some .addressRange

/-- The further checks of the pixel class (R271), in order. -/
def checkDest (c : ConfigRegs) : Option ErrorCode :=
  if inRange c.dstBase.toNat c.srcLen.toNat then
    if overlap c.srcBase.toNat c.dstBase.toNat c.srcLen.toNat then some .bufferOverlap else none
  else some .addressRange

/-- The kernel check of CONV_CUSTOM (R275). -/
def checkKernel (c : ConfigRegs) : Option ErrorCode :=
  if c.kradius.toNat > Config.kmaxRadius ∨ c.knorm.toNat = 0 then some .invalidKernel else none

/-- `validate(op)` (R271): the first failing check gives the code, and later checks are not evaluated. -/
def validate (i : Instr) (c : ConfigRegs) : Option ErrorCode :=
  match commandClass i with
  | .control => none
  | .scan => checkSource c
  | .pixel => checkSource c <|> checkDest c <|> (if i = .convCustom then checkKernel c else none)

/-! ## Start and termination -/

/-- The operands written once the command word `cmd` is started: HIST_CLEAR gives every bin of HIST a known value (R303 step 3). No
other START is accepted before it has done so (R255), and a reset forgets it (log entry 13). -/
def OperandsWritten.started (cmd : Word) (w : OperandsWritten) : OperandsWritten :=
  if (decode cmd).toOption = some .histClear then { w with hist := .fill 256 true } else w

/-- The host's duties after an accepted START: HIST is re-initialised where the command does it (R262 "reset"), and whatever of DONE
and ERR the host had not cleared before is to be cleared by a write (R262 "complete"). -/
def HostDuties.started (cmd : Word) (f : StatusFlags) (d : HostDuties) : HostDuties :=
  { written := d.written.started cmd, doneOwed := f.done, errOwed := f.err }

/-- Acceptance of a START (R258): CUR latches CMD; DONE, ERR and ERRCODE are cleared; BUSYWR is unchanged.
The engine's step comes `delay` model steps later. -/
def State.acceptWith (delay : Nat) (s : State) : State :=
  { s with
    eng := .busy
    cur := s.cfg.cmd
    status := { s.status with done := false, err := false, errcode := .ok }
    delay := delay
    duties := s.duties.started s.cfg.cmd s.status }

/-- Acceptance with the next completion delay (R258, R315, U16). -/
def State.acceptStart (s : State) : State := { s.acceptWith (s.delays.headD 0) with delays := s.delays.tail }

/-- `terminate(code)` (R276): the one way a command ends, and the hardware's trap (R284): it saves nothing, records
the code, and raises `irq` if that is enabled. `terminate .ok` is "terminate OK"; any other code is
`raise Error(code)`. -/
def State.terminate (code : ErrorCode) (s : State) : State :=
  { s with eng := .idle, status := { s.status with done := true, err := decide (code ≠ .ok), errcode := code } }

/-- The life of an accepted command after decode (R258): validation, then either an error termination with no
other effect (R277) or the whole effect and a termination with code 0. -/
def runCommand (i : Instr) (effect : State → State) (s : State) : Host.Outcome State Fault Refusal :=
  match validate i s.cfg with
  | some code => .next (s.terminate code)
  | none => .next ((effect s).terminate .ok)

/-- The word the engine decodes: CUR (R60, R105). -/
def fetch (s : State) : Word := s.cur

/-! ## The pixel driver -/

/-- One output pixel, channels in memory order (R91). -/
structure Pixel where
  r : Byte
  g : Byte
  b : Byte
  a : Byte
  deriving DecidableEq, Repr

/-- The four bytes of a pixel in the order of their addresses (R91). -/
def Pixel.bytes (p : Pixel) : List Byte := [p.r, p.g, p.b, p.a]

/-- Channel `c` of a pixel: 0 R, 1 G, 2 B, 3 A (R15). -/
def Pixel.chan (p : Pixel) (c : Nat) : Byte := p.bytes.getD c 0

/-- The bytes of an image of the per-pixel function `f`: rows top to bottom, no padding (R91, R107). -/
def imageBytes (w h : Nat) (f : Nat → Nat → Pixel) : List Byte :=
  (List.range h).flatMap fun y => (List.range w).flatMap fun x => (f x y).bytes

/-- The pixel driver (R150): `f` at every output coordinate, written to the destination buffer. `f` is given the
state at acceptance, so it sees the source as it was then (R101). -/
def drivePixels (f : State → Nat → Nat → Pixel) (s : State) : State :=
  { s with mem := s.mem.writeBytes s.cfg.dstBase.toNat (imageBytes s.cfg.width.toNat s.cfg.height.toNat (f s)) }

end Sys2Proof.Machine
end

