-- ==== Sys2Proof/Machine/Control.lean ====
section
/-! DEFINITION. The control command NOP (46_system.md R260). -/

namespace Sys2Proof.Machine

/-- `NOP` (R260): it terminates OK. -/
def execNop (s : State) : Host.Outcome State Fault Refusal := runCommand .nop id s

end Sys2Proof.Machine
end

