-- ==== Sys2Proof/Machine/Operands.lean ====
section
/-! DEFINITION. The operands of a command: the pixel accessors of 00_scope.md R15, the kernels of 10_state.md
R46, R51 and R52, and the neighbourhood sums the filters share. -/

namespace Sys2Proof.Machine

/-- `clampi(v, lo, hi) = min(hi, max(lo, v))` (R12). -/
def clampi (v lo hi : Int) : Int := min hi (max lo v)

/-- The address of channel `c` of pixel `(x, y)` of a buffer of width `w` at `base` (R91). -/
def pixelAddr (base w x y c : Nat) : Nat := base + 4 * (y * w + x) + c

/-- `src(x, y, c)` (R15). -/
def State.src (s : State) (x y c : Nat) : Byte := s.readByte (pixelAddr s.cfg.srcBase.toNat s.cfg.width.toNat x y c)

/-- `cx(x)` (R15): clamp-to-edge on columns. -/
def State.cx (s : State) (x : Int) : Nat := (clampi x 0 (s.cfg.width.toNat - 1)).toNat

/-- `cy(y)` (R15): clamp-to-edge on rows. -/
def State.cy (s : State) (y : Int) : Nat := (clampi y 0 (s.cfg.height.toNat - 1)).toNat

/-- `tap(x, y, c)` (R15), for any integers `x` and `y`. -/
def State.tap (s : State) (x y : Int) (c : Nat) : Byte := s.src (s.cx x) (s.cy y) c

/-- The offsets `-r .. r` of a neighbourhood, ascending. -/
def offsets (r : Nat) : List Int := (List.range (2 * r + 1)).map fun k : Nat => (k : Int) - r

/-- A convolution kernel (R151): radius, weights row by row (row = `ky`), normalizer. -/
structure Kernel where
  radius : Nat
  weights : List Int
  norm : Nat
  deriving DecidableEq, Repr

/-- `K(kx, ky)` is entry `(ky + r)*(2r + 1) + (kx + r)` of the row-major weights (R46). -/
def Kernel.weight (k : Kernel) (kx ky : Int) : Int :=
  k.weights.getD ((ky + k.radius) * (2 * k.radius + 1) + (kx + k.radius)).toNat 0

/-- Preset MEAN3 (R51). -/
def kernelMean3 : Kernel := ⟨1, [1, 1, 1, 1, 1, 1, 1, 1, 1], 9⟩

/-- Preset GAUSS3 (R51). -/
def kernelGauss3 : Kernel := ⟨1, [1, 2, 1, 2, 4, 2, 1, 2, 1], 16⟩

/-- Preset GAUSS5 (R51; the normalizer 256 is conflict C3). PRESUMED (log entry 16): the spec marks these weights as general
knowledge. -/
def kernelGauss5 : Kernel :=
  ⟨2, [1, 4, 6, 4, 1, 4, 16, 24, 16, 4, 6, 24, 36, 24, 6, 4, 16, 24, 16, 4, 1, 4, 6, 4, 1], 256⟩

/-- The host's kernel (R44–R46, R125): KRADIUS, KW read as signed words, KNORM unsigned. -/
def kernelCustom (c : ConfigRegs) : Kernel := ⟨c.kradius.toNat, c.kw.cells.map BitVec.toInt, c.knorm.toNat⟩

/-- `KX_c` with its normalizer `c + 2` (R52). -/
def kernelGradX (c : Nat) : Kernel := ⟨1, [-1, 0, 1, -c, 0, c, -1, 0, 1], c + 2⟩

/-- `KY_c` with its normalizer `c + 2` (R52). -/
def kernelGradY (c : Nat) : Kernel := ⟨1, [-1, -c, -1, 0, 0, 0, 1, c, 1], c + 2⟩

/-- `Σ_{ky} Σ_{kx} K(kx, ky) * tap(x + kx, y + ky, ch)`, an exact integer (R151, R191). -/
def State.weightedSum (s : State) (k : Kernel) (x y : Int) (ch : Nat) : Int :=
  ((offsets k.radius).map fun ky =>
    ((offsets k.radius).map fun kx => k.weight kx ky * ((s.tap (x + kx) (y + ky) ch).toNat : Int)).sum).sum

/-- The red samples of the neighbourhood of radius `r`, clamped, repeats kept, row by row (R170, R181). -/
def State.redSamples (s : State) (r : Nat) (x y : Int) : List Nat :=
  (offsets r).flatMap fun ky => (offsets r).map fun kx => (s.tap (x + kx) (y + ky) 0).toNat

/-- A channel value 0–255 as the byte it is stored as. -/
def toByte (v : Nat) : Byte := BitVec.ofNat 8 v

end Sys2Proof.Machine
end

