-- ==== Sys2Proof/Machine/Convolution.lean ====
section
/-! DEFINITION. spatial_convolution_engine (40_convolution.md). -/

namespace Sys2Proof.Machine

/-- `o[ch] = min(255, abs(S[ch]) div N)` (R151, conflicts C1 and C2). -/
def State.convChannel (s : State) (k : Kernel) (x y ch : Nat) : Nat :=
  min 255 ((s.weightedSum k x y ch).natAbs / k.norm)

/-- `conv(r, K, N)(x, y)` (R151): R, G and B convolved independently, alpha the source pixel's own (D44). -/
def State.conv (s : State) (k : Kernel) (x y : Nat) : Pixel :=
  ⟨toByte (s.convChannel k x y 0), toByte (s.convChannel k x y 1), toByte (s.convChannel k x y 2), s.src x y 3⟩

/-- `CONV_MEAN3` (R154). -/
def execConvMean3 (s : State) : Host.Outcome State Fault Refusal :=
  runCommand .convMean3 (drivePixels fun s => s.conv kernelMean3) s

/-- `CONV_GAUSS3` (R155). -/
def execConvGauss3 (s : State) : Host.Outcome State Fault Refusal :=
  runCommand .convGauss3 (drivePixels fun s => s.conv kernelGauss3) s

/-- `CONV_GAUSS5` (R156). -/
def execConvGauss5 (s : State) : Host.Outcome State Fault Refusal :=
  runCommand .convGauss5 (drivePixels fun s => s.conv kernelGauss5) s

/-- `CONV_CUSTOM` (R157). -/
def execConvCustom (s : State) : Host.Outcome State Fault Refusal :=
  runCommand .convCustom (drivePixels fun s => s.conv (kernelCustom s.cfg)) s

end Sys2Proof.Machine
end

