-- ==== Sys2Proof/Machine/Gradient.lean ====
section
/-! DEFINITION. sobel_prewitt_gradient_core (43_gradient.md). -/

namespace Sys2Proof.Machine

/-- `isqrt` by base-4 digits: the root of `n` is twice the root of `n / 4`, or one more. -/
def isqrtFuel : Nat → Nat → Nat
  | 0, _ => 0
  | fuel + 1, n =>
    if n = 0 then 0
    else
      let r := 2 * isqrtFuel fuel (n / 4)
      if (r + 1) * (r + 1) ≤ n then r + 1 else r

/-- `isqrt(n)` (R12): the largest `r` with `r * r ≤ n`. -/
def isqrt (n : Nat) : Nat := isqrtFuel (Nat.log2 n + 1) n

/-- `mag(x, y, ch) = min(255, isqrt(SX² + SY²) div (c + 2))` (R191, R192). -/
def State.mag (s : State) (c x y ch : Nat) : Nat :=
  let sx := (s.weightedSum (kernelGradX c) x y ch).natAbs
  let sy := (s.weightedSum (kernelGradY c) x y ch).natAbs
  min 255 (isqrt (sx * sx + sy * sy) / (c + 2))

/-- The pixel of `GRAD_MAG` (R193): each channel from its own sums (conflict C4), alpha 255. -/
def State.magPixel (s : State) (c x y : Nat) : Pixel :=
  ⟨toByte (s.mag c x y 0), toByte (s.mag c x y 1), toByte (s.mag c x y 2), 255⟩

/-- `GRAD_MAG` (R193). -/
def execGradMag (c : Nat) (s : State) : Host.Outcome State Fault Refusal :=
  runCommand (.gradMag c) (drivePixels fun s => s.magPixel c) s

/-- `GRAD_X` (R194): the convolution of `KX_c`, alpha the source's. -/
def execGradX (c : Nat) (s : State) : Host.Outcome State Fault Refusal :=
  runCommand (.gradX c) (drivePixels fun s => s.conv (kernelGradX c)) s

/-- `GRAD_Y` (R195): the convolution of `KY_c`, alpha the source's. -/
def execGradY (c : Nat) (s : State) : Host.Outcome State Fault Refusal :=
  runCommand (.gradY c) (drivePixels fun s => s.conv (kernelGradY c)) s

end Sys2Proof.Machine
end

