-- ==== Sys2Proof/Machine/Grayscale.lean ====
section
/-! DEFINITION. grayscale_luma_converter (45_grayscale.md). -/

namespace Sys2Proof.Machine

/-- `(299*R + 587*G + 114*B) div 1000` (R240). -/
def lumaValue (r g b : Nat) : Nat := (299 * r + 587 * g + 114 * b) / 1000

/-- `luma(x, y)` (R240): the luma in R, G and B, alpha the source's. -/
def State.luma (s : State) (x y : Nat) : Pixel :=
  let v := toByte (lumaValue (s.src x y 0).toNat (s.src x y 1).toNat (s.src x y 2).toNat)
  ⟨v, v, v, s.src x y 3⟩

/-- `GRAY_LUMA` (R240). -/
def execGrayLuma (s : State) : Host.Outcome State Fault Refusal :=
  runCommand .grayLuma (drivePixels State.luma) s

end Sys2Proof.Machine
end

