-- ==== Sys2Proof/Machine/Histogram.lean ====
section
/-! DEFINITION. histogram_accumulator_multibin (44_histogram.md): four workers, a barrier and a merge. The workers
write disjoint state, so the order in which they run is not observable (R213); the model runs them in the order of
their index, in one step (R217). -/

namespace Sys2Proof.Machine

/-- `start_i` (R210) for a total count `t`. -/
def sectionStart (t i : Nat) : Nat := i * ((t + 3) / 4)

/-- `end_i` (R210). -/
def sectionEnd (t i : Nat) : Nat := min ((i + 1) * ((t + 3) / 4)) t

/-- The indices `start_i ≤ j < end_i` of worker `i`, none where `start_i ≥ end_i` (R210). -/
def sectionIndices (t i : Nat) : List Nat := List.range' (sectionStart t i) (sectionEnd t i - sectionStart t i)

/-- `red(p)` (R212). -/
def State.red (s : State) (p : Nat) : Byte := s.readByte (s.cfg.srcBase.toNat + 4 * p)

/-- The red samples worker `i` counts for HIST_COLOR: its columns, each over its full height (R214). -/
def columnSamples (s : State) (i : Nat) : List Byte :=
  (sectionIndices s.cfg.width.toNat i).flatMap fun x => (List.range s.cfg.height.toNat).map fun y => s.src x y 0

/-- The red samples worker `i` counts for HIST_GRAY and HIST_CUM: its linear pixel indices (R215). -/
def indexSamples (s : State) (i : Nat) : List Byte :=
  (sectionIndices (s.cfg.width.toNat * s.cfg.height.toNat) i).map s.red

/-- One bin incremented, modulo `2^32` (R214, R215). -/
def countByte (h : Bank Word 256) (v : Byte) : Bank Word 256 := h.set v.toNat (h.nth v.toNat + 1)

/-- Worker start (R213): every local bin and completion bit 0. -/
def State.startWorkers (s : State) : State := { s with lh := .fill 4 (.fill 256 0), wdone := .fill 4 false }

/-- Worker `i` runs to its end (R214, R215): it counts its samples into its own local histogram and sets its own
completion bit. -/
def State.runWorker (samples : State → Nat → List Byte) (s : State) (i : Fin 4) : State :=
  { s with lh := s.lh.set i.1 ((samples s i.1).foldl countByte (s.lh.get i)), wdone := s.wdone.set i.1 true }

/-- Bin-by-bin sum modulo `2^32`. -/
def addBins (a b : Bank Word 256) : Bank Word 256 := a.map2 (· + ·) b

/-- Barrier and merge (R216): when all four completion bits are set, HIST is increased bin by bin by the four local
histograms. -/
def State.merge (s : State) : State :=
  if s.wdone.cells.all id then
    { s with hist := addBins (addBins (addBins (addBins s.hist (s.lh.get 0)) (s.lh.get 1)) (s.lh.get 2)) (s.lh.get 3) }
  else s

/-- The scan of R213–R216 with the given partition. -/
def State.scan (samples : State → Nat → List Byte) (s : State) : State :=
  ([0, 1, 2, 3].foldl (State.runWorker samples) s.startWorkers).merge

/-- `cumulative[i] = histogram[i] + cumulative[i-1]`, where `acc` is the sum before the list (R218). -/
def runningSums : Word → List Word → List Word
  | _, [] => []
  | acc, h :: hs => (h + acc) :: runningSums (h + acc) hs

/-- A running sum has as many entries as the list. -/
theorem runningSums_length (acc : Word) (hs : List Word) : (runningSums acc hs).length = hs.length := by
  induction hs generalizing acc with
  | nil => rfl
  | cons h hs ih => rw [runningSums, List.length_cons, List.length_cons, ih]

/-- The cumulative pass (R218): CUM is the running sum of HIST as it stands. -/
def State.cumulate (s : State) : State :=
  { s with cum := ⟨runningSums 0 s.hist.cells, by rw [runningSums_length, s.hist.size]⟩ }

/-- `HIST_COLOR` (R222). -/
def execHistColor (s : State) : Host.Outcome State Fault Refusal :=
  runCommand .histColor (State.scan columnSamples) s

/-- `HIST_GRAY` (R223). -/
def execHistGray (s : State) : Host.Outcome State Fault Refusal :=
  runCommand .histGray (State.scan indexSamples) s

/-- `HIST_CUM` (R224). -/
def execHistCum (s : State) : Host.Outcome State Fault Refusal :=
  runCommand .histCum (fun s => (s.scan indexSamples).cumulate) s

/-- `HIST_CLEAR` (R225). -/
def execHistClear (s : State) : Host.Outcome State Fault Refusal :=
  runCommand .histClear (fun s => { s with hist := .fill 256 0, cum := .fill 256 0 }) s

end Sys2Proof.Machine
end

