-- ==== Sys2Proof/Machine/Rank.lean ====
section
/-! DEFINITION. median_rank_filter (41_rank_filter.md). -/

namespace Sys2Proof.Machine

/-- The element at index 4 of the samples sorted ascending (R170). -/
def median9 (v : List Nat) : Nat := (v.insertionSort (· ≤ ·)).getD 4 0

/-- `med(x, y)` (R170): the median of the 9 red samples in R, G and B, alpha 255. -/
def State.med (s : State) (x y : Nat) : Pixel :=
  let m := toByte (median9 (s.redSamples 1 x y))
  ⟨m, m, m, 255⟩

/-- `MEDIAN3` (R170). -/
def execMedian3 (s : State) : Host.Outcome State Fault Refusal :=
  runCommand .median3 (drivePixels State.med) s

end Sys2Proof.Machine
end

