-- ==== Sys2Proof/Machine/Variation.lean ====
section
/-! DEFINITION. bilateral_variation_filter (42_variation_filter.md), computed exactly over the rationals. -/

namespace Sys2Proof.Machine

/-- `w(Rp, Rn)` (R180): 5 for equal samples, else their distance. -/
def neighbourWeight (rp rn : Nat) : Nat := if rn = rp then 5 else ((rp : Int) - rn).natAbs

/-- `TW`, the sum of `1/w` (R181). -/
def totalWeight (rp : Nat) (v : List Nat) : ℚ := (v.map fun rn : Nat => (1 : ℚ) / (neighbourWeight rp rn : ℚ)).sum

/-- `WS`, the sum of `Rn/w` (R181). -/
def weightedRed (rp : Nat) (v : List Nat) : ℚ := (v.map fun rn : Nat => (rn : ℚ) / (neighbourWeight rp rn : ℚ)).sum

/-- `v = floor(WS / TW)` (R181). -/
def variationValue (rp : Nat) (v : List Nat) : Nat := (Rat.floor (weightedRed rp v / totalWeight rp v)).toNat

/-- `var(x, y)` (R181): the 25 red samples weighed against the centre, alpha 255. -/
def State.var (s : State) (x y : Nat) : Pixel :=
  let v := toByte (variationValue (s.src x y 0).toNat (s.redSamples 2 x y))
  ⟨v, v, v, 255⟩

/-- `VARIATION5` (R182). -/
def execVariation5 (s : State) : Host.Outcome State Fault Refusal :=
  runCommand .variation5 (drivePixels State.var) s

end Sys2Proof.Machine
end

