-- ==== Sys2Proof/Machine/Dispatch.lean ====
section
/-! DEFINITION. The meaning of each command: `validate`, `perform` and `terminate` of 46_system.md R258. -/

namespace Sys2Proof.Machine

def exec (i : Instr) (s : State) : Host.Outcome State Fault Refusal :=
  match i with
  | .nop => Sys2Proof.Machine.execNop s
  | .convMean3 => Sys2Proof.Machine.execConvMean3 s
  | .convGauss3 => Sys2Proof.Machine.execConvGauss3 s
  | .convGauss5 => Sys2Proof.Machine.execConvGauss5 s
  | .convCustom => Sys2Proof.Machine.execConvCustom s
  | .median3 => Sys2Proof.Machine.execMedian3 s
  | .variation5 => Sys2Proof.Machine.execVariation5 s
  | .gradMag c => Sys2Proof.Machine.execGradMag c s
  | .gradX c => Sys2Proof.Machine.execGradX c s
  | .gradY c => Sys2Proof.Machine.execGradY c s
  | .histColor => Sys2Proof.Machine.execHistColor s
  | .histGray => Sys2Proof.Machine.execHistGray s
  | .histCum => Sys2Proof.Machine.execHistCum s
  | .histClear => Sys2Proof.Machine.execHistClear s
  | .grayLuma => Sys2Proof.Machine.execGrayLuma s

end Sys2Proof.Machine
end

