-- ==== Sys2Proof/Machine/Engine.lean ====
section
/-! DEFINITION. The engine's step on an accepted command (46_system.md R258): decode, then the command's meaning. -/

namespace Sys2Proof.Machine

/-- Decode, validation, the whole operation and termination as one step, which R258 allows (DEDUCED, log entry 7). A word that does not
decode terminates with its code (R127, R128). -/
def engineStep (s : State) : Host.Outcome State Fault Refusal :=
  match decode (fetch s) with
  | .ok i => exec i s
  | .error code => .next (s.terminate code)

end Sys2Proof.Machine
end

