-- ==== Sys2Proof/Machine/RegPort.lean ====
section
/-! DEFINITION. The register port: the register map (10_state.md R33–R49) and its transactions
(46_system.md R250–R259). -/

namespace Sys2Proof.Machine

/-- The registers by name (R33). -/
inductive RegName where
  | id
  | caps
  | ctrl
  | status
  | irqEn
  | cmd
  | width
  | height
  | layout
  | srcBase
  | srcLen
  | dstBase
  | kradius
  | knorm
  | kw (k : Fin 25)
  | hist (i : Fin 256)
  | cum (i : Fin 256)
  deriving DecidableEq, Repr

/-- The byte offset of a register in the window (R33). -/
def regOffset : RegName → Nat
  | .id => 0x000
  | .caps => 0x004
  | .ctrl => 0x008
  | .status => 0x00C
  | .irqEn => 0x010
  | .cmd => 0x014
  | .width => 0x018
  | .height => 0x01C
  | .layout => 0x020
  | .srcBase => 0x024
  | .srcLen => 0x028
  | .dstBase => 0x02C
  | .kradius => 0x030
  | .knorm => 0x034
  | .kw k => 0x040 + 4 * k.1
  | .hist i => 0x400 + 4 * i.1
  | .cum i => 0x800 + 4 * i.1

/-- The identification, control and operand registers by byte offset (R33). -/
def controlReg (n : Nat) : Option RegName :=
  match n with
  | 0x000 => some .id
  | 0x004 => some .caps
  | 0x008 => some .ctrl
  | 0x00C => some .status
  | 0x010 => some .irqEn
  | 0x014 => some .cmd
  | 0x018 => some .width
  | 0x01C => some .height
  | 0x020 => some .layout
  | 0x024 => some .srcBase
  | 0x028 => some .srcLen
  | 0x02C => some .dstBase
  | 0x030 => some .kradius
  | 0x034 => some .knorm
  | _ => none

/-- The register at a word-aligned offset, none where the offset is unmapped (R33, R49). -/
def regAt (off : BitVec 12) : Option RegName :=
  if h : 0x040 ≤ off.toNat ∧ off.toNat ≤ 0x0A0 then some (.kw ⟨(off.toNat - 0x040) / 4, by omega⟩)
  else if h : 0x400 ≤ off.toNat ∧ off.toNat ≤ 0x7FF then some (.hist ⟨(off.toNat - 0x400) / 4, by omega⟩)
  else if h : 0x800 ≤ off.toNat ∧ off.toNat ≤ 0xBFF then some (.cum ⟨(off.toNat - 0x800) / 4, by omega⟩)
  else controlReg off.toNat

/-- `ID` (R34): 'I', 'M', 'G' and the edition 7. -/
def idWord : Word := 0x494D4707

/-- `CAPS` (R35): HIST_WORKERS [3:0], KMAX_RADIUS [7:4], ADDR_WIDTH [15:8]. -/
def capsWord : Word := 0#16 ++ BitVec.ofNat 8 Config.addrWidth ++ BitVec.ofNat 4 Config.kmaxRadius ++ BitVec.ofNat 4 Config.histWorkers

/-- Byte lane `j` of a register word: bits `[8j+7 : 8j]` (R93). -/
def byteLane (v : Word) (j : Nat) : Byte := v.extractLsb' (8 * j) 8

/-- (DESIGN CHOICE, log entry 15: the size is a number of bits.) Only 32-bit accesses with `off[1:0] = 0` are legal (R251). -/
def legalAccess (off : BitVec 12) (size : Nat) : Bool := decide (size = 32) && decide (off.toNat % 4 = 0)

/-- A write that is stored while IDLE, and dropped with BUSYWR set while BUSY (R253, R255). -/
def State.whenIdle (store : State → State) (s : State) : State :=
  match s.eng with
  | .idle => store s
  | .busy => s.dropWrite

/-- The configuration registers and HIST stored, and the operands that the host has now written (R253, R262). -/
def State.store (c : ConfigRegs) (h : Bank Word 256) (w : OperandsWritten) (s : State) : State :=
  { s with cfg := c, hist := h, duties := { s.duties with written := w } }

/-- A configuration register stored, and the operands that the host has now written (R253, R262). -/
def State.storeCfg (c : ConfigRegs) (w : OperandsWritten) (s : State) : State := s.store c s.hist w

/-- A legal write of `v` to a register (R253, R255, R256, R258). -/
def writeReg (r : RegName) (v : Word) (s : State) : State :=
  match r with
  | .id => s
  | .caps => s
  | .ctrl => if v.getLsbD 0 then s.whenIdle State.acceptStart else s
  | .status => s.acknowledge v
  | .irqEn => s.setIrqEn v
  | .cmd => s.whenIdle fun s => s.storeCfg { s.cfg with cmd := v } s.duties.written
  | .width => s.whenIdle fun s => s.storeCfg { s.cfg with width := v } { s.duties.written with width := true }
  | .height => s.whenIdle fun s => s.storeCfg { s.cfg with height := v } { s.duties.written with height := true }
  | .layout => s.whenIdle fun s => s.storeCfg { s.cfg with layout := v } { s.duties.written with layout := true }
  | .srcBase => s.whenIdle fun s => s.storeCfg { s.cfg with srcBase := v } { s.duties.written with srcBase := true }
  | .srcLen => s.whenIdle fun s => s.storeCfg { s.cfg with srcLen := v } { s.duties.written with srcLen := true }
  | .dstBase => s.whenIdle fun s => s.storeCfg { s.cfg with dstBase := v } { s.duties.written with dstBase := true }
  | .kradius => s.whenIdle fun s => s.storeCfg { s.cfg with kradius := v } { s.duties.written with kradius := true }
  | .knorm => s.whenIdle fun s => s.storeCfg { s.cfg with knorm := v } s.duties.written
  | .kw k => s.whenIdle fun s =>
    s.storeCfg { s.cfg with kw := s.cfg.kw.set k.1 v } { s.duties.written with kw := s.duties.written.kw.set k.1 true }
  | .hist i => s.whenIdle fun s =>
    s.store s.cfg (s.hist.set i.1 v) { s.duties.written with hist := s.duties.written.hist.set i.1 true }
  | .cum i => s.whenIdle fun s => { s with cum := s.cum.set i.1 v }

/-- A bin's value: the bin while IDLE, a fresh draw while BUSY (R252, R254). -/
def readBin (bins : Bank Word 256) (i : Fin 256) (s : State) : Word :=
  match s.eng with
  | .idle => bins.nth i.1
  | .busy => Config.busyBinRead s.draws

/-- What a legal read of a register returns (R252). -/
def readReg (r : RegName) (s : State) : Word :=
  match r with
  | .id => idWord
  | .caps => capsWord
  | .ctrl => 0
  | .status => s.statusWord
  | .irqEn => s.irqEnWord
  | .cmd => s.cfg.cmd
  | .width => s.cfg.width
  | .height => s.cfg.height
  | .layout => s.cfg.layout
  | .srcBase => s.cfg.srcBase
  | .srcLen => s.cfg.srcLen
  | .dstBase => s.cfg.dstBase
  | .kradius => s.cfg.kradius
  | .knorm => s.cfg.knorm
  | .kw k => s.cfg.kw.nth k.1
  | .hist i => readBin s.hist i s
  | .cum i => readBin s.cum i s

/-- The response of a transaction (R250, R251, R257). -/
def portResp (off : BitVec 12) (size : Nat) : Resp := if legalAccess off size then .okay else .slverr

/-- The data of a read transaction: 0 where the access is illegal (R251) or the offset unmapped (R49). -/
def portReadData (off : BitVec 12) (size : Nat) (s : State) : Word :=
  if legalAccess off size then
    match regAt off with
    | some r => readReg r s
    | none => 0
  else 0

/-- A write that is accepted as a START (R258). -/
def State.startsCommand (off : BitVec 12) (size : Nat) (v : Word) (s : State) : Bool :=
  decide (s.eng = .idle) && legalAccess off size && decide (regAt off = some .ctrl) && v.getLsbD 0

/-- KRADIUS and the weights of its kernel are written, where CONV_CUSTOM reads them (R124). A START with KNORM 0 fails with
INVALID_KERNEL, written or not (R45), and so does one with a radius above 2 (R44): they read no weight. -/
def State.kernelWritten (s : State) : Bool :=
  decide (s.cfg.knorm.toNat = 0) ||
    (s.duties.written.kradius &&
      (decide (Config.kmaxRadius < s.cfg.kradius.toNat) ||
        (s.duties.written.kw.cells.take ((2 * s.cfg.kradius.toNat + 1) ^ 2)).all id))

/-- The operands that the pixel and scan classes share (R124). -/
def OperandsWritten.source (w : OperandsWritten) : Bool := w.width && w.height && w.layout && w.srcBase && w.srcLen

/-- Every operand that the command reads is written (R124, R262 "configure" and "reset"); of the scan class, every bin of HIST too. -/
def State.operandsWritten (i : Instr) (s : State) : Bool :=
  match commandClass i with
  | .control => true
  | .scan => s.duties.written.source && s.duties.written.hist.cells.all id
  | .pixel => s.duties.written.source && s.duties.written.dstBase && (decide (i ≠ .convCustom) || s.kernelWritten)

/-- The command in CMD reads an operand that the host has not written. A word that does not decode reads none. -/
def State.lacksOperand (s : State) : Bool :=
  match decode s.cfg.cmd with
  | .ok i => !s.operandsWritten i
  | .error _ => false

/-- An answer given to the host. -/
def State.answer (r : Reply) (s : State) : State := { s with replies := r :: s.replies }

/-- `RegRead(off)` (R250–R252). Reads have no side effect; each takes one draw number. -/
def portRead (off : BitVec 12) (size : Nat) (s : State) : State :=
  { s.answer (.regRead (portResp off size) (portReadData off size s)) with draws := s.draws + 1 }

/-- `RegWrite(off, v)` (R250, R251, R253, R255, R256). -/
def portWrite (off : BitVec 12) (size : Nat) (v : Word) (s : State) : State :=
  (if legalAccess off size then
    match regAt off with
    | some r => writeReg r v s
    | none => s
  else s).answer (.regWrote (portResp off size))

end Sys2Proof.Machine
end

