-- ==== Sys2Proof/Machine/HostPort.lean ====
section
/-! DEFINITION. The actions of the host: register transactions with the duty to write the operands (46_system.md R262),
the host's path to data memory with the buffer hazard (70_reset_and_hazards.md R310), reset (R300, R301), waiting, and
the host notation of 30_encoding.md R131 and R132. -/

namespace Sys2Proof.Machine

/-- The command that is running, none while IDLE or where CUR does not decode (DEDUCED, log entry 12). -/
def State.running (s : State) : Option Instr :=
  match s.eng, decode (fetch s) with
  | .busy, .ok i => some i
  | _, _ => none

/-- The class of the running command. -/
def State.runningClass (s : State) : Option CmdClass := s.running.map commandClass

/-- Byte `a` lies in `[base, base + len)`. -/
def inRegion (base len a : Nat) : Bool := decide (base ≤ a) && decide (a < base + len)

/-- Byte `a` is in the source region of a running pixel or scan command (R310). -/
def State.guardsSource (s : State) (a : Nat) : Bool :=
  (s.runningClass = some .pixel || s.runningClass = some .scan) && inRegion s.cfg.srcBase.toNat s.cfg.srcLen.toNat a

/-- Byte `a` is in the destination region of a running pixel command (R310). -/
def State.guardsDest (s : State) (a : Nat) : Bool :=
  s.runningClass = some .pixel && inRegion s.cfg.dstBase.toNat s.cfg.srcLen.toNat a

/-- The host reads byte `a` of data memory (R90, R310). -/
def hostMemRead (a : Word) (s : State) : Host.Outcome State Fault Refusal :=
  if s.guardsDest a.toNat then .fault (.hazard .destRead) else .next (s.answer (.memRead (s.readByte a.toNat)))

/-- The host writes byte `a` of data memory (R90, R310). -/
def hostMemWrite (a : Word) (v : Byte) (s : State) : Host.Outcome State Fault Refusal :=
  if s.guardsDest a.toNat then .fault (.hazard .destWrite)
  else if s.guardsSource a.toNat then .fault (.hazard .sourceWrite)
  else .next { s with mem := s.mem.write a.toNat v }

/-- The bytes that a reset leaves unspecified (R301): those of the destination region that exist (R90), but for any that is
in the source region as well, which is unchanged (DEDUCED, log entry 11). -/
def State.abandonedAddrs (s : State) : List Nat :=
  ((List.range s.cfg.srcLen.toNat).map fun k => s.cfg.dstBase.toNat + k).filter fun a =>
    decide (a < 2 ^ Config.addrWidth) && !inRegion s.cfg.srcBase.toNat s.cfg.srcLen.toNat a

/-- Data memory after a reset (R300, R301, U3): unchanged, but that a running pixel command leaves each byte of its
destination region with a free value, which stands for the old value as for a draw (DESIGN CHOICE, log entry 11). -/
def abandonedMem (s : State) : Memory :=
  if s.runningClass = some .pixel then s.mem.writeEach (Config.abandonedByte s.draws) s.abandonedAddrs else s.mem

/-- `rst_n` low, then high (R300, R301): the reset values, with HIST, CUM, LH and WDONE drawn anew, and a running
command abandoned without termination. DESIGN CHOICE (log entries 8, 9). -/
def resetPulse (s : State) : State :=
  .afterReset (.gen 256 (Config.resetHist s.draws)) (.gen 256 (Config.resetCum s.draws))
    (.gen 4 fun w => .gen 256 (Config.resetLocal s.draws w)) (.gen 4 (Config.resetDone s.draws))
    (abandonedMem s) s.delays (s.draws + 1) s.host s.replies

/-- A register write by the host. A START that would be accepted while an operand of its command is not written breaks the
duty of R262 "configure", and is the fault HAZARD (U6; log entry 13). -/
def hostRegWrite (off : BitVec 12) (size : Nat) (v : Word) (s : State) : Host.Outcome State Fault Refusal :=
  if s.startsCommand off size v && s.lacksOperand then .fault (.hazard .operandUnwritten) else .next (portWrite off size v s)

/-- The host sleeps on `irq` (R262 "complete", program P2): it stays on the queue until `irq` is 1 (log entry 18). To rely on
`irq` with DONE or ERR of the command before not cleared is the fault HAZARD (U6; log entry 13). -/
def hostSleep (s : State) : Host.Outcome State Fault Refusal :=
  if s.duties.doneOwed || s.duties.errOwed then .fault (.hazard .irqNotCleared)
  else .next (if s.irq then s else { s with host := .waitIrq :: s.host })

/-- One action of the host; `s` is the state with that action taken off the queue. A wait stays on the queue until its
condition holds (log entry 18). -/
def hostAct (a : HostAct) (s : State) : Host.Outcome State Fault Refusal :=
  match a with
  | .regWrite off size v => hostRegWrite off size v s
  | .regRead off size => .next (portRead off size s)
  | .memRead a => hostMemRead a s
  | .memWrite a v => hostMemWrite a v s
  | .waitDone =>
    .next (if s.status.done then portRead 0x00C 32 s else portRead 0x00C 32 { s with host := .waitDone :: s.host })
  | .waitIrq => hostSleep s
  | .reset => .next (resetPulse s)

/-- One model step of the completion delay passes (R315). -/
def State.tick (s : State) : State :=
  match s.eng with
  | .idle => s
  | .busy => { s with delay := s.delay - 1 }

/-- A step in which the engine does not act: the host does its next action, if it has one. -/
def hostStep (s : State) : Host.Outcome State Fault Refusal :=
  match s.host with
  | [] => .next s.tick
  | a :: rest => hostAct a { s.tick with host := rest }

/-! ## Host notation -/

/-- The pseudo-operations of R132. -/
inductive PseudoOp where
  | sobelMag
  | sobelX
  | sobelY
  | prewittMag
  | prewittX
  | prewittY
  deriving DecidableEq, Repr

/-- The command a pseudo-operation stands for (R132). -/
def PseudoOp.instr : PseudoOp → Instr
  | .sobelMag => .gradMag 2
  | .sobelX => .gradX 2
  | .sobelY => .gradY 2
  | .prewittMag => .gradMag 1
  | .prewittX => .gradX 1
  | .prewittY => .gradY 1

/-- A statement of a host program (R131, R132). -/
inductive HostStmt where
  | wr (r : RegName) (v : Word)
  | rd (r : RegName)
  | start
  | wait
  | run (op : BitVec 6) (gc : BitVec 4)
  | runPseudo (p : PseudoOp)
  | ack
  | image (w h sb db : Word)
  deriving DecidableEq, Repr

/-- `RegWrite(offset(NAME), v)` (R131). -/
def wrAct (r : RegName) (v : Word) : HostAct := .regWrite (BitVec.ofNat 12 (regOffset r)) 32 v

/-- `wr CMD, w ; start` (R132). -/
def runWord (w : Word) : List HostAct := [wrAct .cmd w, wrAct .ctrl 1]

/-- The transactions a statement stands for (R131, R132). DESIGN CHOICE (log entry 20): where `4*W*H` has no 32-bit value,
`image` writes it modulo `2^32` to SRC_LEN; R132 does not say what is written then. -/
def HostStmt.expand : HostStmt → List HostAct
  | .wr r v => [wrAct r v]
  | .rd r => [.regRead (BitVec.ofNat 12 (regOffset r)) 32]
  | .start => [wrAct .ctrl 1]
  | .wait => [.waitDone]
  | .run op gc => runWord (enc op gc)
  | .runPseudo p => runWord (encode p.instr)
  | .ack => [wrAct .status 0xE]
  | .image w h sb db =>
    [wrAct .width w, wrAct .height h, wrAct .layout 0, wrAct .srcBase sb, wrAct .srcLen (4 * w * h), wrAct .dstBase db]

end Sys2Proof.Machine
end

