-- ==== Sys2Proof/Machine/Step.lean ====
section
/-! DEFINITION. One step of the machine. The engine steps when it is BUSY and its completion delay has run out
(46_system.md R258, 70_reset_and_hazards.md R315); otherwise the host acts. -/

namespace Sys2Proof.Machine

def step (s : State) : Host.Outcome State Fault Refusal :=
  match s.eng, s.delay with
  | .busy, 0 => engineStep s
  | _, _ => hostStep s

/-- The state in which a START of the command word `w` has just been accepted with no delay (R258), so that the next
step runs it: the command is held in CMD and latched in CUR. DESIGN CHOICE (log entry 6). -/
def State.withFetchWord (s : State) (nbits w : Nat) : State :=
  { s with cfg := { s.cfg with cmd := tableWord nbits w } }.acceptWith 0

end Sys2Proof.Machine
end

