-- ==== Sys2Proof/Safety.lean ====
section
/-! DEFINITION. The terms in which statements are made: when a command passes validation (60_exceptions.md R271–R275),
what an outcome of a command is, and the invariant of a state. -/

namespace Sys2Proof.Machine

/-- The checks that the pixel and scan classes share all pass (R271, R273). -/
def ValidSource (c : ConfigRegs) : Prop :=
  c.layout = 0 ∧ 1 ≤ c.width.toNat ∧ 1 ≤ c.height.toNat ∧ c.srcLen.toNat = 4 * c.width.toNat * c.height.toNat ∧
    c.srcBase.toNat + c.srcLen.toNat ≤ 2 ^ 32

/-- The destination region is in range and apart from the source region (R271, R273, R274). -/
def ValidDest (c : ConfigRegs) : Prop :=
  c.dstBase.toNat + c.srcLen.toNat ≤ 2 ^ 32 ∧
    (c.srcBase.toNat + c.srcLen.toNat ≤ c.dstBase.toNat ∨ c.dstBase.toNat + c.srcLen.toNat ≤ c.srcBase.toNat)

/-- Every check of a pixel command passes, but the kernel check (R271). -/
def ValidPixel (c : ConfigRegs) : Prop := ValidSource c ∧ ValidDest c

/-- The kernel check of CONV_CUSTOM passes (R275). -/
def ValidKernel (c : ConfigRegs) : Prop := c.kradius.toNat ≤ 2 ∧ c.knorm.toNat ≠ 0

/-- The state in which a command that failed with `code` leaves the block: the effects of R276 and no other (R277). -/
def State.failed (s : State) (code : ErrorCode) : State :=
  { s with eng := .idle, status := ⟨true, true, s.status.busywr, code⟩ }

/-- The state in which a successful command that only writes data memory leaves the block, with memory `m` (R276). -/
def State.finished (s : State) (m : Memory) : State :=
  { s with eng := .idle, status := ⟨true, false, s.status.busywr, .ok⟩, mem := m }

/-- Byte `a` lies in the source region (R97). -/
def InSource (c : ConfigRegs) (a : Nat) : Prop := c.srcBase.toNat ≤ a ∧ a < c.srcBase.toNat + c.srcLen.toNat

/-- Byte `a` lies in the destination region (R97). -/
def InDest (c : ConfigRegs) (a : Nat) : Prop := c.dstBase.toNat ≤ a ∧ a < c.dstBase.toNat + c.srcLen.toNat

/-- The destination byte of channel `ch` of pixel `(x, y)` in state `t` (R91). -/
def State.dstByte (t : State) (x y ch : Nat) : Byte :=
  t.readByte (pixelAddr t.cfg.dstBase.toNat t.cfg.width.toNat x y ch)

/-- The red, green, blue or alpha sample at an offset from a pixel, as a number (R15). -/
def State.sample (s : State) (x y : Nat) (ch : Nat) (kx ky : Int) : Int := (s.tap (x + kx) (y + ky) ch).toNat

/-- The engine does not act in this step: it is IDLE, or its completion delay has not run out (R315). -/
def State.hostTurn (s : State) : Prop := s.eng = .idle ∨ s.delay ≠ 0

/-- In this step the host does the action `a`. -/
def State.acts (s : State) (a : HostAct) : Prop := s.hostTurn ∧ s.host.head? = some a

/-- The state with one step of the host's turn gone by: the action taken off the queue and, while BUSY, one model step of
the completion delay passed (R250, R315). -/
def State.passed (s : State) (rest : List HostAct) : State :=
  { s with host := rest, delay := s.delay - (if s.eng = .busy then 1 else 0) }

/-- The state with an OKAY answer to a write given to the host (R250). -/
def State.okayed (s : State) : State := { s with replies := .regWrote .okay :: s.replies }

/-- The state with an OKAY answer to a read given to the host (R250); a read takes one draw number. -/
def State.okayedRead (s : State) (v : Word) : State := { s with replies := .regRead .okay v :: s.replies, draws := s.draws + 1 }

/-- The host has written the operands that the pixel and scan classes share (R124). -/
def OperandsWritten.Source (w : OperandsWritten) : Prop :=
  w.width = true ∧ w.height = true ∧ w.layout = true ∧ w.srcBase = true ∧ w.srcLen = true

/-- The host has written what CONV_CUSTOM reads besides (R124): the radius and each weight of its kernel. No weight is read for a
radius above 2, nor anything for a normalizer 0, written or not: such a command fails (R44, R45). -/
def State.KernelWritten (s : State) : Prop :=
  s.cfg.knorm.toNat = 0 ∨
    (s.duties.written.kradius = true ∧
      (2 < s.cfg.kradius.toNat ∨ ∀ k : Fin 25, k.1 < (2 * s.cfg.kradius.toNat + 1) ^ 2 → s.duties.written.kw.get k = true))

/-- Every bin of HIST has had a known value given by the host since reset, as the scan class reads HIST (R124, R262 "reset", R303 step 3). -/
def OperandsWritten.Bins (w : OperandsWritten) : Prop := ∀ k : Fin 256, w.hist.get k = true

/-- The host has written every operand that the command in CMD reads (R124, R262 "configure" and "reset"). What is left out, and why, is
log entry 13: KNORM. -/
def State.Prepared (s : State) : Prop :=
  ∀ i, decode s.cfg.cmd = .ok i →
    (commandClass i ≠ .control → s.duties.written.Source) ∧ (commandClass i = .scan → s.duties.written.Bins) ∧ (commandClass i = .pixel → s.duties.written.dstBase = true) ∧
      (i = .convCustom → s.KernelWritten)

/-- The offsets of the registers that only take writes while IDLE (R255): the operands, HIST and CUM. -/
def OperandOffset (off : BitVec 12) : Prop :=
  off.toNat % 4 = 0 ∧ ((0x014 ≤ off.toNat ∧ off.toNat ≤ 0x034) ∨ (0x040 ≤ off.toNat ∧ off.toNat ≤ 0x0A0) ∨
    (0x400 ≤ off.toNat ∧ off.toNat ≤ 0xBFC))

/-- The unmapped offsets (R49). -/
def UnmappedOffset (off : BitVec 12) : Prop :=
  off.toNat % 4 = 0 ∧ ((0x038 ≤ off.toNat ∧ off.toNat ≤ 0x03C) ∨ (0x0A4 ≤ off.toNat ∧ off.toNat ≤ 0x3FC) ∨
    (0xC00 ≤ off.toNat ∧ off.toNat ≤ 0xFFC))

/-- The source image is uniform: every pixel is `p`, channel by channel (S5–S7). -/
def State.UniformSource (s : State) (p : Nat → Byte) : Prop :=
  ∀ x y ch, x < s.cfg.width.toNat → y < s.cfg.height.toNat → ch < 4 → s.src x y ch = p ch

/-- `SX` (R191), written out. -/
def State.sumX (s : State) (c x y ch : Nat) : Int :=
  (s.sample x y ch 1 (-1) + c * s.sample x y ch 1 0 + s.sample x y ch 1 1) -
    (s.sample x y ch (-1) (-1) + c * s.sample x y ch (-1) 0 + s.sample x y ch (-1) 1)

/-- `SY` (R191), written out. -/
def State.sumY (s : State) (c x y ch : Nat) : Int :=
  (s.sample x y ch (-1) 1 + c * s.sample x y ch 0 1 + s.sample x y ch 1 1) -
    (s.sample x y ch (-1) (-1) + c * s.sample x y ch 0 (-1) + s.sample x y ch 1 (-1))

/-- The number of pixels whose red sample is `v` (R217). -/
def State.redCount (s : State) (v : Nat) : Nat :=
  (List.range (s.cfg.width.toNat * s.cfg.height.toNat)).countP fun p =>
    decide ((s.readByte (s.cfg.srcBase.toNat + 4 * p)).toNat = v)

/-- What every step keeps: memory in canonical form within the address space (R90); an error flag only with an error code
(R276); and while BUSY the flags that acceptance cleared (R258, R285) and the latched command (R60). -/
def State.Inv (s : State) : Prop :=
  s.mem.wf = true ∧ (s.status.err = true → s.status.errcode ≠ .ok) ∧
    (s.eng = .busy → s.status.done = false ∧ s.status.err = false ∧ s.status.errcode = .ok ∧ s.cur = s.cfg.cmd)

/-- A safe run: the host breaks none of its duties in it (R310, R262). -/
def State.SafeFor (s : State) (n : Nat) : Prop := ∀ k, k ≤ n → ∀ r, Sys2Proof.core.run k s ≠ .fault r

end Sys2Proof.Machine
end

