-- ==== Sys2Proof/Certificates/Slice0/Obligations.lean ====
section
/-! DEFINITION. What is to be proved of the model. Each statement's docstring names the rule of the spec it formalises. -/

open Sys2Proof Sys2Proof.Machine

/-! ## Encoding (30_encoding.md) -/

/-- R133: the command words of the named operations, written and read. -/
def Obligations.CommandWordsOfNamedOperations : Prop :=
  ∀ p ∈ [((0x00000000 : Word), Instr.nop), (0x00000001, .convMean3), (0x00000002, .convGauss3), (0x00000003, .convGauss5),
      (0x00000004, .convCustom), (0x00000008, .median3), (0x0000000C, .variation5), (0x00000210, .gradMag 2), (0x00000211, .gradX 2),
      (0x00000212, .gradY 2), (0x00000110, .gradMag 1), (0x00000111, .gradX 1), (0x00000112, .gradY 1), (0x00000018, .histColor),
      (0x00000019, .histGray), (0x0000001A, .histCum), (0x0000001B, .histClear), (0x00000020, .grayLuma)],
    encode p.2 = p.1 ∧ decode p.1 = .ok p.2

/-- R121, R122, R126: every command the word can express is read back from its word, every operand at every value. -/
def Obligations.DecodeOfEncodeIsTheCommand : Prop := ∀ i : Instr, i.wellFormed = true → decode (encode i) = .ok i

/-- R121, R128: a word that decodes is the word of its command in every bit, but for the GC field of a command that ignores it. That the
encoder writes 0 there, and not the word's GC, is the model's choice (log entry 19: DEDUCED from R128 and from R132 and R133, whose words of
such commands have GC 0). -/
def Obligations.DecodedWordIsTheCommandsWord : Prop :=
  ∀ (w : Word) (i : Instr), decode w = .ok i →
    i.wellFormed = true ∧
      encode i = (match i with
        | .gradMag _ => w
        | .gradX _ => w
        | .gradY _ => w
        | _ => w &&& 0xFFFFF0FF)

/-- R129: every word is a command with one of the 15 opcodes, with any GC, or illegal: it is refused exactly where a reserved bit is set or
its OP is another value, and always as ILLEGAL_COMMAND. -/
def Obligations.RefusedWordsAreReservedOrUnassigned : Prop :=
  ∀ w : Word,
    ((∃ e, decode w = .error e) ↔
      w &&& 0xFFFFF0C0 ≠ 0 ∨
        ((w &&& 0x3F).toNat ∉ [0x00, 0x01, 0x02, 0x03, 0x04, 0x08, 0x0C, 0x10, 0x11, 0x12, 0x18, 0x19, 0x1A, 0x1B, 0x20])) ∧
    ∀ e, decode w = .error e → e = .illegalCommand

/-- R123: the opcode classes. -/
def Obligations.CommandClasses : Prop :=
  ∀ i : Instr,
    (commandClass i = .pixel ↔
      i ∈ [Instr.convMean3, .convGauss3, .convGauss5, .convCustom, .median3, .variation5, .grayLuma] ∨
        ∃ c, i = .gradMag c ∨ i = .gradX c ∨ i = .gradY c) ∧
    (commandClass i = .scan ↔ i ∈ [Instr.histColor, .histGray, .histCum]) ∧
    (commandClass i = .control ↔ i ∈ [Instr.nop, .histClear])

/-! ## The step -/

/-- R258: when the completion delay of an accepted command has run out and CUR decodes, a step is the command's meaning. -/
def Obligations.StepRunsTheDecodedCommand : Prop :=
  ∀ (s : State) (i : Instr), s.eng = .busy → s.delay = 0 → decode s.cur = .ok i → step s = exec i s

/-- R127, R128: a command word with an unassigned OP, or with a reserved bit set whatever its OP, terminates with
ILLEGAL_COMMAND and has no other effect; and the GC field is ignored for every OP but those of the gradient commands. -/
def Obligations.IllegalCommandWordTerminates : Prop :=
  (∀ s : State, s.eng = .busy → s.delay = 0 →
    (s.cur &&& 0xFFFFF0C0 ≠ 0 ∨
      (s.cur &&& 0x3F).toNat ∈ [0x05, 0x06, 0x07, 0x09, 0x0A, 0x0B, 0x0D, 0x0E, 0x0F, 0x13, 0x14, 0x15, 0x16, 0x17, 0x1C, 0x1D, 0x1E, 0x1F] ∨
      0x21 ≤ (s.cur &&& 0x3F).toNat) →
    step s = .next (s.failed .illegalCommand)) ∧
  ∀ w : Word, (w &&& 0x3F).toNat ∉ [0x10, 0x11, 0x12] → decode w = decode (w &&& 0xFFFFF0FF)

/-- R250, R315: in a step in which the engine does not act, the host does the next of its actions; with none left, nothing but the
completion delay moves. -/
def Obligations.StepTakesTheNextHostAction : Prop :=
  ∀ s : State, s.hostTurn →
    (∀ a rest, s.host = a :: rest → step s = hostAct a (s.passed rest)) ∧ (s.host = [] → step s = .next (s.passed []))

/-! ## Validation and termination (60_exceptions.md) -/

/-- R271: the checks in their order; the first failing one gives the code, and (R277) the command has no other effect. -/
def Obligations.ValidationReportsFirstFailingCheck : Prop :=
  ∀ (i : Instr) (s : State),
    (commandClass i ≠ .control →
      (s.cfg.layout ≠ 0 → exec i s = .next (s.failed .invalidLayout)) ∧
      (s.cfg.layout = 0 → s.cfg.width = 0 ∨ s.cfg.height = 0 → exec i s = .next (s.failed .emptyInput)) ∧
      (s.cfg.layout = 0 → s.cfg.width ≠ 0 → s.cfg.height ≠ 0 →
        (s.cfg.srcLen.toNat ≠ 4 * s.cfg.width.toNat * s.cfg.height.toNat → exec i s = .next (s.failed .invalidBuffer)) ∧
        (s.cfg.srcLen.toNat = 4 * s.cfg.width.toNat * s.cfg.height.toNat → 2 ^ 32 < s.cfg.srcBase.toNat + s.cfg.srcLen.toNat →
          exec i s = .next (s.failed .addressRange)))) ∧
    (commandClass i = .pixel → ValidSource s.cfg →
      (2 ^ 32 < s.cfg.dstBase.toNat + s.cfg.srcLen.toNat → exec i s = .next (s.failed .addressRange)) ∧
      (s.cfg.dstBase.toNat + s.cfg.srcLen.toNat ≤ 2 ^ 32 → s.cfg.srcBase.toNat < s.cfg.dstBase.toNat + s.cfg.srcLen.toNat →
        s.cfg.dstBase.toNat < s.cfg.srcBase.toNat + s.cfg.srcLen.toNat → exec i s = .next (s.failed .bufferOverlap))) ∧
    (i = .convCustom → ValidPixel s.cfg → 2 < s.cfg.kradius.toNat ∨ s.cfg.knorm = 0 → exec i s = .next (s.failed .invalidKernel)) ∧
    (commandClass i = .control ∨ (commandClass i = .scan ∧ ValidSource s.cfg) ∨
        (commandClass i = .pixel ∧ ValidPixel s.cfg ∧ (i = .convCustom → ValidKernel s.cfg)) →
      ∃ t, exec i s = .next t ∧ t.status.errcode = .ok)

/-- R276: every command ends in a termination: IDLE, DONE, and ERR exactly with a nonzero code; BUSYWR is as before. -/
def Obligations.EveryCommandTerminates : Prop :=
  ∀ (i : Instr) (s : State), ∃ t, exec i s = .next t ∧ t.eng = .idle ∧ t.status.done = true ∧
    (t.status.err = true ↔ t.status.errcode ≠ .ok) ∧ t.status.busywr = s.status.busywr

/-- R277: a command that terminates with a nonzero code has no effect but those of the termination. -/
def Obligations.ErrorsLeaveNoPartialEffect : Prop :=
  ∀ (i : Instr) (s t : State), exec i s = .next t → t.status.errcode ≠ .ok → t = s.failed t.status.errcode

/-! ## Pixel commands -/

/-- R154: CONV_MEAN3 gives R, G and B the sum of the nine clamped taps div 9, and keeps alpha. -/
def Obligations.ConvMean3AveragesNineTaps : Prop :=
  ∀ s : State, s.mem.wf = true → ValidPixel s.cfg →
    ∃ t, exec .convMean3 s = .next t ∧ t = s.finished t.mem ∧
      ∀ x y, x < s.cfg.width.toNat → y < s.cfg.height.toNat →
        (∀ ch, ch < 3 → ((t.dstByte x y ch).toNat : Int) =
          (s.sample x y ch (-1) (-1) + s.sample x y ch 0 (-1) + s.sample x y ch 1 (-1) + s.sample x y ch (-1) 0 + s.sample x y ch 0 0 +
            s.sample x y ch 1 0 + s.sample x y ch (-1) 1 + s.sample x y ch 0 1 + s.sample x y ch 1 1) / 9) ∧
        t.dstByte x y 3 = s.src x y 3

/-- R155: CONV_GAUSS3 weighs the nine clamped taps `1 2 1 / 2 4 2 / 1 2 1`, div 16, and keeps alpha. -/
def Obligations.ConvGauss3WeighsNineTaps : Prop :=
  ∀ s : State, s.mem.wf = true → ValidPixel s.cfg →
    ∃ t, exec .convGauss3 s = .next t ∧ t = s.finished t.mem ∧
      ∀ x y, x < s.cfg.width.toNat → y < s.cfg.height.toNat →
        (∀ ch, ch < 3 → ((t.dstByte x y ch).toNat : Int) =
          (s.sample x y ch (-1) (-1) + 2 * s.sample x y ch 0 (-1) + s.sample x y ch 1 (-1) + 2 * s.sample x y ch (-1) 0 +
            4 * s.sample x y ch 0 0 + 2 * s.sample x y ch 1 0 + s.sample x y ch (-1) 1 + 2 * s.sample x y ch 0 1 + s.sample x y ch 1 1) / 16) ∧
        t.dstByte x y 3 = s.src x y 3

/-- R156: CONV_GAUSS5 weighs the 25 clamped taps by the outer product of `1 4 6 4 1` with itself, div 256, and keeps alpha. -/
def Obligations.ConvGauss5WeighsTwentyFiveTaps : Prop :=
  ∀ s : State, s.mem.wf = true → ValidPixel s.cfg →
    ∃ t, exec .convGauss5 s = .next t ∧ t = s.finished t.mem ∧
      ∀ x y, x < s.cfg.width.toNat → y < s.cfg.height.toNat →
        (∀ ch, ch < 3 →
          let row := fun ky : Int => s.sample x y ch (-2) ky + 4 * s.sample x y ch (-1) ky + 6 * s.sample x y ch 0 ky +
            4 * s.sample x y ch 1 ky + s.sample x y ch 2 ky
          ((t.dstByte x y ch).toNat : Int) = (row (-2) + 4 * row (-1) + 6 * row 0 + 4 * row 1 + row 2) / 256) ∧
        t.dstByte x y 3 = s.src x y 3

/-- R157 with R46 and R151: CONV_CUSTOM convolves with KW read as signed words, row by row, takes the absolute value of the exact sum,
divides by the unsigned KNORM, caps at 255, and keeps alpha. -/
def Obligations.ConvCustomConvolvesTheHostsKernel : Prop :=
  ∀ s : State, s.mem.wf = true → ValidPixel s.cfg → ValidKernel s.cfg →
    ∃ t, exec .convCustom s = .next t ∧ t = s.finished t.mem ∧
      ∀ x y, x < s.cfg.width.toNat → y < s.cfg.height.toNat →
        (∀ ch, ch < 3 →
          let r := s.cfg.kradius.toNat
          (t.dstByte x y ch).toNat = min 255
            ((∑ j ∈ Finset.range (2 * r + 1), ∑ i ∈ Finset.range (2 * r + 1),
              (s.cfg.kw.nth (j * (2 * r + 1) + i)).toInt * s.sample x y ch ((i : Int) - r) ((j : Int) - r)).natAbs / s.cfg.knorm.toNat)) ∧
        t.dstByte x y 3 = s.src x y 3

/-- R170: MEDIAN3 gives R, G and B one of the nine red samples, with at least five of them not above it and at least five not below
it, and alpha 255. -/
def Obligations.Median3GivesTheMedianRedSample : Prop :=
  ∀ s : State, s.mem.wf = true → ValidPixel s.cfg →
    ∃ t, exec .median3 s = .next t ∧ t = s.finished t.mem ∧
      ∀ x y, x < s.cfg.width.toNat → y < s.cfg.height.toNat →
        let v := [s.sample x y 0 (-1) (-1), s.sample x y 0 0 (-1), s.sample x y 0 1 (-1), s.sample x y 0 (-1) 0, s.sample x y 0 0 0,
          s.sample x y 0 1 0, s.sample x y 0 (-1) 1, s.sample x y 0 0 1, s.sample x y 0 1 1]
        (∃ m ∈ v, 5 ≤ v.countP (fun n => decide (n ≤ m)) ∧ 5 ≤ v.countP (fun n => decide (m ≤ n)) ∧
          ∀ ch, ch < 3 → ((t.dstByte x y ch).toNat : Int) = m) ∧
        t.dstByte x y 3 = 255

/-- R180, R181: VARIATION5 gives R, G and B the floor of the quotient of the sums of `Rn/w` and `1/w` over the 25 clamped red samples, over
the rationals, and alpha 255. -/
def Obligations.Variation5GivesTheWeightedMean : Prop :=
  ∀ s : State, s.mem.wf = true → ValidPixel s.cfg →
    ∃ t, exec .variation5 s = .next t ∧ t = s.finished t.mem ∧
      ∀ x y, x < s.cfg.width.toNat → y < s.cfg.height.toNat →
        let red := fun kx ky : Int => s.sample x y 0 kx ky
        let w := fun kx ky : Int => if red kx ky = red 0 0 then (5 : ℚ) else ((|red 0 0 - red kx ky| : Int) : ℚ)
        (∀ ch, ch < 3 → ((t.dstByte x y ch).toNat : Int) =
          ⌊(∑ ky ∈ Finset.Icc (-2 : Int) 2, ∑ kx ∈ Finset.Icc (-2 : Int) 2, (red kx ky : ℚ) / w kx ky) /
            (∑ ky ∈ Finset.Icc (-2 : Int) 2, ∑ kx ∈ Finset.Icc (-2 : Int) 2, 1 / w kx ky)⌋) ∧
        t.dstByte x y 3 = 255

/-- R181: the integer form of the variation value, with any common multiple `L` of the weights. -/
def Obligations.VariationValueHasAnIntegerForm : Prop :=
  ∀ (rp : Nat) (v : List Nat) (l : Nat), v ≠ [] → l ≠ 0 → (∀ rn ∈ v, neighbourWeight rp rn ∣ l) →
    variationValue rp v =
      (v.map fun rn => rn * (l / neighbourWeight rp rn)).sum / (v.map fun rn => l / neighbourWeight rp rn).sum

/-- R182: the variation value lies between the least and the greatest sample. -/
def Obligations.VariationValueIsWithinTheSamples : Prop :=
  ∀ (rp lo hi : Nat) (v : List Nat), v ≠ [] → (∀ rn ∈ v, lo ≤ rn ∧ rn ≤ hi) →
    lo ≤ variationValue rp v ∧ variationValue rp v ≤ hi

/-- R183: the weight is symmetric, 5 for equal samples, and never 0. -/
def Obligations.VariationWeightIsSymmetric : Prop :=
  ∀ a b : Nat, a < 256 → b < 256 →
    neighbourWeight a b = neighbourWeight b a ∧ neighbourWeight a a = 5 ∧ neighbourWeight a b ≠ 0

/-- R191–R193: GRAD_MAG gives each of R, G and B the truncated root of its own channel's sums, div `c + 2`, capped, and alpha 255. -/
def Obligations.GradMagGivesEachChannelsMagnitude : Prop :=
  ∀ (s : State) (c : Nat), c < 16 → s.mem.wf = true → ValidPixel s.cfg →
    ∃ t, exec (.gradMag c) s = .next t ∧ t = s.finished t.mem ∧
      ∀ x y, x < s.cfg.width.toNat → y < s.cfg.height.toNat →
        (∀ ch, ch < 3 → (t.dstByte x y ch).toNat =
          min 255 (Nat.sqrt (s.sumX c x y ch ^ 2 + s.sumY c x y ch ^ 2).toNat / (c + 2))) ∧
        t.dstByte x y 3 = 255

/-- R191, R194: GRAD_X gives each of R, G and B the absolute value of SX div `c + 2`, and keeps alpha. -/
def Obligations.GradXGivesTheHorizontalDerivative : Prop :=
  ∀ (s : State) (c : Nat), c < 16 → s.mem.wf = true → ValidPixel s.cfg →
    ∃ t, exec (.gradX c) s = .next t ∧ t = s.finished t.mem ∧
      ∀ x y, x < s.cfg.width.toNat → y < s.cfg.height.toNat →
        (∀ ch, ch < 3 → (t.dstByte x y ch).toNat = (s.sumX c x y ch).natAbs / (c + 2)) ∧ t.dstByte x y 3 = s.src x y 3

/-- R191, R195: GRAD_Y gives each of R, G and B the absolute value of SY div `c + 2`, and keeps alpha. -/
def Obligations.GradYGivesTheVerticalDerivative : Prop :=
  ∀ (s : State) (c : Nat), c < 16 → s.mem.wf = true → ValidPixel s.cfg →
    ∃ t, exec (.gradY c) s = .next t ∧ t = s.finished t.mem ∧
      ∀ x y, x < s.cfg.width.toNat → y < s.cfg.height.toNat →
        (∀ ch, ch < 3 → (t.dstByte x y ch).toNat = (s.sumY c x y ch).natAbs / (c + 2)) ∧ t.dstByte x y 3 = s.src x y 3

/-- R240: GRAY_LUMA gives R, G and B `(299*R + 587*G + 114*B) div 1000`, and keeps alpha. -/
def Obligations.GrayLumaGivesTheLuma : Prop :=
  ∀ s : State, s.mem.wf = true → ValidPixel s.cfg →
    ∃ t, exec .grayLuma s = .next t ∧ t = s.finished t.mem ∧
      ∀ x y, x < s.cfg.width.toNat → y < s.cfg.height.toNat →
        (∀ ch, ch < 3 → (t.dstByte x y ch).toNat =
          (299 * (s.src x y 0).toNat + 587 * (s.src x y 1).toNat + 114 * (s.src x y 2).toNat) / 1000) ∧
        t.dstByte x y 3 = s.src x y 3

/-- R97, R150: what a pixel command leaves as it was. Only ENG, STATUS and data memory may differ after it; BUSYWR is as before; and of
data memory only the destination region `[DST_BASE, DST_BASE + SRC_LEN)`, nothing at all where it fails. -/
def Obligations.PixelCommandFrame : Prop :=
  ∀ (i : Instr) (s t : State), commandClass i = .pixel → s.mem.wf = true → exec i s = .next t →
    t = { s with eng := t.eng, status := t.status, mem := t.mem } ∧ t.status.busywr = s.status.busywr ∧
      (∀ a, ¬InDest s.cfg a → t.readByte a = s.readByte a) ∧ (t.status.errcode ≠ .ok → t.mem = s.mem)

/-- R102: no command writes the source region. -/
def Obligations.NoCommandWritesTheSourceRegion : Prop :=
  ∀ (i : Instr) (s t : State) (a : Nat), s.mem.wf = true → exec i s = .next t → InSource s.cfg a → t.readByte a = s.readByte a

/-- R153: a tap outside the image uses the nearest edge pixel, on each axis by itself; whatever its coordinates, its byte lies in the source
region; and a neighbourhood of radius `r` has exactly `(2r + 1)²` samples. -/
def Obligations.TapsStayInTheSourceRegion : Prop :=
  (∀ (s : State) (r : Nat) (x y : Int), (s.redSamples r x y).length = (2 * r + 1) ^ 2) ∧
  ∀ (s : State) (x y : Int) (ch : Nat), ValidSource s.cfg → ch < 4 →
    ∃ x' y', x' < s.cfg.width.toNat ∧ y' < s.cfg.height.toNat ∧
      (0 ≤ x → x < s.cfg.width.toNat → x' = x.toNat) ∧ (0 ≤ y → y < s.cfg.height.toNat → y' = y.toNat) ∧
      (x < 0 → x' = 0) ∧ (y < 0 → y' = 0) ∧ (s.cfg.width.toNat ≤ x → x' + 1 = s.cfg.width.toNat) ∧
      (s.cfg.height.toNat ≤ y → y' + 1 = s.cfg.height.toNat) ∧
      s.tap x y ch = s.readByte (pixelAddr s.cfg.srcBase.toNat s.cfg.width.toNat x' y' ch) ∧
      InSource s.cfg (pixelAddr s.cfg.srcBase.toNat s.cfg.width.toNat x' y' ch)

/-- R101: a command is a function of the configuration registers, HIST and the source bytes: two states that agree on them get the same
code, the same HIST, the same CUM where the command computes it, and the same destination bytes. -/
def Obligations.CommandsDependOnlyOnRegistersHistAndSource : Prop :=
  ∀ (i : Instr) (s₁ s₂ t₁ t₂ : State), s₁.mem.wf = true → s₂.mem.wf = true → s₁.cfg = s₂.cfg → s₁.hist = s₂.hist →
    (∀ a, InSource s₁.cfg a → s₁.readByte a = s₂.readByte a) → exec i s₁ = .next t₁ → exec i s₂ = .next t₂ →
    t₁.status.errcode = t₂.status.errcode ∧ t₁.hist = t₂.hist ∧
      (i = .histCum ∨ i = .histClear → t₁.status.errcode = .ok → t₁.cum = t₂.cum) ∧
      (commandClass i = .pixel → t₁.status.errcode = .ok → ∀ a, InDest s₁.cfg a → t₁.readByte a = t₂.readByte a)

/-- R154–R156, S6: mean and Gaussian blur return a uniform image unchanged, exactly. -/
def Obligations.BlurKeepsAUniformImage : Prop :=
  ∀ (s : State) (p : Nat → Byte), s.mem.wf = true → ValidPixel s.cfg → s.UniformSource p →
    ∀ i ∈ [Instr.convMean3, .convGauss3, .convGauss5], ∃ t, exec i s = .next t ∧
      ∀ x y ch, x < s.cfg.width.toNat → y < s.cfg.height.toNat → ch < 4 → t.dstByte x y ch = p ch

/-- R193–R195, S7: the gradient of a uniform image is black; GRAD_MAG forces alpha to 255, GRAD_X and GRAD_Y keep it. -/
def Obligations.GradientOfAUniformImageIsBlack : Prop :=
  ∀ (s : State) (p : Nat → Byte) (c : Nat), c < 16 → s.mem.wf = true → ValidPixel s.cfg → s.UniformSource p →
    ∀ i ∈ [Instr.gradMag c, .gradX c, .gradY c], ∃ t, exec i s = .next t ∧
      ∀ x y, x < s.cfg.width.toNat → y < s.cfg.height.toNat →
        (∀ ch, ch < 3 → t.dstByte x y ch = 0) ∧ t.dstByte x y 3 = (if i = .gradMag c then 255 else p 3)

/-! ## Histogram commands (44_histogram.md) -/

/-- R210, R211: worker `i` has the indices from `i*s` to below `min((i+1)*s, t)`, with `s = (t + 3) div 4`; each index below the total is in
the range of exactly one worker; and each range ends where the next one starts, unless that is empty. -/
def Obligations.WorkerRangesPartitionTheTotal : Prop :=
  ∀ t j : Nat, t ≤ 4 * ((t + 3) / 4) ∧
    (∀ i, i < 3 → sectionEnd t i ≤ sectionStart t (i + 1) ∧ (sectionIndices t (i + 1) ≠ [] → sectionEnd t i = sectionStart t (i + 1))) ∧
    (j < t ↔ ∃ i, i < 4 ∧ j ∈ sectionIndices t i) ∧
      (∀ i k, i < 4 → k < 4 → j ∈ sectionIndices t i → j ∈ sectionIndices t k → i = k) ∧
      ∀ i, i < 4 → (j ∈ sectionIndices t i ↔ i * ((t + 3) / 4) ≤ j ∧ j < min ((i + 1) * ((t + 3) / 4)) t)

/-- R213: the order in which the workers run is not observable. -/
def Obligations.WorkerOrderIsNotObservable : Prop :=
  ∀ (s : State) (order : List (Fin 4)), order.Perm [0, 1, 2, 3] →
    ∀ samples ∈ [columnSamples, indexSamples],
      (order.foldl (State.runWorker samples) s.startWorkers).merge = s.scan samples

/-- R213–R216: after a scan, each worker's local histogram holds the counts of its own range, and every worker is done. -/
def Obligations.WorkersCountTheirOwnRanges : Prop :=
  ∀ s : State, ValidSource s.cfg → ∀ i ∈ [Instr.histColor, .histGray, .histCum], ∃ t, exec i s = .next t ∧
    ∀ w : Fin 4, t.wdone.get w = true ∧ ∀ v, v < 256 →
      ((t.lh.get w).nth v).toNat =
        (List.range (s.cfg.width.toNat * s.cfg.height.toNat)).countP fun p =>
          decide ((s.readByte (s.cfg.srcBase.toNat + 4 * p)).toNat = v ∧
            (if i = .histColor then p % s.cfg.width.toNat ∈ sectionIndices s.cfg.width.toNat w.1
              else p ∈ sectionIndices (s.cfg.width.toNat * s.cfg.height.toNat) w.1))

/-- R217: a scan command adds to each bin of HIST, modulo `2^32`, the number of pixels with that red sample. -/
def Obligations.ScanAddsRedCountsToHist : Prop :=
  ∀ s : State, ValidSource s.cfg → ∀ i ∈ [Instr.histColor, .histGray, .histCum],
    ∃ t, exec i s = .next t ∧ t.eng = .idle ∧ t.status = ⟨true, false, s.status.busywr, .ok⟩ ∧
      ∀ v, v < 256 → t.hist.nth v = BitVec.ofNat 32 ((s.hist.nth v).toNat + s.redCount v)

/-- R226: from cleared bins, a scan leaves bins that sum to the number of pixels; a 0-sized image fails with EMPTY_INPUT and changes
nothing. -/
def Obligations.ScanOfClearedBinsConservesPixels : Prop :=
  ∀ s : State, ∀ i ∈ [Instr.histColor, .histGray, .histCum],
    (ValidSource s.cfg → (∀ v, v < 256 → s.hist.nth v = 0) →
      ∃ t, exec i s = .next t ∧ ∑ v ∈ Finset.range 256, (t.hist.nth v).toNat = s.cfg.width.toNat * s.cfg.height.toNat) ∧
    (s.cfg.layout = 0 → s.cfg.width = 0 ∨ s.cfg.height = 0 → exec i s = .next (s.failed .emptyInput))

/-- R218: HIST_CUM writes CUM with the running sum of HIST as it stands after the merge, modulo `2^32`. -/
def Obligations.HistCumWritesTheRunningSum : Prop :=
  ∀ s : State, ValidSource s.cfg → ∃ t, exec .histCum s = .next t ∧
    (∀ v, v < 256 → t.hist.nth v = BitVec.ofNat 32 ((s.hist.nth v).toNat + s.redCount v)) ∧
    t.cum.nth 0 = t.hist.nth 0 ∧ (∀ i, 1 ≤ i → i < 256 → t.cum.nth i = t.hist.nth i + t.cum.nth (i - 1)) ∧
    ∀ i, i < 256 → t.cum.nth i = BitVec.ofNat 32 (∑ j ∈ Finset.range (i + 1), (t.hist.nth j).toNat)

/-- R225: HIST_CLEAR zeroes HIST and CUM, checks no buffer register, and changes nothing else but ENG and STATUS. -/
def Obligations.HistClearZeroesBothFiles : Prop :=
  ∀ s : State, ∃ t, exec .histClear s = .next t ∧
    t = { s with eng := .idle, status := ⟨true, false, s.status.busywr, .ok⟩, hist := t.hist, cum := t.cum } ∧
    ∀ v, v < 256 → t.hist.nth v = 0 ∧ t.cum.nth v = 0

/-- R260: NOP terminates OK whatever the operands, and changes nothing else; `irq` is then DONE_IE. -/
def Obligations.NopOnlyTerminates : Prop :=
  ∀ s : State, ∃ t, exec .nop s = .next t ∧ t = s.finished s.mem ∧ t.irq = s.irqEn.doneIe

/-- R227: scan and control commands write no data memory; the only state they change is HIST, CUM (HIST_CUM, HIST_CLEAR), the local LH and
WDONE, ENG and STATUS. -/
def Obligations.ScanAndControlFrame : Prop :=
  ∀ (i : Instr) (s t : State), commandClass i ≠ .pixel → exec i s = .next t →
    t = { s with eng := t.eng, status := t.status, hist := t.hist, cum := t.cum, lh := t.lh, wdone := t.wdone } ∧
      t.status.busywr = s.status.busywr ∧
      (i ≠ .histCum → i ≠ .histClear → t.cum = s.cum) ∧
      (i = .nop → t.hist = s.hist) ∧ (commandClass i = .control → t.lh = s.lh ∧ t.wdone = s.wdone)

/-! ## The register port (10_state.md, 46_system.md) -/

/-- R252: what a legal read of each register returns. HIST and CUM return the bin while IDLE; while BUSY the read is answered with some
value. A read changes nothing but the host's answers. -/
def Obligations.RegisterReadsReturn : Prop :=
  ∀ (s : State) (rest : List HostAct), s.hostTurn →
    (∀ p ∈ [((0x000 : BitVec 12), (0x494D4707 : Word)), (0x004, 0x00002024), (0x008, 0), (0x00C, s.statusWord), (0x010, s.irqEnWord),
        (0x014, s.cfg.cmd), (0x018, s.cfg.width), (0x01C, s.cfg.height), (0x020, s.cfg.layout), (0x024, s.cfg.srcBase),
        (0x028, s.cfg.srcLen), (0x02C, s.cfg.dstBase), (0x030, s.cfg.kradius), (0x034, s.cfg.knorm)],
      s.host = .regRead p.1 32 :: rest → step s = .next ((s.passed rest).okayedRead p.2)) ∧
    (∀ k, k < 25 → s.host = .regRead (BitVec.ofNat 12 (0x040 + 4 * k)) 32 :: rest →
      step s = .next ((s.passed rest).okayedRead (s.cfg.kw.nth k))) ∧
    (∀ k, k < 256 → s.host = .regRead (BitVec.ofNat 12 (0x400 + 4 * k)) 32 :: rest →
      ∃ v, step s = .next ((s.passed rest).okayedRead v) ∧ (s.eng = .idle → v = s.hist.nth k)) ∧
    (∀ k, k < 256 → s.host = .regRead (BitVec.ofNat 12 (0x800 + 4 * k)) 32 :: rest →
      ∃ v, step s = .next ((s.passed rest).okayedRead v) ∧ (s.eng = .idle → v = s.cum.nth k)) ∧
    (∀ off, UnmappedOffset off → s.host = .regRead off 32 :: rest → step s = .next ((s.passed rest).okayedRead 0))

/-- R37, R38: the fields of the STATUS and IRQ_EN words. -/
def Obligations.StatusAndIrqEnWords : Prop :=
  ∀ s : State,
    (s.statusWord.getLsbD 0 = true ↔ s.eng = .busy) ∧ s.statusWord.getLsbD 1 = s.status.done ∧ s.statusWord.getLsbD 2 = s.status.err ∧
      s.statusWord.getLsbD 3 = s.status.busywr ∧ s.statusWord.toNat / 256 = (match s.status.errcode with
        | .ok => 0
        | .invalidBuffer => 1
        | .emptyInput => 2
        | .invalidKernel => 3
        | .illegalCommand => 4
        | .bufferOverlap => 5
        | .invalidLayout => 6
        | .addressRange => 7) ∧ s.statusWord &&& 0xFFFFF0F0 = 0 ∧
      s.irqEnWord.getLsbD 0 = s.irqEn.doneIe ∧ s.irqEnWord.getLsbD 1 = s.irqEn.errIe ∧ s.irqEnWord.toNat < 4

/-- R253: a legal register write while IDLE. A START is here one of a command whose operands the host has written (R262; any other is the
hazard of `HostFaultsExactlyOnABrokenDuty`). What the model records of the host's duties beside it is `d` (log entry 13). -/
def Obligations.WritesWhileIdle : Prop :=
  ∀ (s : State) (rest : List HostAct) (v : Word), s.eng = .idle →
    (∀ p ∈ [((0x014 : BitVec 12), { s.cfg with cmd := v }), (0x018, { s.cfg with width := v }), (0x01C, { s.cfg with height := v }),
        (0x020, { s.cfg with layout := v }), (0x024, { s.cfg with srcBase := v }), (0x028, { s.cfg with srcLen := v }),
        (0x02C, { s.cfg with dstBase := v }), (0x030, { s.cfg with kradius := v }), (0x034, { s.cfg with knorm := v })],
      s.host = .regWrite p.1 32 v :: rest → ∃ d, step s = .next { (s.passed rest).okayed with cfg := p.2, duties := d }) ∧
    (∀ k, k < 25 → s.host = .regWrite (BitVec.ofNat 12 (0x040 + 4 * k)) 32 v :: rest →
      ∃ b d, step s = .next { (s.passed rest).okayed with cfg := { s.cfg with kw := b }, duties := d } ∧
        ∀ j, j < 25 → b.nth j = if j = k then v else s.cfg.kw.nth j) ∧
    (∀ k, k < 256 → s.host = .regWrite (BitVec.ofNat 12 (0x400 + 4 * k)) 32 v :: rest →
      ∃ b d, step s = .next { (s.passed rest).okayed with hist := b, duties := d } ∧
        ∀ j, j < 256 → b.nth j = if j = k then v else s.hist.nth j) ∧
    (∀ k, k < 256 → s.host = .regWrite (BitVec.ofNat 12 (0x800 + 4 * k)) 32 v :: rest →
      ∃ b, step s = .next { (s.passed rest).okayed with cum := b } ∧ ∀ j, j < 256 → b.nth j = if j = k then v else s.cum.nth j) ∧
    (s.host = .regWrite 0x010 32 v :: rest →
      step s = .next { (s.passed rest).okayed with irqEn := ⟨v.getLsbD 0, v.getLsbD 1⟩ }) ∧
    (s.host = .regWrite 0x00C 32 v :: rest →
      ∃ d, step s = .next { (s.passed rest).okayed with
        status := ⟨s.status.done && !v.getLsbD 1, s.status.err && !v.getLsbD 2, s.status.busywr && !v.getLsbD 3, s.status.errcode⟩,
        duties := d }) ∧
    (s.host = .regWrite 0x008 32 v :: rest → v.getLsbD 0 = true → s.Prepared →
      ∃ t, step s = .next t ∧ t.eng = .busy ∧ t.cur = s.cfg.cmd) ∧
    (∀ off, off = 0x000 ∨ off = 0x004 ∨ (off = 0x008 ∧ v.getLsbD 0 = false) ∨ UnmappedOffset off →
      s.host = .regWrite off 32 v :: rest → step s = .next (s.passed rest).okayed)

/-- R258: an accepted START of a command whose operands the host has written (R262; any other is the hazard of
`HostFaultsExactlyOnABrokenDuty`): CUR latches CMD; DONE, ERR and ERRCODE are cleared; BUSYWR is unchanged; ENG is BUSY. -/
def Obligations.StartIsAccepted : Prop :=
  ∀ (s : State) (rest : List HostAct) (v : Word), s.eng = .idle → s.Prepared → s.host = .regWrite 0x008 32 v :: rest → v.getLsbD 0 = true →
    ∃ t, step s = .next t ∧
      t = { s.okayed with
        eng := .busy, cur := s.cfg.cmd, status := ⟨false, false, s.status.busywr, .ok⟩, delay := t.delay, delays := t.delays,
        duties := t.duties, host := rest }

/-- R255, R259: while BUSY, a write to an operand register, HIST or CUM, and a START, are dropped and set BUSYWR. -/
def Obligations.WritesWhileBusyAreDropped : Prop :=
  ∀ (s : State) (rest : List HostAct) (off : BitVec 12) (v : Word), s.eng = .busy → s.delay ≠ 0 →
    OperandOffset off ∨ (off = 0x008 ∧ v.getLsbD 0 = true) → s.host = .regWrite off 32 v :: rest →
    step s = .next { (s.passed rest).okayed with status := { s.status with busywr := true } }

/-- R256: the writes that take effect, or do nothing, while BUSY. What the model records of the host's duties beside a write to STATUS is
`d` (log entry 13). -/
def Obligations.WritesAcceptedWhileBusy : Prop :=
  ∀ (s : State) (rest : List HostAct) (v : Word), s.eng = .busy → s.delay ≠ 0 →
    (s.host = .regWrite 0x00C 32 v :: rest →
      ∃ d, step s = .next { (s.passed rest).okayed with
        status := ⟨s.status.done && !v.getLsbD 1, s.status.err && !v.getLsbD 2, s.status.busywr && !v.getLsbD 3, s.status.errcode⟩,
        duties := d }) ∧
    (s.host = .regWrite 0x010 32 v :: rest →
      step s = .next { (s.passed rest).okayed with irqEn := ⟨v.getLsbD 0, v.getLsbD 1⟩ }) ∧
    (∀ off, off = 0x000 ∨ off = 0x004 ∨ (off = 0x008 ∧ v.getLsbD 0 = false) ∨ UnmappedOffset off →
      s.host = .regWrite off 32 v :: rest → step s = .next (s.passed rest).okayed)

/-- R251: an access of another size, or at an offset that is not a multiple of 4, answers SLVERR and changes no state; a read returns 0. -/
def Obligations.IllegalAccessAnswersSlverr : Prop :=
  ∀ (s : State) (rest : List HostAct) (off : BitVec 12) (size : Nat) (v : Word), s.hostTurn → size ≠ 32 ∨ off.toNat % 4 ≠ 0 →
    (s.host = .regWrite off size v :: rest →
      step s = .next { s.passed rest with replies := .regWrote .slverr :: s.replies }) ∧
    (s.host = .regRead off size :: rest →
      step s = .next { s.passed rest with replies := .regRead .slverr 0 :: s.replies, draws := s.draws + 1 })

/-- R283: `irq`, in the bits of STATUS and IRQ_EN; it is 0 after reset. -/
def Obligations.IrqIsTheEnabledPendingBits : Prop :=
  (∀ s : State, s.irq = ((s.statusWord.getLsbD 1 && s.irqEnWord.getLsbD 0) || (s.statusWord.getLsbD 2 && s.irqEnWord.getLsbD 1))) ∧
    ∀ hist cum lh wdone mem delays draws host replies,
      (State.afterReset hist cum lh wdone mem delays draws host replies).irq = false

/-- R131: `wait` repeats the read of STATUS until DONE reads 1. That a wait is an action that stays queued, and that a sleep on `irq` (R262,
program P2) is one too, with no transaction, is the model's choice (log entry 18: DESIGN CHOICE). A sleep is here one of a host that has
cleared DONE and ERR (R262; any other is the hazard of `HostFaultsExactlyOnABrokenDuty`). -/
def Obligations.HostWaitsForTermination : Prop :=
  ∀ (s : State) (rest : List HostAct), s.hostTurn →
    (s.host = .waitDone :: rest →
      step s = .next ((s.passed (if s.status.done then rest else .waitDone :: rest)).okayedRead s.statusWord)) ∧
    (s.duties.doneOwed = false → s.duties.errOwed = false → s.host = .waitIrq :: rest → step s = .next (s.passed (if s.irq then rest else .waitIrq :: rest)))

/-- R132: the pseudo-operations and their expansion. What `image` writes to SRC_LEN where `4*W*H` has no 32-bit value is left open here; the
model writes it modulo `2^32`, its own choice (log entry 20: DESIGN CHOICE). -/
def Obligations.PseudoOperationsExpand : Prop :=
  (∀ (op : BitVec 6) (n : BitVec 4), (enc op n).toNat = n.toNat * 256 + op.toNat ∧
    (HostStmt.run op n).expand = [.regWrite 0x014 32 (enc op n), .regWrite 0x008 32 1]) ∧
  (∀ p ∈ [(PseudoOp.sobelMag, (0x210 : Word)), (.sobelX, 0x211), (.sobelY, 0x212), (.prewittMag, 0x110), (.prewittX, 0x111), (.prewittY, 0x112)],
    (HostStmt.runPseudo p.1).expand = [.regWrite 0x014 32 p.2, .regWrite 0x008 32 1]) ∧
  HostStmt.ack.expand = [.regWrite 0x00C 32 0xE] ∧
  ∀ w h sb db : Word, ∃ n : Word, (HostStmt.image w h sb db).expand =
    [.regWrite 0x018 32 w, .regWrite 0x01C 32 h, .regWrite 0x020 32 0, .regWrite 0x024 32 sb, .regWrite 0x028 32 n, .regWrite 0x02C 32 db] ∧
      (4 * w.toNat * h.toNat < 2 ^ 32 → n.toNat = 4 * w.toNat * h.toNat)

/-! ## Data memory, reset and hazards (20_memory.md, 70_reset_and_hazards.md) -/

/-- R90, R96, R262: while IDLE, and while BUSY outside both buffers, the host reads the byte held at an address, and a byte it writes is the
one read there afterwards; every other byte, and everything else, is as before. -/
def Obligations.HostMemoryAccess : Prop :=
  ∀ (s : State) (rest : List HostAct) (a : Word) (v : Byte), s.mem.wf = true →
    s.eng = .idle ∨ (s.delay ≠ 0 ∧ ¬InSource s.cfg a.toNat ∧ ¬InDest s.cfg a.toNat) →
    (s.host = .memRead a :: rest →
      step s = .next { s.passed rest with replies := .memRead (s.readByte a.toNat) :: s.replies }) ∧
    (s.host = .memWrite a v :: rest →
      ∃ m, step s = .next { s.passed rest with mem := m } ∧ m.wf = true ∧
        ∀ x, Memory.read x m = if x = a.toNat then v else s.readByte x)

/-- R310: while BUSY, a host write to the source region, and a host read or write of the destination region, is the fault HAZARD. -/
def Obligations.BufferAccessWhileBusyIsAHazard : Prop :=
  ∀ (s : State) (rest : List HostAct) (i : Instr) (a : Word) (v : Byte), s.eng = .busy → s.delay ≠ 0 → decode s.cur = .ok i →
    (commandClass i ≠ .control → InSource s.cfg a.toNat → s.host = .memWrite a v :: rest → ∃ h, step s = .fault (.hazard h)) ∧
    (commandClass i = .pixel → InDest s.cfg a.toNat → s.host = .memRead a :: rest → step s = .fault (.hazard .destRead)) ∧
    (commandClass i = .pixel → InDest s.cfg a.toNat → s.host = .memWrite a v :: rest → step s = .fault (.hazard .destWrite))

/-- R310, R262, U6: exactly when a step is a fault, and which: a host access to a buffer of the running command, a START of a command with an
operand not written, HIST among them, a sleep on `irq` with DONE or ERR not cleared. And what a step does to the record of the duties: the
host has written an operand by writing its register while IDLE since the last reset, every bin of HIST also by a START of HIST_CLEAR, and it
owes the clearing of what was set when its last START was accepted
until it writes STATUS. That these and no other duties of R262 fault, and the record itself, is the model's choice (log entry 13: DEDUCED and
DESIGN CHOICE), and that a CUR which does not decode guards no buffer is, too (log entry 12: DEDUCED). -/
def Obligations.HostFaultsExactlyOnABrokenDuty : Prop :=
  (∀ (s : State) (r : Fault), step s = .fault r ↔
    (∃ v, s.acts (.regWrite 0x008 32 v) ∧ s.eng = .idle ∧ v.getLsbD 0 = true ∧ ¬s.Prepared ∧ r = .hazard .operandUnwritten) ∨
      (s.acts .waitIrq ∧ (s.duties.doneOwed = true ∨ s.duties.errOwed = true) ∧ r = .hazard .irqNotCleared) ∨
      ∃ i a, s.eng = .busy ∧ decode s.cur = .ok i ∧
        ((∃ v, s.acts (.memWrite a v) ∧
          ((commandClass i = .pixel ∧ InDest s.cfg a.toNat ∧ r = .hazard .destWrite) ∨
            (commandClass i ≠ .control ∧ InSource s.cfg a.toNat ∧ ¬(commandClass i = .pixel ∧ InDest s.cfg a.toNat) ∧ r = .hazard .sourceWrite))) ∨
          (s.acts (.memRead a) ∧ commandClass i = .pixel ∧ InDest s.cfg a.toNat ∧ r = .hazard .destRead))) ∧
  ∀ s t : State, step s = .next t →
    (∀ p ∈ [((0x018 : BitVec 12), OperandsWritten.width), (0x01C, OperandsWritten.height), (0x020, OperandsWritten.layout),
        (0x024, OperandsWritten.srcBase), (0x028, OperandsWritten.srcLen), (0x02C, OperandsWritten.dstBase), (0x030, OperandsWritten.kradius)],
      (p.2 t.duties.written = true ↔
        ¬s.acts .reset ∧ (p.2 s.duties.written = true ∨ (s.eng = .idle ∧ ∃ v, s.acts (.regWrite p.1 32 v))))) ∧
    (∀ k : Fin 25, t.duties.written.kw.get k = true ↔
      ¬s.acts .reset ∧
        (s.duties.written.kw.get k = true ∨ (s.eng = .idle ∧ ∃ v, s.acts (.regWrite (BitVec.ofNat 12 (0x040 + 4 * k.1)) 32 v)))) ∧
    (∀ k : Fin 256, t.duties.written.hist.get k = true ↔
      ¬s.acts .reset ∧
        (s.duties.written.hist.get k = true ∨ (s.eng = .idle ∧ ∃ v, s.acts (.regWrite (BitVec.ofNat 12 (0x400 + 4 * k.1)) 32 v)) ∨
          (s.eng = .idle ∧ t.eng = .busy ∧ decode s.cfg.cmd = .ok .histClear))) ∧
    (t.duties.doneOwed = true ↔
      ¬s.acts .reset ∧
        (if s.eng = .idle ∧ t.eng = .busy then s.status.done = true
          else s.duties.doneOwed = true ∧ ∀ v, s.acts (.regWrite 0x00C 32 v) → v.getLsbD 1 = false)) ∧
    (t.duties.errOwed = true ↔
      ¬s.acts .reset ∧
        (if s.eng = .idle ∧ t.eng = .busy then s.status.err = true
          else s.duties.errOwed = true ∧ ∀ v, s.acts (.regWrite 0x00C 32 v) → v.getLsbD 2 = false))

/-- R300: reset gives every register of the map but HIST and CUM its reset value (ID and CAPS their constants),
makes the engine IDLE and `irq` 0, and while IDLE does not touch the data memory. -/
def Obligations.ResetGivesTheResetValues : Prop :=
  ∀ (s : State) (rest : List HostAct), s.hostTurn → s.host = .reset :: rest →
    ∃ t, step s = .next t ∧ t.eng = .idle ∧ t.irq = false ∧ readReg .id t = 0x494D4707 ∧ readReg .caps t = 0x00002024 ∧ readReg .ctrl t = 0 ∧
      t.statusWord = 0 ∧ t.irqEnWord = 0 ∧
      t.cfg.cmd = 0 ∧ t.cfg.width = 0 ∧ t.cfg.height = 0 ∧ t.cfg.layout = 0 ∧ t.cfg.srcBase = 0 ∧ t.cfg.srcLen = 0 ∧ t.cfg.dstBase = 0 ∧
      t.cfg.kradius = 0 ∧ t.cfg.knorm = 0 ∧ (∀ k, k < 25 → t.cfg.kw.nth k = 0) ∧ t.host = rest ∧ (s.eng = .idle → t.mem = s.mem)

/-- R301: a reset while BUSY abandons the command without termination; the source region is unchanged, and so is every byte outside the
destination region of a pixel command. -/
def Obligations.ResetDuringACommandAbandonsIt : Prop :=
  ∀ (s : State) (rest : List HostAct), s.mem.wf = true → s.eng = .busy → s.delay ≠ 0 → s.host = .reset :: rest →
    ∃ t, step s = .next t ∧ t.eng = .idle ∧ t.status.done = false ∧ t.status.err = false ∧ t.irq = false ∧
      ∀ a, InSource s.cfg a ∨ ¬InDest s.cfg a ∨ (∀ i, decode s.cur = .ok i → commandClass i ≠ .pixel) → t.readByte a = s.readByte a

/-- R315: an accepted command completes after finitely many steps: whatever the host does meanwhile short of a reset, if no step is a
hazard, the command has terminated when its completion delay has run out. -/
def Obligations.AcceptedCommandCompletes : Prop :=
  ∀ s : State, s.eng = .busy → HostAct.reset ∉ s.host →
    (∃ r, Sys2Proof.core.run (s.delay + 1) s = .fault r) ∨
      ∃ t : State, Sys2Proof.core.run (s.delay + 1) s = .next t ∧ t.eng = .idle ∧ t.status.done = true ∧ t.cfg = s.cfg

/-! ## Whole-machine rules -/

/-- R60: IDLE → BUSY only by an accepted START; BUSY → IDLE only by termination or reset. -/
def Obligations.EngineStateTransitions : Prop :=
  ∀ s t : State, step s = .next t →
    (s.eng = .idle → t.eng = .busy → ∃ v rest, s.host = .regWrite 0x008 32 v :: rest ∧ v.getLsbD 0 = true) ∧
    (s.eng = .busy → t.eng = .idle → (s.delay = 0 ∧ t.status.done = true) ∨ ∃ rest, s.host = .reset :: rest)

/-- R60, R63: the configuration registers and CUR keep their acceptance-time values while BUSY, and a command changes none of them. -/
def Obligations.ConfigurationIsStableWhileBusy : Prop :=
  ∀ s t : State, step s = .next t → s.eng = .busy → (∀ rest, s.host ≠ .reset :: rest) → t.cfg = s.cfg ∧ t.cur = s.cur

/-- R50: the flags are written only by acceptance, termination, a dropped write, a write to STATUS, and reset. -/
def Obligations.FlagsChangeOnlyByTheirWriters : Prop :=
  ∀ s t : State, step s = .next t → (s.eng = .idle ∨ s.delay ≠ 0) → t.status ≠ s.status →
    (∃ rest, s.host = .reset :: rest) ∨
      ∃ off v rest, s.host = .regWrite off 32 v :: rest ∧
        (off = 0x00C ∨ (off = 0x008 ∧ v.getLsbD 0 = true) ∨ (s.eng = .busy ∧ OperandOffset off))

/-- The invariant holds after reset, whatever HIST, CUM, LH and WDONE then hold. -/
def Obligations.ResetMeetsTheInvariant : Prop :=
  ∀ hist cum lh wdone mem delays draws host replies, Memory.wf mem = true →
    (State.afterReset hist cum lh wdone mem delays draws host replies).Inv

/-- Every step keeps the invariant: memory in canonical form within the address space, ERR only with an error code, and while BUSY the
cleared flags and the latched command. -/
def Obligations.StepKeepsTheInvariant : Prop := ∀ s t : State, s.Inv → step s = .next t → t.Inv
end

