-- ==== Sys2Proof/Laws/Arith.lean ====
section
/-! SUPPORT. The integer root, the sort and the neighbour weight. -/

namespace Sys2Proof.Machine

/-- With fuel enough for the base-4 digits of `n`, the root is the integer square root. -/
theorem isqrtFuel_eq {fuel n : Nat} (h : n < 4 ^ fuel) : isqrtFuel fuel n = Nat.sqrt n := by
  induction fuel generalizing n with
  | zero =>
    have : n = 0 := by simpa using h
    subst this
    rfl
  | succ fuel ih =>
    rw [isqrtFuel]
    split
    · next hn => rw [hn]; rfl
    · have hq : n / 4 < 4 ^ fuel := by rw [Nat.pow_succ] at h; omega
      rw [ih hq]
      have h₁ : Nat.sqrt (n / 4) * Nat.sqrt (n / 4) ≤ n / 4 := Nat.sqrt_le (n / 4)
      have h₂ : n / 4 < (Nat.sqrt (n / 4) + 1) * (Nat.sqrt (n / 4) + 1) := Nat.lt_succ_sqrt (n / 4)
      generalize Nat.sqrt (n / 4) = r at h₁ h₂ ⊢
      have h₃ : (2 * r) * (2 * r) ≤ n := by nlinarith [Nat.div_mul_le_self n 4]
      have h₄ : n < (2 * r + 2) * (2 * r + 2) := by
        have : n / 4 + 1 ≤ (r + 1) * (r + 1) := h₂
        nlinarith [Nat.lt_div_mul_add (show 0 < 4 by decide) (a := n)]
      dsimp only
      split
      · next h₅ =>
        exact (Nat.eq_sqrt.mpr ⟨h₅, h₄⟩)
      · next h₅ =>
        exact (Nat.eq_sqrt.mpr ⟨h₃, Nat.lt_of_not_le h₅⟩)

/-- `isqrt` is the integer square root (R12). -/
theorem isqrt_eq (n : Nat) : isqrt n = Nat.sqrt n := by
  apply isqrtFuel_eq
  have h : n < 2 ^ (Nat.log2 n + 1) := Nat.lt_log2_self
  exact h.trans_le (Nat.pow_le_pow_left (by decide) _)

/-- The weight of a neighbour is never 0 (R180). -/
theorem neighbourWeight_pos (rp rn : Nat) : 0 < neighbourWeight rp rn := by
  unfold neighbourWeight
  split
  · decide
  · omega

/-- Sorting keeps the samples (R170). -/
theorem insertionSort_perm (v : List Nat) : (v.insertionSort (· ≤ ·)).Perm v := List.perm_insertionSort _ v

/-- The sorted samples ascend (R170). -/
theorem insertionSort_ascends (v : List Nat) : (v.insertionSort (· ≤ ·)).Pairwise (· ≤ ·) := List.pairwise_insertionSort _ v

/-- The median of nine samples is one of them (R170). -/
theorem median9_mem {v : List Nat} (h : v.length = 9) : median9 v ∈ v := by
  have hl : (v.insertionSort (· ≤ ·)).length = 9 := by rw [(insertionSort_perm v).length_eq, h]
  rw [median9, List.getD_eq_getElem _ _ (by omega : 4 < _)]
  exact (insertionSort_perm v).mem_iff.mp (List.getElem_mem _)

end Sys2Proof.Machine
end

