-- ==== Sys2Proof/Laws/Bank.lean ====
section
/-! SUPPORT. What reading a bank gives after each of its operations. -/

namespace Sys2Proof.Machine

variable {α : Type} {n w : Nat}

/-- Two banks with equal cells are equal. -/
theorem Bank.ext_cells {a b : Bank α n} (h : a.cells = b.cells) : a = b := by
  cases a; cases b; cases h; rfl

@[simp] theorem Bank.fill_cells (v : α) : (Bank.fill n v).cells = List.replicate n v := rfl

@[simp] theorem Bank.gen_cells (f : Nat → α) : (Bank.gen n f).cells = (List.range n).map f := rfl

@[simp] theorem Bank.set_cells (b : Bank α n) (k : Nat) (v : α) : (b.set k v).cells = b.cells.set k v := rfl

@[simp] theorem Bank.map2_cells (f : α → α → α) (a b : Bank α n) : (a.map2 f b).cells = List.zipWith f a.cells b.cells := rfl

@[simp] theorem Bank.get_fill (v : α) (i : Fin n) : (Bank.fill n v).get i = v := by simp [Bank.get]

@[simp] theorem Bank.get_gen (f : Nat → α) (i : Fin n) : (Bank.gen n f).get i = f i := by simp [Bank.get]

theorem Bank.get_set (b : Bank α n) (k : Nat) (v : α) (i : Fin n) : (b.set k v).get i = if k = i.1 then v else b.get i := by
  simp [Bank.get, List.getElem_set]

@[simp] theorem Bank.get_set_same (b : Bank α n) (v : α) (i : Fin n) : (b.set i.1 v).get i = v := by simp [Bank.get_set]

theorem Bank.get_set_ne (b : Bank α n) {k : Nat} (v : α) {i : Fin n} (h : k ≠ i.1) : (b.set k v).get i = b.get i := by
  simp [Bank.get_set, h]

/-- Two banks that agree at every register are equal. -/
theorem Bank.ext_get {a b : Bank α n} (h : ∀ i, a.get i = b.get i) : a = b :=
  Bank.ext_cells <| List.ext_getElem (by rw [a.size, b.size]) fun i h₁ _ => h ⟨i, by rw [← a.size]; exact h₁⟩

/-- Two banks of words that agree at every register number are equal. -/
theorem Bank.ext_nth {a b : Bank (BitVec w) n} (h : ∀ k, k < n → a.nth k = b.nth k) : a = b := by
  apply Bank.ext_cells
  apply List.ext_getElem (by rw [a.size, b.size])
  intro i h₁ h₂
  have := h i (by rw [← a.size]; exact h₁)
  simpa [Bank.nth, h₁, h₂] using this

@[simp] theorem Bank.nth_fill_zero (k : Nat) : (Bank.fill n (0 : BitVec w)).nth k = 0 := by
  simp only [Bank.nth, Bank.fill_cells, List.getD_eq_getElem?_getD, List.getElem?_replicate]
  split <;> rfl

theorem Bank.nth_gen {f : Nat → BitVec w} {k : Nat} (h : k < n) : (Bank.gen n f).nth k = f k := by
  simp [Bank.nth, h]

theorem Bank.nth_set (b : Bank (BitVec w) n) {k j : Nat} (v : BitVec w) (h : j < n) :
    (b.set k v).nth j = if k = j then v else b.nth j := by
  have : j < b.cells.length := by rw [b.size]; exact h
  simp only [Bank.nth, Bank.set_cells, List.getD_eq_getElem?_getD, List.getElem?_set]
  split
  · next e => subst e; simp [this]
  · rfl

theorem Bank.nth_map2 {f : BitVec w → BitVec w → BitVec w} (a b : Bank (BitVec w) n) {k : Nat} (h : k < n) :
    (a.map2 f b).nth k = f (a.nth k) (b.nth k) := by
  have ha : k < a.cells.length := by rw [a.size]; exact h
  have hb : k < b.cells.length := by rw [b.size]; exact h
  simp [Bank.nth, ha, hb]

end Sys2Proof.Machine
end

