-- ==== Sys2Proof/Laws/Command.lean ====
section
/-! SUPPORT. Validation (60_exceptions.md R271–R275) in the terms of Safety.lean, and the two ends of a command
(R276, R277). -/

namespace Sys2Proof.Machine

variable {c : ConfigRegs} {i : Instr} {s : State} {effect : State → State}

/-- The shared checks pass exactly where the buffer is valid (R271). -/
theorem checkSource_none : checkSource c = none ↔ ValidSource c := by
  have h0 : c.layout = 0 ↔ c.layout.toNat = 0 := by
    rw [← BitVec.toNat_inj]; rfl
  unfold checkSource ValidSource inRange
  rw [h0]
  simp only [Config.addrWidth]
  split
  · simp_all
  · split
    · next h => simp; omega
    · split
      · simp_all
      · split <;> simp_all; omega

/-- The destination checks pass exactly where the destination is valid (R271, R273, R274). -/
theorem checkDest_none : checkDest c = none ↔ ValidDest c := by
  unfold checkDest ValidDest inRange overlap
  simp only [Config.addrWidth]
  split
  · split <;> simp_all; omega
  · simp_all

/-- The kernel check passes exactly where the kernel is legal (R275). -/
theorem checkKernel_none : checkKernel c = none ↔ ValidKernel c := by
  unfold checkKernel ValidKernel
  split <;> simp_all [Config.kmaxRadius]
  omega

/-- An `or else` of two checks passes where both pass. -/
theorem orElse_none {a b : Option ErrorCode} : (a <|> b) = none ↔ a = none ∧ b = none := by
  cases a <;> simp

/-- A pixel command passes validation exactly where its buffers, and for CONV_CUSTOM its kernel, are valid (R271). -/
theorem validate_pixel (h : commandClass i = .pixel) :
    validate i c = none ↔ ValidPixel c ∧ (i = .convCustom → ValidKernel c) := by
  rw [validate, h]
  simp only [orElse_none, checkSource_none, checkDest_none, ValidPixel]
  by_cases hi : i = .convCustom
  · simp [hi, checkKernel_none, and_assoc]
  · simp [hi]

/-- A scan command passes validation exactly where its source buffer is valid (R271). -/
theorem validate_scan (h : commandClass i = .scan) : validate i c = none ↔ ValidSource c := by
  rw [validate, h]
  exact checkSource_none

/-- A control command runs no check (R271). -/
theorem validate_control (h : commandClass i = .control) : validate i c = none := by rw [validate, h]

/-- No check reports the code 0. -/
theorem validate_ne_ok : validate i c ≠ some .ok := by
  have hs : checkSource c ≠ some .ok := by
    unfold checkSource
    repeat' split
    all_goals simp
  have hd : checkDest c ≠ some .ok := by
    unfold checkDest
    repeat' split
    all_goals simp
  have hk : checkKernel c ≠ some .ok := by
    unfold checkKernel
    split <;> simp
  unfold validate
  split
  · simp
  · exact hs
  · cases h₁ : checkSource c with
    | some e => simpa [h₁] using hs
    | none =>
      cases h₂ : checkDest c with
      | some e => simpa [h₂] using hd
      | none => by_cases hi : i = .convCustom <;> simp [hi, hk]

/-- A command that passes validation has its whole effect and terminates with code 0 (R278). -/
theorem runCommand_valid (h : validate i s.cfg = none) : runCommand i effect s = .next ((effect s).terminate .ok) := by
  rw [runCommand, h]

/-- A command that fails a check terminates with that check's code and has no other effect (R277). -/
theorem runCommand_invalid {e : ErrorCode} (h : validate i s.cfg = some e) : runCommand i effect s = .next (s.failed e) := by
  rw [runCommand, h]
  have : e ≠ .ok := fun he => validate_ne_ok (he ▸ h)
  simp [State.terminate, State.failed, this]

/-- Everything a command can do: fail with a code and no other effect, or have its whole effect. -/
theorem runCommand_cases {t : State} (h : runCommand i effect s = .next t) :
    (∃ e, validate i s.cfg = some e ∧ e ≠ .ok ∧ t = s.failed e) ∨ (validate i s.cfg = none ∧ t = (effect s).terminate .ok) := by
  cases hv : validate i s.cfg with
  | none =>
    rw [runCommand_valid hv] at h
    exact .inr ⟨rfl, by injection h with h; exact h.symm⟩
  | some e =>
    rw [runCommand_invalid hv] at h
    exact .inl ⟨e, rfl, fun he => validate_ne_ok (he ▸ hv), by injection h with h; exact h.symm⟩

/-- The effect of each command between validation and termination (46_system.md R258, `perform`). -/
def effectOf : Instr → State → State
  | .nop => id
  | .convMean3 => drivePixels fun s => s.conv kernelMean3
  | .convGauss3 => drivePixels fun s => s.conv kernelGauss3
  | .convGauss5 => drivePixels fun s => s.conv kernelGauss5
  | .convCustom => drivePixels fun s => s.conv (kernelCustom s.cfg)
  | .median3 => drivePixels State.med
  | .variation5 => drivePixels State.var
  | .gradMag c => drivePixels fun s => s.magPixel c
  | .gradX c => drivePixels fun s => s.conv (kernelGradX c)
  | .gradY c => drivePixels fun s => s.conv (kernelGradY c)
  | .histColor => State.scan columnSamples
  | .histGray => State.scan indexSamples
  | .histCum => fun s => (s.scan indexSamples).cumulate
  | .histClear => fun s => { s with hist := .fill 256 0, cum := .fill 256 0 }
  | .grayLuma => drivePixels State.luma

/-- Every command is its effect between validation and termination. -/
theorem exec_eq (i : Instr) (s : State) : exec i s = runCommand i (effectOf i) s := by cases i <;> rfl

/-- Everything `exec` can do. -/
theorem exec_cases {t : State} (h : exec i s = .next t) :
    (∃ e, validate i s.cfg = some e ∧ e ≠ .ok ∧ t = s.failed e) ∨
      (validate i s.cfg = none ∧ t = (effectOf i s).terminate .ok) :=
  runCommand_cases (by rw [← exec_eq]; exact h)

/-- A pixel command drives some per-pixel function (R16, R150). -/
theorem effectOf_pixel (h : commandClass i = .pixel) : ∃ f, effectOf i = drivePixels f := by
  cases i <;> first | exact absurd h (by decide) | exact ⟨_, rfl⟩

end Sys2Proof.Machine
end

