-- ==== Sys2Proof/Laws/Memory.lean ====
section
/-! SUPPORT. Data memory: a read after a write, and the canonical form that every write keeps. -/

namespace Sys2Proof.Machine

/-- The canonical form of a memory that lists a cell. -/
theorem Memory.wfFrom_cons {lo a : Nat} {b : Byte} {m : Memory} :
    Memory.wfFrom lo ((a, b) :: m) = true ↔ lo ≤ a ∧ a < 2 ^ 32 ∧ b ≠ Memory.unlisted ∧ Memory.wfFrom (a + 1) m = true := by
  rw [Memory.wfFrom, Bool.and_eq_true, Bool.and_eq_true, Bool.and_eq_true, decide_eq_true_iff, decide_eq_true_iff, decide_eq_true_iff,
    and_assoc, and_assoc]

/-- A memory in canonical form from `lo` on reads as unlisted below `lo`. -/
theorem Memory.read_below {lo a : Nat} {m : Memory} (h : Memory.wfFrom lo m = true) (ha : a < lo) : Memory.read a m = Memory.unlisted := by
  cases m with
  | nil => rfl
  | cons c m =>
    obtain ⟨k, v⟩ := c
    have : a < k := Nat.lt_of_lt_of_le ha (Memory.wfFrom_cons.mp h).1
    rw [Memory.read, if_neg (Nat.ne_of_lt this), if_pos this]

/-- The canonical form from an address is one from any lower address. -/
theorem Memory.wfFrom_mono {lo lo' : Nat} {m : Memory} (h : Memory.wfFrom lo m = true) (hl : lo' ≤ lo) : Memory.wfFrom lo' m = true := by
  cases m with
  | nil => rfl
  | cons c m =>
    have h := Memory.wfFrom_cons.mp h
    exact Memory.wfFrom_cons.mpr ⟨hl.trans h.1, h.2⟩

theorem Memory.consCell_wf {lo a : Nat} {b : Byte} {m : Memory} (hm : Memory.wfFrom (a + 1) m = true) (hl : lo ≤ a) (ha : a < 2 ^ 32) :
    Memory.wfFrom lo (Memory.consCell a b m) = true := by
  unfold Memory.consCell
  split
  · exact Memory.wfFrom_mono hm (by omega)
  · next hb => exact Memory.wfFrom_cons.mpr ⟨hl, ha, hb, hm⟩

theorem Memory.read_consCell {a : Nat} {b : Byte} {m : Memory} (hm : Memory.wfFrom (a + 1) m = true) (x : Nat) :
    Memory.read x (Memory.consCell a b m) = if x = a then b else Memory.read x m := by
  unfold Memory.consCell
  split
  · next hb =>
    split
    · next hx => rw [hb, hx, Memory.read_below hm (by omega)]
    · rfl
  · rw [Memory.read]
    split
    · rfl
    · split
      · rw [Memory.read_below hm (by omega)]
      · rfl

theorem Memory.write_wfFrom {lo a : Nat} {b : Byte} {m : Memory} (hm : Memory.wfFrom lo m = true) (hl : lo ≤ a) (ha : a < 2 ^ 32) :
    Memory.wfFrom lo (Memory.write a b m) = true := by
  induction m generalizing lo with
  | nil => exact Memory.consCell_wf rfl hl ha
  | cons c m ih =>
    obtain ⟨k, v⟩ := c
    obtain ⟨h₁, h₂, h₃, h₄⟩ := Memory.wfFrom_cons.mp hm
    unfold Memory.write
    split
    · next hk => subst hk; exact Memory.consCell_wf h₄ hl ha
    · split
      · exact Memory.consCell_wf (Memory.wfFrom_cons.mpr ⟨by omega, h₂, h₃, h₄⟩) hl ha
      · exact Memory.wfFrom_cons.mpr ⟨h₁, h₂, h₃, ih h₄ (by omega)⟩

/-- A write keeps the canonical form. -/
theorem Memory.write_wf {a : Nat} {b : Byte} {m : Memory} (hm : m.wf = true) (ha : a < 2 ^ 32) : (Memory.write a b m).wf = true :=
  Memory.write_wfFrom hm (Nat.zero_le a) ha

theorem Memory.read_write_from {lo a : Nat} {b : Byte} {m : Memory} (hm : Memory.wfFrom lo m = true) (x : Nat) :
    Memory.read x (Memory.write a b m) = if x = a then b else Memory.read x m := by
  induction m generalizing lo with
  | nil => exact Memory.read_consCell rfl x
  | cons c m ih =>
    obtain ⟨k, v⟩ := c
    obtain ⟨h₁, h₂, h₃, h₄⟩ := Memory.wfFrom_cons.mp hm
    unfold Memory.write
    split
    · next hk =>
      subst hk
      rw [Memory.read_consCell h₄]
      split
      · rfl
      · next hx =>
        rw [Memory.read, if_neg hx]
        split
        · exact Memory.read_below h₄ (by omega)
        · rfl
    · split
      · exact Memory.read_consCell (Memory.wfFrom_cons.mpr ⟨by omega, h₂, h₃, h₄⟩) x
      · rw [Memory.read, Memory.read, ih h₄]
        split
        · rw [if_neg (by omega)]
        · split
          · rw [if_neg (by omega)]
          · rfl

/-- A read after a write gives the byte written there, and every other byte as before (R96). -/
theorem Memory.read_write {a : Nat} {b : Byte} {m : Memory} (hm : m.wf = true) (x : Nat) :
    Memory.read x (Memory.write a b m) = if x = a then b else Memory.read x m :=
  Memory.read_write_from hm x

/-- Storing bytes keeps the canonical form. -/
theorem Memory.writeBytes_wf {a : Nat} {bs : List Byte} {m : Memory} (hm : m.wf = true) (ha : a + bs.length ≤ 2 ^ 32) :
    (Memory.writeBytes a bs m).wf = true := by
  induction bs generalizing a m with
  | nil => exact hm
  | cons b bs ih =>
    rw [List.length_cons] at ha
    exact ih (Memory.write_wf hm (by omega)) (by omega)

/-- A read after storing bytes from `a`: the byte stored there, or the byte before. -/
theorem Memory.read_writeBytes {a : Nat} {bs : List Byte} {m : Memory} (hm : m.wf = true) (ha : a + bs.length ≤ 2 ^ 32) (x : Nat) :
    Memory.read x (Memory.writeBytes a bs m) = if a ≤ x ∧ x < a + bs.length then bs.getD (x - a) 0 else Memory.read x m := by
  induction bs generalizing a m with
  | nil =>
    have : ¬(a ≤ x ∧ x < a + 0) := by omega
    rw [Memory.writeBytes, List.length_nil, if_neg this]
  | cons b bs ih =>
    rw [List.length_cons] at ha ⊢
    rw [Memory.writeBytes, ih (Memory.write_wf hm (by omega)) (by omega), Memory.read_write hm]
    by_cases hx : x = a
    · subst hx
      rw [if_neg (by omega), if_pos rfl, if_pos (by omega), Nat.sub_self]
      rfl
    · rw [if_neg hx]
      by_cases h : a + 1 ≤ x ∧ x < a + 1 + bs.length
      · rw [if_pos h, if_pos (by omega), show x - a = (x - (a + 1)) + 1 by omega]
        rfl
      · rw [if_neg h, if_neg (by omega)]

/-- A byte outside the stored bytes reads as before. -/
theorem Memory.read_writeBytes_outside {a : Nat} {bs : List Byte} {m : Memory} (hm : m.wf = true) (ha : a + bs.length ≤ 2 ^ 32) {x : Nat}
    (hx : x < a ∨ a + bs.length ≤ x) : Memory.read x (Memory.writeBytes a bs m) = Memory.read x m := by
  rw [Memory.read_writeBytes hm ha, if_neg (by omega)]

/-- Storing a byte at each address of a list keeps the canonical form. -/
theorem Memory.writeEach_wf {f : Nat → Byte} {as : List Nat} {m : Memory} (hm : m.wf = true) (ha : ∀ a ∈ as, a < 2 ^ 32) :
    (Memory.writeEach f as m).wf = true := by
  induction as generalizing m with
  | nil => exact hm
  | cons a as ih =>
    exact ih (Memory.write_wf hm (ha a (List.mem_cons_self ..))) fun x hx => ha x (List.mem_cons_of_mem _ hx)

/-- A read after storing a byte at each address of a list: the byte stored there, or the byte before. -/
theorem Memory.read_writeEach {f : Nat → Byte} {as : List Nat} {m : Memory} (hm : m.wf = true) (ha : ∀ a ∈ as, a < 2 ^ 32) (x : Nat) :
    Memory.read x (Memory.writeEach f as m) = if x ∈ as then f x else Memory.read x m := by
  induction as generalizing m with
  | nil => simp [Memory.writeEach]
  | cons a as ih =>
    have h := ha a (List.mem_cons_self ..)
    rw [Memory.writeEach, ih (Memory.write_wf hm h) fun x hx => ha x (List.mem_cons_of_mem _ hx), Memory.read_write hm]
    by_cases hx : x ∈ as
    · simp [hx]
    · by_cases he : x = a <;> simp [hx, he]

/-- The memory after reset is in canonical form. -/
theorem Memory.reset_wf : State.reset.mem.wf = true := rfl

end Sys2Proof.Machine
end

