-- ==== Sys2Proof/Laws/Driver.lean ====
section
/-! SUPPORT. The pixel driver (40_convolution.md R150): where each output byte stands, and what else memory keeps. -/

namespace Sys2Proof.Machine

/-- Blocks of equal length, one after the other. -/
theorem length_flatMap_range {α : Type} {g : Nat → List α} {l : Nat} (hg : ∀ i, (g i).length = l) (n : Nat) :
    ((List.range n).flatMap g).length = n * l := by
  induction n with
  | zero => simp
  | succ n ih => simp [List.range_succ, List.flatMap_append, ih, hg, Nat.succ_mul]

/-- Entry `j` of block `i` of a sequence of blocks of equal length. -/
theorem getD_flatMap_range {α : Type} {g : Nat → List α} {l : Nat} (hg : ∀ i, (g i).length = l) {n i j : Nat} (hi : i < n) (hj : j < l)
    (d : α) : ((List.range n).flatMap g).getD (i * l + j) d = (g i).getD j d := by
  induction n with
  | zero => omega
  | succ n ih =>
    rw [List.range_succ, List.flatMap_append]
    have hlen := length_flatMap_range hg n
    by_cases h : i < n
    · have : i * l + j < n * l := by
        have : (i + 1) * l ≤ n * l := Nat.mul_le_mul_right l h
        rw [Nat.succ_mul] at this
        omega
      rw [List.getD_append _ _ _ _ (by omega), ih h]
    · have : i = n := by omega
      subst this
      rw [List.getD_append_right _ _ _ _ (by omega), hlen, Nat.add_sub_cancel_left]
      simp

/-- A pixel is four bytes. -/
@[simp] theorem Pixel.bytes_length (p : Pixel) : p.bytes.length = 4 := rfl

@[simp] theorem Pixel.chan_zero (p : Pixel) : p.chan 0 = p.r := rfl

@[simp] theorem Pixel.chan_one (p : Pixel) : p.chan 1 = p.g := rfl

@[simp] theorem Pixel.chan_two (p : Pixel) : p.chan 2 = p.b := rfl

@[simp] theorem Pixel.chan_three (p : Pixel) : p.chan 3 = p.a := rfl

/-- One row of an image is `w` pixels. -/
theorem rowBytes_length (w : Nat) (f : Nat → Nat → Pixel) (y : Nat) :
    ((List.range w).flatMap fun x => (f x y).bytes).length = w * 4 :=
  length_flatMap_range (g := fun x => (f x y).bytes) (fun _ => rfl) w

/-- An image of `w * h` pixels is `4 * w * h` bytes (R91). -/
theorem imageBytes_length (w h : Nat) (f : Nat → Nat → Pixel) : (imageBytes w h f).length = 4 * w * h := by
  rw [imageBytes, length_flatMap_range (rowBytes_length w f), Nat.mul_comm h, Nat.mul_comm 4 w]

/-- The byte of channel `c` of pixel `(x, y)` (R91). -/
theorem imageBytes_getD {w h x y c : Nat} (f : Nat → Nat → Pixel) (hx : x < w) (hy : y < h) (hc : c < 4) :
    (imageBytes w h f).getD (4 * (y * w + x) + c) 0 = (f x y).chan c := by
  have hrow : x * 4 + c < w * 4 := by omega
  have e : 4 * (y * w + x) + c = y * (w * 4) + (x * 4 + c) := by ring
  rw [e, imageBytes, getD_flatMap_range (rowBytes_length w f) hy hrow, getD_flatMap_range (g := fun x => (f x y).bytes) (fun _ => rfl) hx hc]
  rfl

/-- The offset of a pixel's byte lies inside the buffer (R91). -/
theorem pixel_offset_lt {w h x y c : Nat} (hx : x < w) (hy : y < h) (hc : c < 4) : 4 * (y * w + x) + c < 4 * w * h := by
  have : (y + 1) * w ≤ h * w := Nat.mul_le_mul_right w hy
  rw [Nat.succ_mul, Nat.mul_comm h w] at this
  rw [Nat.mul_assoc]
  omega

variable {s : State} {f : State → Nat → Nat → Pixel}

/-- What the driver writes where (R150). -/
theorem drivePixels_read (hm : s.mem.wf = true) (hd : s.cfg.dstBase.toNat + 4 * s.cfg.width.toNat * s.cfg.height.toNat ≤ 2 ^ 32)
    {x y c : Nat} (hx : x < s.cfg.width.toNat) (hy : y < s.cfg.height.toNat) (hc : c < 4) :
    (drivePixels f s).readByte (pixelAddr s.cfg.dstBase.toNat s.cfg.width.toNat x y c) = (f s x y).chan c := by
  have hlt := pixel_offset_lt hx hy hc
  rw [State.readByte, drivePixels, Memory.read_writeBytes hm (by rw [imageBytes_length]; exact hd), imageBytes_length, pixelAddr,
    if_pos (by omega), show s.cfg.dstBase.toNat + 4 * (y * s.cfg.width.toNat + x) + c - s.cfg.dstBase.toNat = 4 * (y * s.cfg.width.toNat + x) + c by omega]
  exact imageBytes_getD (f s) hx hy hc

/-- The driver leaves every byte outside the destination buffer (R97). -/
theorem drivePixels_read_outside (hm : s.mem.wf = true)
    (hd : s.cfg.dstBase.toNat + 4 * s.cfg.width.toNat * s.cfg.height.toNat ≤ 2 ^ 32) {a : Nat}
    (ha : a < s.cfg.dstBase.toNat ∨ s.cfg.dstBase.toNat + 4 * s.cfg.width.toNat * s.cfg.height.toNat ≤ a) :
    (drivePixels f s).readByte a = s.readByte a := by
  rw [State.readByte, drivePixels, Memory.read_writeBytes_outside hm (by rw [imageBytes_length]; exact hd) (by rw [imageBytes_length]; exact ha)]
  rfl

/-- The driver keeps memory in canonical form. -/
theorem drivePixels_wf (hm : s.mem.wf = true) (hd : s.cfg.dstBase.toNat + 4 * s.cfg.width.toNat * s.cfg.height.toNat ≤ 2 ^ 32) :
    (drivePixels f s).mem.wf = true :=
  Memory.writeBytes_wf hm (by rw [imageBytes_length]; exact hd)

/-- The driver changes data memory and nothing else. -/
theorem drivePixels_frame : drivePixels f s = { s with mem := (drivePixels f s).mem } := rfl

end Sys2Proof.Machine
end

