-- ==== Sys2Proof/Laws/Operands.lean ====
section
/-! SUPPORT. Taps (00_scope.md R15, 40_convolution.md R153) and the sums over a neighbourhood. -/

namespace Sys2Proof.Machine

variable {s s₁ s₂ : State}

/-- A clamped coordinate lies between 0 and the edge. -/
theorem clampi_bounds (v : Int) {hi : Int} (h : 0 ≤ hi) : 0 ≤ clampi v 0 hi ∧ clampi v 0 hi ≤ hi := by
  unfold clampi; omega

/-- A clamped column is a column of the image (R15). -/
theorem State.cx_lt (x : Int) (h : 1 ≤ s.cfg.width.toNat) : s.cx x < s.cfg.width.toNat := by
  unfold State.cx clampi; omega

/-- A clamped row is a row of the image (R15). -/
theorem State.cy_lt (y : Int) (h : 1 ≤ s.cfg.height.toNat) : s.cy y < s.cfg.height.toNat := by
  unfold State.cy clampi; omega

/-- The byte of a pixel of the image lies in the source region (R97). -/
theorem pixelAddr_inSource {x y ch : Nat} (hv : ValidSource s.cfg) (hx : x < s.cfg.width.toNat) (hy : y < s.cfg.height.toNat) (hc : ch < 4) :
    InSource s.cfg (pixelAddr s.cfg.srcBase.toNat s.cfg.width.toNat x y ch) := by
  obtain ⟨_, _, _, hl, _⟩ := hv
  have hrow : (y + 1) * s.cfg.width.toNat ≤ s.cfg.height.toNat * s.cfg.width.toNat := Nat.mul_le_mul_right _ hy
  have e : 4 * s.cfg.width.toNat * s.cfg.height.toNat = 4 * (s.cfg.height.toNat * s.cfg.width.toNat) := by ring
  rw [Nat.succ_mul] at hrow
  unfold InSource pixelAddr
  rw [hl, e]
  omega

/-- A tap is the byte of some pixel of the image, so it lies in the source region (R153). -/
theorem tap_inSource (x y : Int) {ch : Nat} (hv : ValidSource s.cfg) (hc : ch < 4) :
    InSource s.cfg (pixelAddr s.cfg.srcBase.toNat s.cfg.width.toNat (s.cx x) (s.cy y) ch) :=
  pixelAddr_inSource hv (s.cx_lt x hv.2.1) (s.cy_lt y hv.2.2.1) hc

/-- The source pixel itself is the tap at its own coordinates. -/
theorem State.tap_self {x y : Nat} (ch : Nat) (hx : x < s.cfg.width.toNat) (hy : y < s.cfg.height.toNat) : s.tap x y ch = s.src x y ch := by
  have ex : s.cx x = x := by unfold State.cx clampi; omega
  have ey : s.cy y = y := by unfold State.cy clampi; omega
  rw [State.tap, ex, ey]

/-- Two states with the same registers and the same source bytes: the hypothesis of R101. -/
structure SameSource (s₁ s₂ : State) : Prop where
  cfg : s₁.cfg = s₂.cfg
  valid : ValidSource s₁.cfg
  bytes : ∀ a, InSource s₁.cfg a → s₁.readByte a = s₂.readByte a

/-- A tap depends on the registers and the source bytes alone (R101). -/
theorem SameSource.tap (h : SameSource s₁ s₂) (x y : Int) {ch : Nat} (hc : ch < 4) : s₁.tap x y ch = s₂.tap x y ch := by
  have := h.bytes _ (tap_inSource x y h.valid hc)
  simp only [State.tap, State.src, State.cx, State.cy, ← h.cfg] at this ⊢
  exact this

/-- A source pixel depends on the registers and the source bytes alone (R101). -/
theorem SameSource.src (h : SameSource s₁ s₂) {x y ch : Nat} (hx : x < s₁.cfg.width.toNat) (hy : y < s₁.cfg.height.toNat) (hc : ch < 4) :
    s₁.src x y ch = s₂.src x y ch := by
  have := h.bytes _ (pixelAddr_inSource h.valid hx hy hc)
  simp only [State.src, ← h.cfg] at this ⊢
  exact this

theorem SameSource.weightedSum (h : SameSource s₁ s₂) (k : Kernel) (x y : Int) {ch : Nat} (hc : ch < 4) :
    s₁.weightedSum k x y ch = s₂.weightedSum k x y ch := by
  unfold State.weightedSum
  simp only [h.tap _ _ hc]

theorem SameSource.redSamples (h : SameSource s₁ s₂) (r : Nat) (x y : Int) : s₁.redSamples r x y = s₂.redSamples r x y := by
  unfold State.redSamples
  simp only [h.tap _ _ (by decide : (0 : Nat) < 4)]

/-- The offsets of radius 0, 1 and 2. -/
theorem offsets_zero : offsets 0 = [0] := rfl

theorem offsets_one : offsets 1 = [-1, 0, 1] := rfl

theorem offsets_two : offsets 2 = [-2, -1, 0, 1, 2] := rfl

/-- A weighted sum of radius 1, written out in the order of its weights. -/
theorem weightedSum_radius_one {x y ch : Nat} (a b c d e f g h i : Int) (n : Nat) :
    s.weightedSum ⟨1, [a, b, c, d, e, f, g, h, i], n⟩ x y ch =
      a * s.sample x y ch (-1) (-1) + b * s.sample x y ch 0 (-1) + c * s.sample x y ch 1 (-1) + d * s.sample x y ch (-1) 0 +
        e * s.sample x y ch 0 0 + f * s.sample x y ch 1 0 + g * s.sample x y ch (-1) 1 + h * s.sample x y ch 0 1 +
        i * s.sample x y ch 1 1 := by
  have e : s.weightedSum ⟨1, [a, b, c, d, e, f, g, h, i], n⟩ x y ch =
      (a * s.sample x y ch (-1) (-1) + (b * s.sample x y ch 0 (-1) + (c * s.sample x y ch 1 (-1) + 0))) +
        ((d * s.sample x y ch (-1) 0 + (e * s.sample x y ch 0 0 + (f * s.sample x y ch 1 0 + 0))) +
        ((g * s.sample x y ch (-1) 1 + (h * s.sample x y ch 0 1 + (i * s.sample x y ch 1 1 + 0))) + 0)) := rfl
  rw [e]
  ring

/-- The weighted sum of GAUSS5, row by row. -/
theorem weightedSum_gauss5 {x y ch : Nat} :
    s.weightedSum kernelGauss5 x y ch =
      (let row := fun ky : Int => s.sample x y ch (-2) ky + 4 * s.sample x y ch (-1) ky + 6 * s.sample x y ch 0 ky +
        4 * s.sample x y ch 1 ky + s.sample x y ch 2 ky
      row (-2) + 4 * row (-1) + 6 * row 0 + 4 * row 1 + row 2) := by
  have e : s.weightedSum kernelGauss5 x y ch =
      (let v := s.sample x y ch
      let row := fun (a b c d e ky : Int) => a * v (-2) ky + (b * v (-1) ky + (c * v 0 ky + (d * v 1 ky + (e * v 2 ky + 0))))
      row 1 4 6 4 1 (-2) + (row 4 16 24 16 4 (-1) + (row 6 24 36 24 6 0 + (row 4 16 24 16 4 1 + (row 1 4 6 4 1 2 + 0))))) := rfl
  rw [e]
  ring

/-- A sample is 0–255. -/
theorem State.sample_bounds (s : State) (x y ch : Nat) (kx ky : Int) : 0 ≤ s.sample x y ch kx ky ∧ s.sample x y ch kx ky ≤ 255 := by
  have := (s.tap (x + kx) (y + ky) ch).isLt
  unfold State.sample
  omega

/-- A value 0–255 is stored as it is. -/
theorem toByte_toNat {v : Nat} (h : v ≤ 255) : (toByte v).toNat = v := by
  rw [toByte, BitVec.toNat_ofNat]
  exact Nat.mod_eq_of_lt (by omega)

end Sys2Proof.Machine
end

