-- ==== Sys2Proof/Laws/State.lean ====
section
/-! SUPPORT. One lemma per field per update of the state, each true by `rfl`; each names its update and the field. -/

namespace Sys2Proof.Machine

variable (s : State)

/-! ## The record of the host's duties after a START (R262) -/

@[simp] theorem OperandsWritten.started_width (cmd : Word) (w : OperandsWritten) : (w.started cmd).width = w.width := by unfold OperandsWritten.started; split <;> rfl
@[simp] theorem OperandsWritten.started_height (cmd : Word) (w : OperandsWritten) : (w.started cmd).height = w.height := by unfold OperandsWritten.started; split <;> rfl
@[simp] theorem OperandsWritten.started_layout (cmd : Word) (w : OperandsWritten) : (w.started cmd).layout = w.layout := by unfold OperandsWritten.started; split <;> rfl
@[simp] theorem OperandsWritten.started_srcBase (cmd : Word) (w : OperandsWritten) : (w.started cmd).srcBase = w.srcBase := by unfold OperandsWritten.started; split <;> rfl
@[simp] theorem OperandsWritten.started_srcLen (cmd : Word) (w : OperandsWritten) : (w.started cmd).srcLen = w.srcLen := by unfold OperandsWritten.started; split <;> rfl
@[simp] theorem OperandsWritten.started_dstBase (cmd : Word) (w : OperandsWritten) : (w.started cmd).dstBase = w.dstBase := by unfold OperandsWritten.started; split <;> rfl
@[simp] theorem OperandsWritten.started_kradius (cmd : Word) (w : OperandsWritten) : (w.started cmd).kradius = w.kradius := by unfold OperandsWritten.started; split <;> rfl
@[simp] theorem OperandsWritten.started_kw (cmd : Word) (w : OperandsWritten) : (w.started cmd).kw = w.kw := by unfold OperandsWritten.started; split <;> rfl
@[simp] theorem HostDuties.started_written (cmd : Word) (f : StatusFlags) (d : HostDuties) : (d.started cmd f).written = d.written.started cmd := rfl
@[simp] theorem HostDuties.started_doneOwed (cmd : Word) (f : StatusFlags) (d : HostDuties) : (d.started cmd f).doneOwed = f.done := rfl
@[simp] theorem HostDuties.started_errOwed (cmd : Word) (f : StatusFlags) (d : HostDuties) : (d.started cmd f).errOwed = f.err := rfl

/-! ## After acceptance of a START (R258) -/

@[simp] theorem State.acceptWith_eng (d : Nat) : (s.acceptWith d).eng = .busy := rfl
@[simp] theorem State.acceptWith_cur (d : Nat) : (s.acceptWith d).cur = s.cfg.cmd := rfl
@[simp] theorem State.acceptWith_cfg (d : Nat) : (s.acceptWith d).cfg = s.cfg := rfl
@[simp] theorem State.acceptWith_status (d : Nat) : (s.acceptWith d).status = { s.status with done := false, err := false, errcode := .ok } := rfl
@[simp] theorem State.acceptWith_irqEn (d : Nat) : (s.acceptWith d).irqEn = s.irqEn := rfl
@[simp] theorem State.acceptWith_hist (d : Nat) : (s.acceptWith d).hist = s.hist := rfl
@[simp] theorem State.acceptWith_cum (d : Nat) : (s.acceptWith d).cum = s.cum := rfl
@[simp] theorem State.acceptWith_lh (d : Nat) : (s.acceptWith d).lh = s.lh := rfl
@[simp] theorem State.acceptWith_wdone (d : Nat) : (s.acceptWith d).wdone = s.wdone := rfl
@[simp] theorem State.acceptWith_mem (d : Nat) : (s.acceptWith d).mem = s.mem := rfl
@[simp] theorem State.acceptWith_delay (d : Nat) : (s.acceptWith d).delay = d := rfl
@[simp] theorem State.acceptWith_delays (d : Nat) : (s.acceptWith d).delays = s.delays := rfl
@[simp] theorem State.acceptWith_draws (d : Nat) : (s.acceptWith d).draws = s.draws := rfl
@[simp] theorem State.acceptWith_host (d : Nat) : (s.acceptWith d).host = s.host := rfl
@[simp] theorem State.acceptWith_replies (d : Nat) : (s.acceptWith d).replies = s.replies := rfl
@[simp] theorem State.acceptWith_duties (d : Nat) : (s.acceptWith d).duties = s.duties.started s.cfg.cmd s.status := rfl

/-! ## After acceptance with the next completion delay (R258, R315) -/

@[simp] theorem State.acceptStart_eng : s.acceptStart.eng = .busy := rfl
@[simp] theorem State.acceptStart_cur : s.acceptStart.cur = s.cfg.cmd := rfl
@[simp] theorem State.acceptStart_cfg : s.acceptStart.cfg = s.cfg := rfl
@[simp] theorem State.acceptStart_status : s.acceptStart.status = { s.status with done := false, err := false, errcode := .ok } := rfl
@[simp] theorem State.acceptStart_irqEn : s.acceptStart.irqEn = s.irqEn := rfl
@[simp] theorem State.acceptStart_hist : s.acceptStart.hist = s.hist := rfl
@[simp] theorem State.acceptStart_cum : s.acceptStart.cum = s.cum := rfl
@[simp] theorem State.acceptStart_lh : s.acceptStart.lh = s.lh := rfl
@[simp] theorem State.acceptStart_wdone : s.acceptStart.wdone = s.wdone := rfl
@[simp] theorem State.acceptStart_mem : s.acceptStart.mem = s.mem := rfl
@[simp] theorem State.acceptStart_delay : s.acceptStart.delay = s.delays.headD 0 := rfl
@[simp] theorem State.acceptStart_delays : s.acceptStart.delays = s.delays.tail := rfl
@[simp] theorem State.acceptStart_draws : s.acceptStart.draws = s.draws := rfl
@[simp] theorem State.acceptStart_host : s.acceptStart.host = s.host := rfl
@[simp] theorem State.acceptStart_replies : s.acceptStart.replies = s.replies := rfl
@[simp] theorem State.acceptStart_duties : s.acceptStart.duties = s.duties.started s.cfg.cmd s.status := rfl

/-! ## After termination (R276) -/

@[simp] theorem State.terminate_eng (c : ErrorCode) : (s.terminate c).eng = .idle := rfl
@[simp] theorem State.terminate_cur (c : ErrorCode) : (s.terminate c).cur = s.cur := rfl
@[simp] theorem State.terminate_cfg (c : ErrorCode) : (s.terminate c).cfg = s.cfg := rfl
@[simp] theorem State.terminate_status (c : ErrorCode) : (s.terminate c).status = ⟨true, decide (c ≠ .ok), s.status.busywr, c⟩ := rfl
@[simp] theorem State.terminate_irqEn (c : ErrorCode) : (s.terminate c).irqEn = s.irqEn := rfl
@[simp] theorem State.terminate_hist (c : ErrorCode) : (s.terminate c).hist = s.hist := rfl
@[simp] theorem State.terminate_cum (c : ErrorCode) : (s.terminate c).cum = s.cum := rfl
@[simp] theorem State.terminate_lh (c : ErrorCode) : (s.terminate c).lh = s.lh := rfl
@[simp] theorem State.terminate_wdone (c : ErrorCode) : (s.terminate c).wdone = s.wdone := rfl
@[simp] theorem State.terminate_mem (c : ErrorCode) : (s.terminate c).mem = s.mem := rfl
@[simp] theorem State.terminate_delay (c : ErrorCode) : (s.terminate c).delay = s.delay := rfl
@[simp] theorem State.terminate_delays (c : ErrorCode) : (s.terminate c).delays = s.delays := rfl
@[simp] theorem State.terminate_draws (c : ErrorCode) : (s.terminate c).draws = s.draws := rfl
@[simp] theorem State.terminate_host (c : ErrorCode) : (s.terminate c).host = s.host := rfl
@[simp] theorem State.terminate_replies (c : ErrorCode) : (s.terminate c).replies = s.replies := rfl
@[simp] theorem State.terminate_duties (c : ErrorCode) : (s.terminate c).duties = s.duties := rfl

/-! ## After a write to STATUS (R37) -/

@[simp] theorem State.acknowledge_eng (v : Word) : (s.acknowledge v).eng = s.eng := rfl
@[simp] theorem State.acknowledge_cur (v : Word) : (s.acknowledge v).cur = s.cur := rfl
@[simp] theorem State.acknowledge_cfg (v : Word) : (s.acknowledge v).cfg = s.cfg := rfl
@[simp] theorem State.acknowledge_status (v : Word) : (s.acknowledge v).status = ⟨s.status.done && !v.getLsbD 1, s.status.err && !v.getLsbD 2, s.status.busywr && !v.getLsbD 3, s.status.errcode⟩ := rfl
@[simp] theorem State.acknowledge_irqEn (v : Word) : (s.acknowledge v).irqEn = s.irqEn := rfl
@[simp] theorem State.acknowledge_hist (v : Word) : (s.acknowledge v).hist = s.hist := rfl
@[simp] theorem State.acknowledge_cum (v : Word) : (s.acknowledge v).cum = s.cum := rfl
@[simp] theorem State.acknowledge_lh (v : Word) : (s.acknowledge v).lh = s.lh := rfl
@[simp] theorem State.acknowledge_wdone (v : Word) : (s.acknowledge v).wdone = s.wdone := rfl
@[simp] theorem State.acknowledge_mem (v : Word) : (s.acknowledge v).mem = s.mem := rfl
@[simp] theorem State.acknowledge_delay (v : Word) : (s.acknowledge v).delay = s.delay := rfl
@[simp] theorem State.acknowledge_delays (v : Word) : (s.acknowledge v).delays = s.delays := rfl
@[simp] theorem State.acknowledge_draws (v : Word) : (s.acknowledge v).draws = s.draws := rfl
@[simp] theorem State.acknowledge_host (v : Word) : (s.acknowledge v).host = s.host := rfl
@[simp] theorem State.acknowledge_replies (v : Word) : (s.acknowledge v).replies = s.replies := rfl
@[simp] theorem State.acknowledge_duties (v : Word) : (s.acknowledge v).duties = s.duties.cleared v := rfl

/-! ## After a write to IRQ_EN (R38) -/

@[simp] theorem State.setIrqEn_eng (v : Word) : (s.setIrqEn v).eng = s.eng := rfl
@[simp] theorem State.setIrqEn_cur (v : Word) : (s.setIrqEn v).cur = s.cur := rfl
@[simp] theorem State.setIrqEn_cfg (v : Word) : (s.setIrqEn v).cfg = s.cfg := rfl
@[simp] theorem State.setIrqEn_status (v : Word) : (s.setIrqEn v).status = s.status := rfl
@[simp] theorem State.setIrqEn_irqEn (v : Word) : (s.setIrqEn v).irqEn = ⟨v.getLsbD 0, v.getLsbD 1⟩ := rfl
@[simp] theorem State.setIrqEn_hist (v : Word) : (s.setIrqEn v).hist = s.hist := rfl
@[simp] theorem State.setIrqEn_cum (v : Word) : (s.setIrqEn v).cum = s.cum := rfl
@[simp] theorem State.setIrqEn_lh (v : Word) : (s.setIrqEn v).lh = s.lh := rfl
@[simp] theorem State.setIrqEn_wdone (v : Word) : (s.setIrqEn v).wdone = s.wdone := rfl
@[simp] theorem State.setIrqEn_mem (v : Word) : (s.setIrqEn v).mem = s.mem := rfl
@[simp] theorem State.setIrqEn_delay (v : Word) : (s.setIrqEn v).delay = s.delay := rfl
@[simp] theorem State.setIrqEn_delays (v : Word) : (s.setIrqEn v).delays = s.delays := rfl
@[simp] theorem State.setIrqEn_draws (v : Word) : (s.setIrqEn v).draws = s.draws := rfl
@[simp] theorem State.setIrqEn_host (v : Word) : (s.setIrqEn v).host = s.host := rfl
@[simp] theorem State.setIrqEn_replies (v : Word) : (s.setIrqEn v).replies = s.replies := rfl
@[simp] theorem State.setIrqEn_duties (v : Word) : (s.setIrqEn v).duties = s.duties := rfl

/-! ## After a dropped write (R255) -/

@[simp] theorem State.dropWrite_eng : s.dropWrite.eng = s.eng := rfl
@[simp] theorem State.dropWrite_cur : s.dropWrite.cur = s.cur := rfl
@[simp] theorem State.dropWrite_cfg : s.dropWrite.cfg = s.cfg := rfl
@[simp] theorem State.dropWrite_status : s.dropWrite.status = { s.status with busywr := true } := rfl
@[simp] theorem State.dropWrite_irqEn : s.dropWrite.irqEn = s.irqEn := rfl
@[simp] theorem State.dropWrite_hist : s.dropWrite.hist = s.hist := rfl
@[simp] theorem State.dropWrite_cum : s.dropWrite.cum = s.cum := rfl
@[simp] theorem State.dropWrite_lh : s.dropWrite.lh = s.lh := rfl
@[simp] theorem State.dropWrite_wdone : s.dropWrite.wdone = s.wdone := rfl
@[simp] theorem State.dropWrite_mem : s.dropWrite.mem = s.mem := rfl
@[simp] theorem State.dropWrite_delay : s.dropWrite.delay = s.delay := rfl
@[simp] theorem State.dropWrite_delays : s.dropWrite.delays = s.delays := rfl
@[simp] theorem State.dropWrite_draws : s.dropWrite.draws = s.draws := rfl
@[simp] theorem State.dropWrite_host : s.dropWrite.host = s.host := rfl
@[simp] theorem State.dropWrite_replies : s.dropWrite.replies = s.replies := rfl
@[simp] theorem State.dropWrite_duties : s.dropWrite.duties = s.duties := rfl

/-! ## After operands stored (R253) -/

@[simp] theorem State.store_eng (c : ConfigRegs) (h : Bank Word 256) (w : OperandsWritten) : (s.store c h w).eng = s.eng := rfl
@[simp] theorem State.store_cur (c : ConfigRegs) (h : Bank Word 256) (w : OperandsWritten) : (s.store c h w).cur = s.cur := rfl
@[simp] theorem State.store_cfg (c : ConfigRegs) (h : Bank Word 256) (w : OperandsWritten) : (s.store c h w).cfg = c := rfl
@[simp] theorem State.store_status (c : ConfigRegs) (h : Bank Word 256) (w : OperandsWritten) : (s.store c h w).status = s.status := rfl
@[simp] theorem State.store_irqEn (c : ConfigRegs) (h : Bank Word 256) (w : OperandsWritten) : (s.store c h w).irqEn = s.irqEn := rfl
@[simp] theorem State.store_hist (c : ConfigRegs) (h : Bank Word 256) (w : OperandsWritten) : (s.store c h w).hist = h := rfl
@[simp] theorem State.store_cum (c : ConfigRegs) (h : Bank Word 256) (w : OperandsWritten) : (s.store c h w).cum = s.cum := rfl
@[simp] theorem State.store_lh (c : ConfigRegs) (h : Bank Word 256) (w : OperandsWritten) : (s.store c h w).lh = s.lh := rfl
@[simp] theorem State.store_wdone (c : ConfigRegs) (h : Bank Word 256) (w : OperandsWritten) : (s.store c h w).wdone = s.wdone := rfl
@[simp] theorem State.store_mem (c : ConfigRegs) (h : Bank Word 256) (w : OperandsWritten) : (s.store c h w).mem = s.mem := rfl
@[simp] theorem State.store_delay (c : ConfigRegs) (h : Bank Word 256) (w : OperandsWritten) : (s.store c h w).delay = s.delay := rfl
@[simp] theorem State.store_delays (c : ConfigRegs) (h : Bank Word 256) (w : OperandsWritten) : (s.store c h w).delays = s.delays := rfl
@[simp] theorem State.store_draws (c : ConfigRegs) (h : Bank Word 256) (w : OperandsWritten) : (s.store c h w).draws = s.draws := rfl
@[simp] theorem State.store_host (c : ConfigRegs) (h : Bank Word 256) (w : OperandsWritten) : (s.store c h w).host = s.host := rfl
@[simp] theorem State.store_replies (c : ConfigRegs) (h : Bank Word 256) (w : OperandsWritten) : (s.store c h w).replies = s.replies := rfl
@[simp] theorem State.store_duties (c : ConfigRegs) (h : Bank Word 256) (w : OperandsWritten) : (s.store c h w).duties = { s.duties with written := w } := rfl

/-! ## After a configuration register stored (R253) -/

@[simp] theorem State.storeCfg_eng (c : ConfigRegs) (w : OperandsWritten) : (s.storeCfg c w).eng = s.eng := rfl
@[simp] theorem State.storeCfg_cur (c : ConfigRegs) (w : OperandsWritten) : (s.storeCfg c w).cur = s.cur := rfl
@[simp] theorem State.storeCfg_cfg (c : ConfigRegs) (w : OperandsWritten) : (s.storeCfg c w).cfg = c := rfl
@[simp] theorem State.storeCfg_status (c : ConfigRegs) (w : OperandsWritten) : (s.storeCfg c w).status = s.status := rfl
@[simp] theorem State.storeCfg_irqEn (c : ConfigRegs) (w : OperandsWritten) : (s.storeCfg c w).irqEn = s.irqEn := rfl
@[simp] theorem State.storeCfg_hist (c : ConfigRegs) (w : OperandsWritten) : (s.storeCfg c w).hist = s.hist := rfl
@[simp] theorem State.storeCfg_cum (c : ConfigRegs) (w : OperandsWritten) : (s.storeCfg c w).cum = s.cum := rfl
@[simp] theorem State.storeCfg_lh (c : ConfigRegs) (w : OperandsWritten) : (s.storeCfg c w).lh = s.lh := rfl
@[simp] theorem State.storeCfg_wdone (c : ConfigRegs) (w : OperandsWritten) : (s.storeCfg c w).wdone = s.wdone := rfl
@[simp] theorem State.storeCfg_mem (c : ConfigRegs) (w : OperandsWritten) : (s.storeCfg c w).mem = s.mem := rfl
@[simp] theorem State.storeCfg_delay (c : ConfigRegs) (w : OperandsWritten) : (s.storeCfg c w).delay = s.delay := rfl
@[simp] theorem State.storeCfg_delays (c : ConfigRegs) (w : OperandsWritten) : (s.storeCfg c w).delays = s.delays := rfl
@[simp] theorem State.storeCfg_draws (c : ConfigRegs) (w : OperandsWritten) : (s.storeCfg c w).draws = s.draws := rfl
@[simp] theorem State.storeCfg_host (c : ConfigRegs) (w : OperandsWritten) : (s.storeCfg c w).host = s.host := rfl
@[simp] theorem State.storeCfg_replies (c : ConfigRegs) (w : OperandsWritten) : (s.storeCfg c w).replies = s.replies := rfl
@[simp] theorem State.storeCfg_duties (c : ConfigRegs) (w : OperandsWritten) : (s.storeCfg c w).duties = { s.duties with written := w } := rfl

/-! ## After an answer to the host (R250) -/

@[simp] theorem State.answer_eng (r : Reply) : (s.answer r).eng = s.eng := rfl
@[simp] theorem State.answer_cur (r : Reply) : (s.answer r).cur = s.cur := rfl
@[simp] theorem State.answer_cfg (r : Reply) : (s.answer r).cfg = s.cfg := rfl
@[simp] theorem State.answer_status (r : Reply) : (s.answer r).status = s.status := rfl
@[simp] theorem State.answer_irqEn (r : Reply) : (s.answer r).irqEn = s.irqEn := rfl
@[simp] theorem State.answer_hist (r : Reply) : (s.answer r).hist = s.hist := rfl
@[simp] theorem State.answer_cum (r : Reply) : (s.answer r).cum = s.cum := rfl
@[simp] theorem State.answer_lh (r : Reply) : (s.answer r).lh = s.lh := rfl
@[simp] theorem State.answer_wdone (r : Reply) : (s.answer r).wdone = s.wdone := rfl
@[simp] theorem State.answer_mem (r : Reply) : (s.answer r).mem = s.mem := rfl
@[simp] theorem State.answer_delay (r : Reply) : (s.answer r).delay = s.delay := rfl
@[simp] theorem State.answer_delays (r : Reply) : (s.answer r).delays = s.delays := rfl
@[simp] theorem State.answer_draws (r : Reply) : (s.answer r).draws = s.draws := rfl
@[simp] theorem State.answer_host (r : Reply) : (s.answer r).host = s.host := rfl
@[simp] theorem State.answer_replies (r : Reply) : (s.answer r).replies = r :: s.replies := rfl
@[simp] theorem State.answer_duties (r : Reply) : (s.answer r).duties = s.duties := rfl

/-! ## After the pixel driver (R150) -/

@[simp] theorem State.drivePixels_eng (f : State → Nat → Nat → Pixel) : (drivePixels f s).eng = s.eng := rfl
@[simp] theorem State.drivePixels_cur (f : State → Nat → Nat → Pixel) : (drivePixels f s).cur = s.cur := rfl
@[simp] theorem State.drivePixels_cfg (f : State → Nat → Nat → Pixel) : (drivePixels f s).cfg = s.cfg := rfl
@[simp] theorem State.drivePixels_status (f : State → Nat → Nat → Pixel) : (drivePixels f s).status = s.status := rfl
@[simp] theorem State.drivePixels_irqEn (f : State → Nat → Nat → Pixel) : (drivePixels f s).irqEn = s.irqEn := rfl
@[simp] theorem State.drivePixels_hist (f : State → Nat → Nat → Pixel) : (drivePixels f s).hist = s.hist := rfl
@[simp] theorem State.drivePixels_cum (f : State → Nat → Nat → Pixel) : (drivePixels f s).cum = s.cum := rfl
@[simp] theorem State.drivePixels_lh (f : State → Nat → Nat → Pixel) : (drivePixels f s).lh = s.lh := rfl
@[simp] theorem State.drivePixels_wdone (f : State → Nat → Nat → Pixel) : (drivePixels f s).wdone = s.wdone := rfl
@[simp] theorem State.drivePixels_mem (f : State → Nat → Nat → Pixel) : (drivePixels f s).mem = s.mem.writeBytes s.cfg.dstBase.toNat (imageBytes s.cfg.width.toNat s.cfg.height.toNat (f s)) := rfl
@[simp] theorem State.drivePixels_delay (f : State → Nat → Nat → Pixel) : (drivePixels f s).delay = s.delay := rfl
@[simp] theorem State.drivePixels_delays (f : State → Nat → Nat → Pixel) : (drivePixels f s).delays = s.delays := rfl
@[simp] theorem State.drivePixels_draws (f : State → Nat → Nat → Pixel) : (drivePixels f s).draws = s.draws := rfl
@[simp] theorem State.drivePixels_host (f : State → Nat → Nat → Pixel) : (drivePixels f s).host = s.host := rfl
@[simp] theorem State.drivePixels_replies (f : State → Nat → Nat → Pixel) : (drivePixels f s).replies = s.replies := rfl
@[simp] theorem State.drivePixels_duties (f : State → Nat → Nat → Pixel) : (drivePixels f s).duties = s.duties := rfl

/-! ## After the start of the workers (R213) -/

@[simp] theorem State.startWorkers_eng : s.startWorkers.eng = s.eng := rfl
@[simp] theorem State.startWorkers_cur : s.startWorkers.cur = s.cur := rfl
@[simp] theorem State.startWorkers_cfg : s.startWorkers.cfg = s.cfg := rfl
@[simp] theorem State.startWorkers_status : s.startWorkers.status = s.status := rfl
@[simp] theorem State.startWorkers_irqEn : s.startWorkers.irqEn = s.irqEn := rfl
@[simp] theorem State.startWorkers_hist : s.startWorkers.hist = s.hist := rfl
@[simp] theorem State.startWorkers_cum : s.startWorkers.cum = s.cum := rfl
@[simp] theorem State.startWorkers_lh : s.startWorkers.lh = .fill 4 (.fill 256 0) := rfl
@[simp] theorem State.startWorkers_wdone : s.startWorkers.wdone = .fill 4 false := rfl
@[simp] theorem State.startWorkers_mem : s.startWorkers.mem = s.mem := rfl
@[simp] theorem State.startWorkers_delay : s.startWorkers.delay = s.delay := rfl
@[simp] theorem State.startWorkers_delays : s.startWorkers.delays = s.delays := rfl
@[simp] theorem State.startWorkers_draws : s.startWorkers.draws = s.draws := rfl
@[simp] theorem State.startWorkers_host : s.startWorkers.host = s.host := rfl
@[simp] theorem State.startWorkers_replies : s.startWorkers.replies = s.replies := rfl
@[simp] theorem State.startWorkers_duties : s.startWorkers.duties = s.duties := rfl

/-! ## After one worker's run (R214, R215) -/

@[simp] theorem State.runWorker_eng (g : State → Nat → List Byte) (i : Fin 4) : (s.runWorker g i).eng = s.eng := rfl
@[simp] theorem State.runWorker_cur (g : State → Nat → List Byte) (i : Fin 4) : (s.runWorker g i).cur = s.cur := rfl
@[simp] theorem State.runWorker_cfg (g : State → Nat → List Byte) (i : Fin 4) : (s.runWorker g i).cfg = s.cfg := rfl
@[simp] theorem State.runWorker_status (g : State → Nat → List Byte) (i : Fin 4) : (s.runWorker g i).status = s.status := rfl
@[simp] theorem State.runWorker_irqEn (g : State → Nat → List Byte) (i : Fin 4) : (s.runWorker g i).irqEn = s.irqEn := rfl
@[simp] theorem State.runWorker_hist (g : State → Nat → List Byte) (i : Fin 4) : (s.runWorker g i).hist = s.hist := rfl
@[simp] theorem State.runWorker_cum (g : State → Nat → List Byte) (i : Fin 4) : (s.runWorker g i).cum = s.cum := rfl
@[simp] theorem State.runWorker_lh (g : State → Nat → List Byte) (i : Fin 4) : (s.runWorker g i).lh = s.lh.set i.1 ((g s i.1).foldl countByte (s.lh.get i)) := rfl
@[simp] theorem State.runWorker_wdone (g : State → Nat → List Byte) (i : Fin 4) : (s.runWorker g i).wdone = s.wdone.set i.1 true := rfl
@[simp] theorem State.runWorker_mem (g : State → Nat → List Byte) (i : Fin 4) : (s.runWorker g i).mem = s.mem := rfl
@[simp] theorem State.runWorker_delay (g : State → Nat → List Byte) (i : Fin 4) : (s.runWorker g i).delay = s.delay := rfl
@[simp] theorem State.runWorker_delays (g : State → Nat → List Byte) (i : Fin 4) : (s.runWorker g i).delays = s.delays := rfl
@[simp] theorem State.runWorker_draws (g : State → Nat → List Byte) (i : Fin 4) : (s.runWorker g i).draws = s.draws := rfl
@[simp] theorem State.runWorker_host (g : State → Nat → List Byte) (i : Fin 4) : (s.runWorker g i).host = s.host := rfl
@[simp] theorem State.runWorker_replies (g : State → Nat → List Byte) (i : Fin 4) : (s.runWorker g i).replies = s.replies := rfl
@[simp] theorem State.runWorker_duties (g : State → Nat → List Byte) (i : Fin 4) : (s.runWorker g i).duties = s.duties := rfl

/-! ## After the cumulative pass (R218) -/

@[simp] theorem State.cumulate_eng : s.cumulate.eng = s.eng := rfl
@[simp] theorem State.cumulate_cur : s.cumulate.cur = s.cur := rfl
@[simp] theorem State.cumulate_cfg : s.cumulate.cfg = s.cfg := rfl
@[simp] theorem State.cumulate_status : s.cumulate.status = s.status := rfl
@[simp] theorem State.cumulate_irqEn : s.cumulate.irqEn = s.irqEn := rfl
@[simp] theorem State.cumulate_hist : s.cumulate.hist = s.hist := rfl
@[simp] theorem State.cumulate_cum : s.cumulate.cum = ⟨runningSums 0 s.hist.cells, by rw [runningSums_length, s.hist.size]⟩ := rfl
@[simp] theorem State.cumulate_lh : s.cumulate.lh = s.lh := rfl
@[simp] theorem State.cumulate_wdone : s.cumulate.wdone = s.wdone := rfl
@[simp] theorem State.cumulate_mem : s.cumulate.mem = s.mem := rfl
@[simp] theorem State.cumulate_delay : s.cumulate.delay = s.delay := rfl
@[simp] theorem State.cumulate_delays : s.cumulate.delays = s.delays := rfl
@[simp] theorem State.cumulate_draws : s.cumulate.draws = s.draws := rfl
@[simp] theorem State.cumulate_host : s.cumulate.host = s.host := rfl
@[simp] theorem State.cumulate_replies : s.cumulate.replies = s.replies := rfl
@[simp] theorem State.cumulate_duties : s.cumulate.duties = s.duties := rfl

/-! ## After a failed command (R277) -/

@[simp] theorem State.failed_eng (c : ErrorCode) : (s.failed c).eng = .idle := rfl
@[simp] theorem State.failed_cur (c : ErrorCode) : (s.failed c).cur = s.cur := rfl
@[simp] theorem State.failed_cfg (c : ErrorCode) : (s.failed c).cfg = s.cfg := rfl
@[simp] theorem State.failed_status (c : ErrorCode) : (s.failed c).status = ⟨true, true, s.status.busywr, c⟩ := rfl
@[simp] theorem State.failed_irqEn (c : ErrorCode) : (s.failed c).irqEn = s.irqEn := rfl
@[simp] theorem State.failed_hist (c : ErrorCode) : (s.failed c).hist = s.hist := rfl
@[simp] theorem State.failed_cum (c : ErrorCode) : (s.failed c).cum = s.cum := rfl
@[simp] theorem State.failed_lh (c : ErrorCode) : (s.failed c).lh = s.lh := rfl
@[simp] theorem State.failed_wdone (c : ErrorCode) : (s.failed c).wdone = s.wdone := rfl
@[simp] theorem State.failed_mem (c : ErrorCode) : (s.failed c).mem = s.mem := rfl
@[simp] theorem State.failed_delay (c : ErrorCode) : (s.failed c).delay = s.delay := rfl
@[simp] theorem State.failed_delays (c : ErrorCode) : (s.failed c).delays = s.delays := rfl
@[simp] theorem State.failed_draws (c : ErrorCode) : (s.failed c).draws = s.draws := rfl
@[simp] theorem State.failed_host (c : ErrorCode) : (s.failed c).host = s.host := rfl
@[simp] theorem State.failed_replies (c : ErrorCode) : (s.failed c).replies = s.replies := rfl
@[simp] theorem State.failed_duties (c : ErrorCode) : (s.failed c).duties = s.duties := rfl

/-! ## After a finished pixel command (R276) -/

@[simp] theorem State.finished_eng (m : Memory) : (s.finished m).eng = .idle := rfl
@[simp] theorem State.finished_cur (m : Memory) : (s.finished m).cur = s.cur := rfl
@[simp] theorem State.finished_cfg (m : Memory) : (s.finished m).cfg = s.cfg := rfl
@[simp] theorem State.finished_status (m : Memory) : (s.finished m).status = ⟨true, false, s.status.busywr, .ok⟩ := rfl
@[simp] theorem State.finished_irqEn (m : Memory) : (s.finished m).irqEn = s.irqEn := rfl
@[simp] theorem State.finished_hist (m : Memory) : (s.finished m).hist = s.hist := rfl
@[simp] theorem State.finished_cum (m : Memory) : (s.finished m).cum = s.cum := rfl
@[simp] theorem State.finished_lh (m : Memory) : (s.finished m).lh = s.lh := rfl
@[simp] theorem State.finished_wdone (m : Memory) : (s.finished m).wdone = s.wdone := rfl
@[simp] theorem State.finished_mem (m : Memory) : (s.finished m).mem = m := rfl
@[simp] theorem State.finished_delay (m : Memory) : (s.finished m).delay = s.delay := rfl
@[simp] theorem State.finished_delays (m : Memory) : (s.finished m).delays = s.delays := rfl
@[simp] theorem State.finished_draws (m : Memory) : (s.finished m).draws = s.draws := rfl
@[simp] theorem State.finished_host (m : Memory) : (s.finished m).host = s.host := rfl
@[simp] theorem State.finished_replies (m : Memory) : (s.finished m).replies = s.replies := rfl
@[simp] theorem State.finished_duties (m : Memory) : (s.finished m).duties = s.duties := rfl

/-! ## After a model step of the completion delay (R315) -/

@[simp] theorem State.tick_eng : s.tick.eng = s.eng := by unfold State.tick; split <;> rfl
@[simp] theorem State.tick_cur : s.tick.cur = s.cur := by unfold State.tick; split <;> rfl
@[simp] theorem State.tick_cfg : s.tick.cfg = s.cfg := by unfold State.tick; split <;> rfl
@[simp] theorem State.tick_status : s.tick.status = s.status := by unfold State.tick; split <;> rfl
@[simp] theorem State.tick_irqEn : s.tick.irqEn = s.irqEn := by unfold State.tick; split <;> rfl
@[simp] theorem State.tick_hist : s.tick.hist = s.hist := by unfold State.tick; split <;> rfl
@[simp] theorem State.tick_cum : s.tick.cum = s.cum := by unfold State.tick; split <;> rfl
@[simp] theorem State.tick_lh : s.tick.lh = s.lh := by unfold State.tick; split <;> rfl
@[simp] theorem State.tick_wdone : s.tick.wdone = s.wdone := by unfold State.tick; split <;> rfl
@[simp] theorem State.tick_mem : s.tick.mem = s.mem := by unfold State.tick; split <;> rfl
@[simp] theorem State.tick_delays : s.tick.delays = s.delays := by unfold State.tick; split <;> rfl
@[simp] theorem State.tick_draws : s.tick.draws = s.draws := by unfold State.tick; split <;> rfl
@[simp] theorem State.tick_host : s.tick.host = s.host := by unfold State.tick; split <;> rfl
@[simp] theorem State.tick_replies : s.tick.replies = s.replies := by unfold State.tick; split <;> rfl
@[simp] theorem State.tick_duties : s.tick.duties = s.duties := by unfold State.tick; split <;> rfl

/-! ## After the barrier and merge (R216) -/

@[simp] theorem State.merge_eng : s.merge.eng = s.eng := by unfold State.merge; split <;> rfl
@[simp] theorem State.merge_cur : s.merge.cur = s.cur := by unfold State.merge; split <;> rfl
@[simp] theorem State.merge_cfg : s.merge.cfg = s.cfg := by unfold State.merge; split <;> rfl
@[simp] theorem State.merge_status : s.merge.status = s.status := by unfold State.merge; split <;> rfl
@[simp] theorem State.merge_irqEn : s.merge.irqEn = s.irqEn := by unfold State.merge; split <;> rfl
@[simp] theorem State.merge_cum : s.merge.cum = s.cum := by unfold State.merge; split <;> rfl
@[simp] theorem State.merge_lh : s.merge.lh = s.lh := by unfold State.merge; split <;> rfl
@[simp] theorem State.merge_wdone : s.merge.wdone = s.wdone := by unfold State.merge; split <;> rfl
@[simp] theorem State.merge_mem : s.merge.mem = s.mem := by unfold State.merge; split <;> rfl
@[simp] theorem State.merge_delay : s.merge.delay = s.delay := by unfold State.merge; split <;> rfl
@[simp] theorem State.merge_delays : s.merge.delays = s.delays := by unfold State.merge; split <;> rfl
@[simp] theorem State.merge_draws : s.merge.draws = s.draws := by unfold State.merge; split <;> rfl
@[simp] theorem State.merge_host : s.merge.host = s.host := by unfold State.merge; split <;> rfl
@[simp] theorem State.merge_replies : s.merge.replies = s.replies := by unfold State.merge; split <;> rfl
@[simp] theorem State.merge_duties : s.merge.duties = s.duties := by unfold State.merge; split <;> rfl

end Sys2Proof.Machine
end

