-- ==== Sys2Proof/Laws/Histogram.lean ====
section
/-! SUPPORT. The histogram unit (44_histogram.md): the partition, the workers' counts, the merge and the running sum. -/

namespace Sys2Proof.Machine

variable {s : State}

/-! ## Partition -/

/-- The indices of worker `i` (R210). -/
theorem mem_sectionIndices {t i j : Nat} : j ∈ sectionIndices t i ↔ sectionStart t i ≤ j ∧ j < sectionEnd t i := by
  unfold sectionIndices
  rw [List.mem_range'_1]
  omega

/-- The four ranges, one after the other, are `0 .. t - 1` (R211). -/
theorem sections_append (t : Nat) :
    sectionIndices t 0 ++ sectionIndices t 1 ++ sectionIndices t 2 ++ sectionIndices t 3 = List.range t := by
  have hj : ∀ a b c : Nat, a ≤ b → b ≤ c → List.range' a (b - a) ++ List.range' b (c - b) = List.range' a (c - a) := by
    intro a b c h₁ h₂
    have := List.range'_append_1 (s := a) (m := b - a) (n := c - b)
    rw [show a + (b - a) = b by omega, show b - a + (c - b) = c - a by omega] at this
    exact this
  have he : ∀ i, sectionIndices t i = List.range' (min (sectionStart t i) t) (sectionEnd t i - min (sectionStart t i) t) := by
    intro i
    unfold sectionIndices
    by_cases h : sectionStart t i ≤ t
    · rw [Nat.min_eq_left h]
    · have : sectionEnd t i ≤ t := Nat.min_le_right _ _
      rw [show sectionEnd t i - sectionStart t i = 0 by omega, show sectionEnd t i - min (sectionStart t i) t = 0 by omega]
      rfl
  rw [he, he, he, he, List.range_eq_range']
  unfold sectionStart sectionEnd
  generalize hq : (t + 3) / 4 = q
  have : t ≤ 4 * q := by omega
  rw [show min (0 * q) t = 0 by omega, show min ((0 + 1) * q) t = min (1 * q) t by simp, hj _ _ _ (Nat.zero_le _) (by omega),
    show (1 + 1) * q = 2 * q by ring, hj _ _ _ (Nat.zero_le _) (by omega), show (2 + 1) * q = 3 * q by ring, hj _ _ _ (Nat.zero_le _) (by omega),
    show min ((3 + 1) * q) t = t by omega]
  rfl

/-! ## Counting -/

/-- Counting one sample (R214, R215). -/
theorem countByte_nth (h : Bank Word 256) (b : Byte) {v : Nat} (hv : v < 256) :
    (countByte h b).nth v = h.nth v + BitVec.ofNat 32 (if b.toNat = v then 1 else 0) := by
  rw [countByte, Bank.nth_set _ _ hv]
  split
  · next e => rw [e]; rfl
  · simp

/-- Counting a list of samples: each bin grows, modulo `2^32`, by the number of samples of its value. -/
theorem foldl_countByte_nth (l : List Byte) (h : Bank Word 256) {v : Nat} (hv : v < 256) :
    (l.foldl countByte h).nth v = h.nth v + BitVec.ofNat 32 (l.countP fun b => decide (b.toNat = v)) := by
  induction l generalizing h with
  | nil => simp
  | cons b l ih =>
    rw [List.foldl_cons, ih, countByte_nth _ _ hv, List.countP_cons, BitVec.add_assoc, ← BitVec.ofNat_add]
    simp only [decide_eq_true_eq]
    rw [Nat.add_comm]

/-! ## Workers -/

/-- A worker's samples depend on the registers and the data memory alone. -/
def SamplesOf (g : State → Nat → List Byte) : Prop := ∀ s t : State, s.cfg = t.cfg → s.mem = t.mem → g s = g t

theorem columnSamples_samplesOf : SamplesOf columnSamples := by
  intro s t hc hm
  funext i
  simp only [columnSamples, State.src, State.readByte, hc, hm]

theorem indexSamples_samplesOf : SamplesOf indexSamples := by
  intro s t hc hm
  funext i
  have : s.red = t.red := by funext p; simp only [State.red, State.readByte, hc, hm]
  simp only [indexSamples, this, hc]

/-- What running the workers of a list leaves, whatever their order: those in the list have counted their own samples and are done, and the
others, and everything else, are as before (R213). -/
theorem foldl_runWorker {g : State → Nat → List Byte} (hg : SamplesOf g) {order : List (Fin 4)} (hn : order.Nodup) (s : State) :
    (order.foldl (State.runWorker g) s) = { s with lh := (order.foldl (State.runWorker g) s).lh, wdone := (order.foldl (State.runWorker g) s).wdone } ∧
      ∀ w, (order.foldl (State.runWorker g) s).lh.get w = (if w ∈ order then (g s w.1).foldl countByte (s.lh.get w) else s.lh.get w) ∧
        (order.foldl (State.runWorker g) s).wdone.get w = (if w ∈ order then true else s.wdone.get w) := by
  induction order generalizing s with
  | nil => exact ⟨rfl, fun w => ⟨by simp, by simp⟩⟩
  | cons a order ih =>
    obtain ⟨ha, hn⟩ := List.nodup_cons.mp hn
    obtain ⟨h₁, h₂⟩ := ih hn (s.runWorker g a)
    refine ⟨?_, fun w => ?_⟩
    · rw [List.foldl_cons, h₁]; rfl
    · obtain ⟨h₃, h₄⟩ := h₂ w
      rw [List.foldl_cons, h₃, h₄, hg (s.runWorker g a) s rfl rfl]
      by_cases hw : w = a
      · subst hw
        simp [ha]
      · have hne : a.1 ≠ w.1 := fun h => hw (Fin.ext h.symm)
        simp [hw, Bank.get_set_ne _ _ hne]

/-- The workers leave the same state in whatever order they run (R213). -/
theorem foldl_runWorker_perm {g : State → Nat → List Byte} (hg : SamplesOf g) {l₁ l₂ : List (Fin 4)} (hp : l₁.Perm l₂) (hn : l₁.Nodup) (s : State) :
    l₁.foldl (State.runWorker g) s = l₂.foldl (State.runWorker g) s := by
  obtain ⟨e₁, h₁⟩ := foldl_runWorker hg hn s
  obtain ⟨e₂, h₂⟩ := foldl_runWorker hg (hp.nodup hn) s
  have hl : (l₁.foldl (State.runWorker g) s).lh = (l₂.foldl (State.runWorker g) s).lh :=
    Bank.ext_get fun w => by rw [(h₁ w).1, (h₂ w).1]; simp only [hp.mem_iff]
  have hd : (l₁.foldl (State.runWorker g) s).wdone = (l₂.foldl (State.runWorker g) s).wdone :=
    Bank.ext_get fun w => by rw [(h₁ w).2, (h₂ w).2]; simp only [hp.mem_iff]
  rw [e₁, e₂, hl, hd]

/-! ## The scan -/

/-- After a scan each local histogram holds the counts of its own worker's samples (R213–R215). -/
theorem scan_lh {g : State → Nat → List Byte} (hg : SamplesOf g) (w : Fin 4) :
    (s.scan g).lh.get w = (g s w.1).foldl countByte (.fill 256 0) ∧ (s.scan g).wdone.get w = true := by
  obtain ⟨_, h⟩ := foldl_runWorker hg (order := [0, 1, 2, 3]) (by decide) s.startWorkers
  have hw : w ∈ ([0, 1, 2, 3] : List (Fin 4)) := by revert w; decide
  obtain ⟨h₁, h₂⟩ := h w
  rw [if_pos hw] at h₁ h₂
  rw [State.scan, State.merge_lh, State.merge_wdone, h₁, h₂, State.startWorkers_lh, Bank.get_fill, hg s.startWorkers s rfl rfl]
  exact ⟨rfl, rfl⟩

/-- A scan changes HIST, LH and WDONE and nothing else (R227). -/
theorem scan_frame {g : State → Nat → List Byte} (hg : SamplesOf g) :
    s.scan g = { s with hist := (s.scan g).hist, lh := (s.scan g).lh, wdone := (s.scan g).wdone } := by
  have h := (foldl_runWorker hg (order := [0, 1, 2, 3]) (by decide) s.startWorkers).1
  have hm : ∀ t : State, t.merge = { t with hist := t.merge.hist } := by intro t; unfold State.merge; split <;> rfl
  rw [State.scan, hm, h]
  rfl

/-- All four workers are done when the merge comes (R216). -/
theorem scan_barrier {g : State → Nat → List Byte} (hg : SamplesOf g) (s : State) :
    ([0, 1, 2, 3].foldl (State.runWorker g) s.startWorkers).wdone.cells.all id = true := by
  have h : ([0, 1, 2, 3].foldl (State.runWorker g) s.startWorkers).wdone = .fill 4 true := by
    apply Bank.ext_get
    intro w
    rw [((foldl_runWorker hg (order := [0, 1, 2, 3]) (by decide) s.startWorkers).2 w).2]
    have hw : w ∈ ([0, 1, 2, 3] : List (Fin 4)) := by revert w; decide
    simp [hw]
  rw [h]
  rfl

/-- A scan adds to each bin, modulo `2^32`, the number of samples of its value that the four workers count (R216, R217). -/
theorem scan_hist {g : State → Nat → List Byte} (hg : SamplesOf g) {v : Nat} (hv : v < 256) :
    (s.scan g).hist.nth v =
      s.hist.nth v + BitVec.ofNat 32 ((g s 0 ++ g s 1 ++ g s 2 ++ g s 3).countP fun b => decide (b.toNat = v)) := by
  have hl : ∀ w : Fin 4, (s.scan g).lh.get w = ([0, 1, 2, 3].foldl (State.runWorker g) s.startWorkers).lh.get w := by
    intro w; rw [State.scan, State.merge_lh]
  have hh : (s.scan g).hist = addBins (addBins (addBins (addBins s.hist ((s.scan g).lh.get 0)) ((s.scan g).lh.get 1)) ((s.scan g).lh.get 2)) ((s.scan g).lh.get 3) := by
    rw [hl, hl, hl, hl, State.scan, State.merge, if_pos (scan_barrier hg s)]
    rw [(foldl_runWorker hg (order := [0, 1, 2, 3]) (by decide) s.startWorkers).1]
    rfl
  rw [hh, (scan_lh hg 0).1, (scan_lh hg 1).1, (scan_lh hg 2).1, (scan_lh hg 3).1]
  simp only [addBins, Bank.nth_map2 _ _ hv, foldl_countByte_nth _ _ hv, Bank.nth_fill_zero, zero_add, List.countP_append, BitVec.ofNat_add,
    BitVec.add_assoc]
  rfl

/-! ## What the workers sample -/

/-- The index partition samples every pixel once, in order (R215). -/
theorem indexSamples_all (s : State) :
    indexSamples s 0 ++ indexSamples s 1 ++ indexSamples s 2 ++ indexSamples s 3 = (List.range (s.cfg.width.toNat * s.cfg.height.toNat)).map s.red := by
  simp only [indexSamples, ← List.map_append, sections_append]

/-- The red sample of pixel `p` is channel 0 of the pixel at its column and row (R212). -/
theorem red_eq_src (s : State) {x y : Nat} : s.red (y * s.cfg.width.toNat + x) = s.src x y 0 := rfl

/-- A flattening of rows is a flattening of columns, reordered. -/
theorem countP_columns {α : Type} (f : Nat → Nat → α) (p : α → Bool) (w h : Nat) :
    (((List.range w).flatMap fun x => (List.range h).map fun y => f x y).countP p) =
      ((List.range h).flatMap fun y => (List.range w).map fun x => f x y).countP p := by
  induction w with
  | zero => induction h with
    | zero => rfl
    | succ h ih => simpa [List.range_succ, List.flatMap_append] using ih
  | succ w ih =>
    rw [List.range_succ, List.flatMap_append, List.countP_append, ih]
    clear ih
    induction h with
    | zero => simp
    | succ h ih =>
      simp only [List.range_succ, List.flatMap_append, List.countP_append, List.flatMap_cons, List.flatMap_nil, List.append_nil, List.map_append,
        List.map_cons, List.map_nil, List.countP_cons, List.countP_nil] at ih ⊢
      omega

/-- Linear pixel indices are rows of columns. -/
theorem range_mul_map {α : Type} (f : Nat → α) (w h : Nat) :
    (List.range (w * h)).map f = (List.range h).flatMap fun y => (List.range w).map fun x => f (y * w + x) := by
  induction h with
  | zero => simp
  | succ h ih =>
    rw [Nat.mul_succ, List.range_add, List.map_append, ih, List.range_succ, List.flatMap_append]
    simp [Nat.mul_comm, Function.comp_def]

/-- The column partition samples the same pixels as the index partition, in another order (R217). -/
theorem columnSamples_all (s : State) (p : Byte → Bool) :
    (columnSamples s 0 ++ columnSamples s 1 ++ columnSamples s 2 ++ columnSamples s 3).countP p =
      ((List.range (s.cfg.width.toNat * s.cfg.height.toNat)).map s.red).countP p := by
  simp only [columnSamples, ← List.flatMap_append, sections_append]
  rw [countP_columns, range_mul_map]
  rfl

/-- The number of samples of a value is the number of pixels whose red sample it is (R217). -/
theorem countP_red (s : State) (v : Nat) :
    ((List.range (s.cfg.width.toNat * s.cfg.height.toNat)).map s.red).countP (fun b => decide (b.toNat = v)) = s.redCount v := by
  rw [List.countP_map]
  rfl

/-- The net effect of a scan, by either partition (R217). -/
theorem scan_hist_net {g : State → Nat → List Byte} (h : g = columnSamples ∨ g = indexSamples) {v : Nat} (hv : v < 256) :
    (s.scan g).hist.nth v = s.hist.nth v + BitVec.ofNat 32 (s.redCount v) := by
  rcases h with rfl | rfl
  · rw [scan_hist columnSamples_samplesOf hv, columnSamples_all, countP_red]
  · rw [scan_hist indexSamples_samplesOf hv, indexSamples_all, countP_red]

/-! ## Running sum -/

/-- The first running sum. -/
theorem runningSums_getD_zero (acc h : Word) (hs : List Word) : (runningSums acc (h :: hs)).getD 0 0 = h + acc := rfl

/-- Each running sum is the entry plus the running sum before it (R218). -/
theorem runningSums_getD_succ (acc : Word) (hs : List Word) {k : Nat} (hk : k + 1 < hs.length) :
    (runningSums acc hs).getD (k + 1) 0 = hs.getD (k + 1) 0 + (runningSums acc hs).getD k 0 := by
  induction hs generalizing acc k with
  | nil => simp at hk
  | cons h hs ih =>
    cases hs with
    | nil => simp at hk
    | cons h' hs =>
      cases k with
      | zero => rfl
      | succ k => exact ih (h + acc) (by simpa using hk)

/-- CUM at bin 0 (R218). -/
theorem cumulate_cum_zero (s : State) : s.cumulate.cum.nth 0 = s.hist.nth 0 := by
  rw [State.cumulate_cum]
  show (runningSums 0 s.hist.cells).getD 0 0 = s.hist.cells.getD 0 0
  generalize s.hist.cells = l
  cases l with
  | nil => rfl
  | cons h hs => rw [runningSums_getD_zero]; simp

/-- CUM at a later bin (R218). -/
theorem cumulate_cum_succ (s : State) {k : Nat} (hk : k + 1 < 256) :
    s.cumulate.cum.nth (k + 1) = s.hist.nth (k + 1) + s.cumulate.cum.nth k := by
  rw [State.cumulate_cum]
  exact runningSums_getD_succ 0 s.hist.cells (by rw [s.hist.size]; exact hk)

end Sys2Proof.Machine
end

