-- ==== Sys2Proof/Laws/PerInstr.lean ====
section
/-! SUPPORT. A law of each command as syntax. -/

namespace Sys2Proof.Laws.EncodeReserved

/-- R128, R132: the command word sets no reserved bit, and its OP is the command's own. -/
def Statement (i : Instr) : Prop := i.wellFormed = true → encode i &&& 0xFFFFF0C0 = 0 ∧ (encode i).setWidth 6 = opcode i

/-- Whatever the GC field, `enc` sets no reserved bit and holds the OP. -/
theorem enc_fields (op : BitVec 6) (n : BitVec 4) : enc op n &&& 0xFFFFF0C0 = 0 ∧ (enc op n).setWidth 6 = op := by
  revert op n; decide +kernel

theorem nop : Statement .nop := fun _ => enc_fields _ _

theorem convMean3 : Statement .convMean3 := fun _ => enc_fields _ _

theorem convGauss3 : Statement .convGauss3 := fun _ => enc_fields _ _

theorem convGauss5 : Statement .convGauss5 := fun _ => enc_fields _ _

theorem convCustom : Statement .convCustom := fun _ => enc_fields _ _

theorem median3 : Statement .median3 := fun _ => enc_fields _ _

theorem variation5 : Statement .variation5 := fun _ => enc_fields _ _

theorem gradMag (c : Nat) : Statement (.gradMag c) := fun _ => enc_fields _ _

theorem gradX (c : Nat) : Statement (.gradX c) := fun _ => enc_fields _ _

theorem gradY (c : Nat) : Statement (.gradY c) := fun _ => enc_fields _ _

theorem histColor : Statement .histColor := fun _ => enc_fields _ _

theorem histGray : Statement .histGray := fun _ => enc_fields _ _

theorem histCum : Statement .histCum := fun _ => enc_fields _ _

theorem histClear : Statement .histClear := fun _ => enc_fields _ _

theorem grayLuma : Statement .grayLuma := fun _ => enc_fields _ _

end Sys2Proof.Laws.EncodeReserved
end

