-- ==== Sys2Proof/Laws/Step.lean ====
section
/-! SUPPORT. What one step can do: an engine turn or a host turn, and for each what the state is afterwards. -/

namespace Sys2Proof.Machine

variable {s t : State}

/-- The engine's turn (R258). -/
theorem step_engine (hb : s.eng = .busy) (hd : s.delay = 0) : step s = engineStep s := by
  unfold step
  rw [hb, hd]
  rfl

/-- The host's turn. -/
theorem step_host (h : s.hostTurn) : step s = hostStep s := by
  unfold step
  rcases h with h | h
  · rw [h]
  · cases hd : s.delay with
    | zero => exact absurd hd h
    | succ n => cases s.eng <;> rfl

/-- A step is the engine's turn or the host's. -/
theorem turn_cases (s : State) : (s.eng = .busy ∧ s.delay = 0) ∨ s.hostTurn := by
  unfold State.hostTurn
  cases s.eng with
  | idle => exact .inr (.inl rfl)
  | busy =>
    by_cases h : s.delay = 0
    · exact .inl ⟨rfl, h⟩
    · exact .inr (.inr h)

/-- A model step of the completion delay, with the host's queue at `rest`. -/
theorem tick_passed (rest : List HostAct) : { s.tick with host := rest } = s.passed rest := by
  unfold State.tick State.passed
  cases h : s.eng <;> simp [h]

/-- The host's turn with an action on its queue (R250). -/
theorem step_host_cons {a : HostAct} {rest : List HostAct} (h : s.hostTurn) (hq : s.host = a :: rest) : step s = hostAct a (s.passed rest) := by
  rw [step_host h, hostStep, hq, ← tick_passed]

/-- The host's turn with an empty queue (R315). -/
theorem step_host_nil (h : s.hostTurn) (hq : s.host = []) : step s = .next (s.passed []) := by
  have e : s.tick = { s.tick with host := s.tick.host } := rfl
  rw [step_host h, hostStep, hq, ← tick_passed]
  dsimp only
  rw [e, State.tick_host, hq]

/-- The engine's turn ends in the failed state of an illegal word, or in the meaning of the decoded command. -/
theorem engineStep_cases (h : engineStep s = .next t) :
    (∃ e, decode s.cur = .error e ∧ t = s.terminate e) ∨ ∃ i, decode s.cur = .ok i ∧ exec i s = .next t := by
  unfold engineStep fetch at h
  split at h
  · next i hd => exact .inr ⟨i, hd, h⟩
  · next e hd => exact .inl ⟨e, hd, by injection h with h; exact h.symm⟩

/-- The only code a word is refused with (R126). -/
theorem decode_error {w : Word} {e : ErrorCode} (h : decode w = .error e) : e = .illegalCommand := by
  unfold decode at h
  split at h
  · injection h with h; exact h.symm
  · split at h <;> first | (injection h with h; exact h.symm) | cases h

/-- The state an engine turn leaves is IDLE and DONE, with the registers and the host's side as they were (R60, R63, R276). -/
theorem exec_frame {i : Instr} (h : exec i s = .next t) :
    t.eng = .idle ∧ t.status.done = true ∧ t.status.busywr = s.status.busywr ∧ (t.status.err = true ↔ t.status.errcode ≠ .ok) ∧
      t.cfg = s.cfg ∧ t.cur = s.cur ∧ t.irqEn = s.irqEn ∧ t.delay = s.delay ∧ t.delays = s.delays ∧ t.draws = s.draws ∧ t.host = s.host ∧
      t.replies = s.replies ∧ t.duties = s.duties := by
  obtain ⟨e, _, he, rfl⟩ | ⟨_, rfl⟩ := exec_cases h
  · simp [he]
  · have hf : ∀ i : Instr, (effectOf i s).status.busywr = s.status.busywr ∧ (effectOf i s).cfg = s.cfg ∧ (effectOf i s).cur = s.cur ∧
        (effectOf i s).irqEn = s.irqEn ∧ (effectOf i s).delay = s.delay ∧ (effectOf i s).delays = s.delays ∧
        (effectOf i s).draws = s.draws ∧ (effectOf i s).host = s.host ∧ (effectOf i s).replies = s.replies ∧
        (effectOf i s).duties = s.duties := by
      intro i
      cases i <;> simp [effectOf, State.scan]
    obtain ⟨h₁, h₂, h₃, h₄, h₅, h₆, h₇, h₈, h₉, h₁₀⟩ := hf i
    simp [h₁, h₂, h₃, h₄, h₅, h₆, h₇, h₈, h₉, h₁₀]

/-- A pixel command whose buffers are valid completes: it leaves the finished state, each destination byte the driver's, and every byte outside
the destination region as it was (R150, R276, R278). -/
theorem exec_pixel {i : Instr} {f : State → Nat → Nat → Pixel} (hf : effectOf i = drivePixels f) (hc : commandClass i = .pixel)
    (hm : s.mem.wf = true) (hv : ValidPixel s.cfg) (hk : i = .convCustom → ValidKernel s.cfg) :
    ∃ t, exec i s = .next t ∧ t = s.finished t.mem ∧
      (∀ x y ch, x < s.cfg.width.toNat → y < s.cfg.height.toNat → ch < 4 → t.dstByte x y ch = (f s x y).chan ch) ∧
      ∀ a, ¬InDest s.cfg a → t.readByte a = s.readByte a := by
  have hd : s.cfg.dstBase.toNat + 4 * s.cfg.width.toNat * s.cfg.height.toNat ≤ 2 ^ 32 := by rw [← hv.1.2.2.2.1]; exact hv.2.1
  refine ⟨(drivePixels f s).terminate .ok, ?_, rfl, fun x y ch hx hy hch => drivePixels_read hm hd hx hy hch, fun a ha => ?_⟩
  · rw [exec_eq, hf, runCommand_valid ((validate_pixel hc).mpr ⟨hv, hk⟩)]
  · unfold InDest at ha
    rw [hv.1.2.2.2.1] at ha
    exact drivePixels_read_outside hm hd (by omega)

/-- A scan command whose source buffer is valid completes with its whole effect (R217, R278). -/
theorem exec_scan {i : Instr} (hc : commandClass i = .scan) (hv : ValidSource s.cfg) : exec i s = .next ((effectOf i s).terminate .ok) := by
  rw [exec_eq, runCommand_valid ((validate_scan hc).mpr hv)]

/-- A control command completes (R225, R260). -/
theorem exec_control {i : Instr} (hc : commandClass i = .control) : exec i s = .next ((effectOf i s).terminate .ok) := by
  rw [exec_eq, runCommand_valid (validate_control hc)]

/-- A command keeps memory in canonical form. -/
theorem exec_wf {i : Instr} (hm : s.mem.wf = true) (h : exec i s = .next t) : t.mem.wf = true := by
  obtain ⟨e, _, _, rfl⟩ | ⟨hv, rfl⟩ := exec_cases h
  · exact hm
  · cases hc : commandClass i with
    | pixel =>
      obtain ⟨f, hf⟩ := effectOf_pixel hc
      rw [hf]
      obtain ⟨⟨⟨_, _, _, hl, _⟩, hd, _⟩, _⟩ := (validate_pixel hc).mp hv
      exact drivePixels_wf hm (by rw [← hl]; exact hd)
    | scan => cases i <;> first | (cases hc; done) | simpa [effectOf, State.scan] using hm
    | control => cases i <;> first | (cases hc; done) | simpa [effectOf] using hm

/-- A stored write while IDLE (R253). -/
theorem whenIdle_idle {f : State → State} (h : s.eng = .idle) : s.whenIdle f = f s := by
  unfold State.whenIdle; rw [h]

/-- A dropped write while BUSY (R255). -/
theorem whenIdle_busy {f : State → State} (h : s.eng = .busy) : s.whenIdle f = s.dropWrite := by
  unfold State.whenIdle; rw [h]

/-- The registers whose writes do not depend on the engine's state (R253, R256). -/
def RegName.alwaysWritable : RegName → Bool
  | .id => true
  | .caps => true
  | .status => true
  | .irqEn => true
  | _ => false

/-- Everything a register write can do while BUSY (R255, R256). -/
theorem writeReg_busy (r : RegName) (v : Word) (hb : s.eng = .busy) :
    writeReg r v s = s ∨ writeReg r v s = s.dropWrite ∨ (r = .status ∧ writeReg r v s = s.acknowledge v) ∨
      (r = .irqEn ∧ writeReg r v s = s.setIrqEn v) := by
  cases r with
  | id => exact .inl rfl
  | caps => exact .inl rfl
  | ctrl =>
    rw [writeReg]
    split
    · exact .inr (.inl (whenIdle_busy hb))
    · exact .inl rfl
  | status => exact .inr (.inr (.inl ⟨rfl, rfl⟩))
  | irqEn => exact .inr (.inr (.inr ⟨rfl, rfl⟩))
  | _ => rw [writeReg, whenIdle_busy hb]; exact .inr (.inl rfl)

/-- Everything a register write can do while IDLE: start a command, or leave ENG, CUR and the model's own fields but for
the duties as they are (R253, R258). -/
theorem writeReg_idle (r : RegName) (v : Word) (hi : s.eng = .idle) :
    (r = .ctrl ∧ v.getLsbD 0 = true ∧ writeReg r v s = s.acceptStart) ∨
      (writeReg r v s = { s with
          cfg := (writeReg r v s).cfg, status := (writeReg r v s).status, irqEn := (writeReg r v s).irqEn, hist := (writeReg r v s).hist, cum := (writeReg r v s).cum,
          duties := (writeReg r v s).duties } ∧
        ((writeReg r v s).status = s.status ∨ (r = .status ∧ writeReg r v s = s.acknowledge v))) := by
  cases r with
  | ctrl =>
    rw [writeReg]
    split
    · next hv => exact .inl ⟨rfl, hv, whenIdle_idle hi⟩
    · exact .inr ⟨rfl, .inl rfl⟩
  | status => exact .inr ⟨rfl, .inr ⟨rfl, rfl⟩⟩
  | id => exact .inr ⟨rfl, .inl rfl⟩
  | caps => exact .inr ⟨rfl, .inl rfl⟩
  | irqEn => exact .inr ⟨rfl, .inl rfl⟩
  | _ => rw [writeReg, whenIdle_idle hi]; exact .inr ⟨rfl, .inl rfl⟩

/-- A write transaction is a register write, or nothing, and an answer (R250, R251, R49). -/
theorem portWrite_cases (off : BitVec 12) (size : Nat) (v : Word) (s : State) :
    (∃ r, size = 32 ∧ regAt off = some r ∧ off.toNat % 4 = 0 ∧ portWrite off size v s = (writeReg r v s).answer (.regWrote .okay)) ∨
      ∃ resp, portWrite off size v s = s.answer (.regWrote resp) := by
  unfold portWrite
  split
  · next hl =>
    simp only [legalAccess, Bool.and_eq_true, decide_eq_true_eq] at hl
    cases hr : regAt off with
    | none => exact .inr ⟨_, rfl⟩
    | some r => exact .inl ⟨r, hl.1, rfl, hl.2, by simp [portResp, legalAccess, hl]⟩
  · exact .inr ⟨_, rfl⟩

/-- A read transaction is an answer and one draw number (R250, R252). -/
theorem portRead_eq (off : BitVec 12) (size : Nat) (s : State) :
    portRead off size s = { s with replies := .regRead (portResp off size) (portReadData off size s) :: s.replies, draws := s.draws + 1 } := rfl

/-- The register at a register's offset is that register (R33). -/
theorem regAt_regOffset (r : RegName) : regAt (BitVec.ofNat 12 (regOffset r)) = some r := by
  cases r with
  | kw k => revert k; decide
  | hist i => revert i; decide +kernel
  | cum i => revert i; decide +kernel
  | _ => rfl

/-- No register is at an unmapped offset (R49). -/
theorem regAt_unmapped {off : BitVec 12} (h : UnmappedOffset off) : regAt off = none := by
  unfold UnmappedOffset at h
  unfold regAt
  rw [dif_neg (by omega), dif_neg (by omega), dif_neg (by omega)]
  generalize off.toNat = n at h ⊢
  unfold controlReg
  split <;> first | rfl | omega

/-- A register of the first block has no other offset (R33). -/
theorem regAt_low {off : BitVec 12} {r : RegName} (h : regAt off = some r) (hr : ∀ n, controlReg n = some r → n = regOffset r)
    (hk : (∀ k, r ≠ .kw k) ∧ (∀ i, r ≠ .hist i) ∧ ∀ i, r ≠ .cum i) : off.toNat = regOffset r := by
  unfold regAt at h
  split at h
  · injection h with h; exact absurd h.symm (hk.1 _)
  · split at h
    · injection h with h; exact absurd h.symm (hk.2.1 _)
    · split at h
      · injection h with h; exact absurd h.symm (hk.2.2 _)
      · exact hr _ h

/-- The only offset of CTRL (R33). -/
theorem regAt_ctrl {off : BitVec 12} (h : regAt off = some .ctrl) : off = 0x008 := by
  apply BitVec.eq_of_toNat_eq
  refine regAt_low h (fun n hn => ?_) ⟨nofun, nofun, nofun⟩
  unfold controlReg at hn
  split at hn <;> first | rfl | cases hn

/-- The only offset of STATUS (R33). -/
theorem regAt_status {off : BitVec 12} (h : regAt off = some .status) : off = 0x00C := by
  apply BitVec.eq_of_toNat_eq
  refine regAt_low h (fun n hn => ?_) ⟨nofun, nofun, nofun⟩
  unfold controlReg at hn
  split at hn <;> first | rfl | cases hn

/-- A register is one that takes writes whatever the engine does, or CTRL, or at an operand's offset (R255, R256). -/
theorem regAt_kinds {off : BitVec 12} {r : RegName} (h : regAt off = some r) (ha : off.toNat % 4 = 0) :
    r.alwaysWritable = true ∨ r = .ctrl ∨ OperandOffset off := by
  unfold regAt at h
  unfold OperandOffset
  split at h
  · omega
  · split at h
    · omega
    · split at h
      · omega
      · generalize off.toNat = n at h ha ⊢
        unfold controlReg at h
        split at h <;> first | (cases h; done) | (injection h with h; subst h; simp [RegName.alwaysWritable])

/-! ## The running command, hazards and reset -/

/-- A command runs exactly while BUSY with a word that decodes. -/
theorem running_eq_some {i : Instr} : s.running = some i ↔ s.eng = .busy ∧ decode s.cur = .ok i := by
  unfold State.running fetch
  cases s.eng <;> cases decode s.cur <;> simp

/-- The class of the running command. -/
theorem runningClass_eq_some {c : CmdClass} : s.runningClass = some c ↔ ∃ i, s.eng = .busy ∧ decode s.cur = .ok i ∧ commandClass i = c := by
  unfold State.runningClass
  simp only [Option.map_eq_some_iff, running_eq_some, and_assoc]

/-- When a destination byte is guarded (R310). -/
theorem guardsDest_iff {a : Nat} : s.guardsDest a = true ↔ s.runningClass = some .pixel ∧ InDest s.cfg a := by
  simp [State.guardsDest, inRegion, InDest]

/-- When a source byte is guarded (R310). -/
theorem guardsSource_iff {a : Nat} :
    s.guardsSource a = true ↔ (s.runningClass = some .pixel ∨ s.runningClass = some .scan) ∧ InSource s.cfg a := by
  simp [State.guardsSource, inRegion, InSource]

/-- Which bytes a reset leaves unspecified: those of the destination region that exist and are not in the source region (R301, R90). -/
theorem mem_abandonedAddrs {a : Nat} : a ∈ s.abandonedAddrs ↔ InDest s.cfg a ∧ a < 2 ^ 32 ∧ ¬InSource s.cfg a := by
  simp only [State.abandonedAddrs, inRegion, InDest, InSource, Config.addrWidth, List.mem_filter, List.mem_map, List.mem_range, Bool.and_eq_true,
    Bool.not_eq_true', Bool.and_eq_false_iff, decide_eq_true_eq, decide_eq_false_iff_not]
  constructor
  · rintro ⟨⟨k, hk, rfl⟩, h⟩
    omega
  · rintro ⟨hd, h⟩
    exact ⟨⟨a - s.cfg.dstBase.toNat, by omega, by omega⟩, by omega⟩

/-- What each byte holds after a reset: a free value where a running pixel command leaves it unspecified, and what it held elsewhere (R301). -/
theorem read_abandonedMem (hm : s.mem.wf = true) (a : Nat) :
    Memory.read a (abandonedMem s) =
      if s.runningClass = some .pixel ∧ a ∈ s.abandonedAddrs then Config.abandonedByte s.draws a else s.readByte a := by
  unfold abandonedMem
  split
  · next h => simp only [h, true_and]; exact Memory.read_writeEach hm (fun _ hx => (mem_abandonedAddrs.mp hx).2.1) a
  · next h => rw [if_neg fun hp => h hp.1]; rfl

/-- A reset keeps memory canonical, and every byte outside the destination region of a pixel command as it was (R300, R301). -/
theorem abandonedMem_read (hm : s.mem.wf = true) :
    (abandonedMem s).wf = true ∧
      ∀ a, InSource s.cfg a ∨ ¬InDest s.cfg a ∨ (∀ i, decode s.cur = .ok i → commandClass i ≠ .pixel) →
        Memory.read a (abandonedMem s) = s.readByte a := by
  constructor
  · unfold abandonedMem
    split
    · exact Memory.writeEach_wf hm fun _ hx => (mem_abandonedAddrs.mp hx).2.1
    · exact hm
  · intro a ha
    rw [read_abandonedMem hm, if_neg]
    rintro ⟨hp, hx⟩
    obtain ⟨hd, _, hs⟩ := mem_abandonedAddrs.mp hx
    obtain ⟨i, _, hi, hc⟩ := runningClass_eq_some.mp hp
    rcases ha with h | h | h
    · exact hs h
    · exact h hd
    · exact h i hi hc

/-! ## The duties of the host (R262) -/

/-- The shared operands are written exactly where each is. -/
theorem written_source (w : OperandsWritten) : w.source = true ↔ w.Source := by
  simp [OperandsWritten.source, OperandsWritten.Source, and_assoc]

/-- The first `n` registers of a bank of flags are set exactly where each is. -/
theorem all_take_cells {m : Nat} (b : Bank Bool m) (n : Nat) : (b.cells.take n).all id = true ↔ ∀ k : Fin m, k.1 < n → b.get k = true := by
  simp only [List.all_eq_true, List.mem_take_iff_getElem, id, Bank.get]
  constructor
  · intro h k hk
    exact h _ ⟨k.1, by rw [b.size]; omega, rfl⟩
  · rintro h _ ⟨k, hk, rfl⟩
    rw [b.size] at hk
    exact h ⟨k, by omega⟩ (by simp; omega)

/-- The registers of a bank of flags are all set exactly where each is. -/
theorem all_cells {m : Nat} (b : Bank Bool m) : b.cells.all id = true ↔ ∀ k : Fin m, b.get k = true := by
  rw [← List.take_length (l := b.cells), all_take_cells, b.size]
  exact ⟨fun h k => h k k.2, fun h k _ => h k⟩

/-- What CONV_CUSTOM reads besides the pixel operands is written exactly where `State.KernelWritten` says. -/
theorem kernelWritten_iff : s.kernelWritten = true ↔ s.KernelWritten := by
  simp only [State.kernelWritten, State.KernelWritten, Bool.or_eq_true, Bool.and_eq_true, decide_eq_true_eq, all_take_cells, Config.kmaxRadius]

/-- A START lacks no operand exactly where the host has written every operand of the command in CMD (R124, R262). -/
theorem lacksOperand_false : s.lacksOperand = false ↔ s.Prepared := by
  unfold State.lacksOperand State.Prepared
  cases decode s.cfg.cmd with
  | error e => simp
  | ok i =>
    simp only [Except.ok.injEq, forall_eq', Bool.not_eq_false', State.operandsWritten]
    cases hc : commandClass i with
    | control =>
      have : i ≠ .convCustom := by rintro rfl; cases hc
      simp [this]
    | scan =>
      have : i ≠ .convCustom := by rintro rfl; cases hc
      rw [Bool.and_eq_true, written_source, all_cells]
      simp [this, OperandsWritten.Bins]
    | pixel => by_cases h : i = .convCustom <;> simp [h, written_source, kernelWritten_iff, and_assoc]

/-- A write transaction is accepted as a START exactly while IDLE, at CTRL, with START set (R258). -/
theorem startsCommand_iff {off : BitVec 12} {size : Nat} {v : Word} :
    s.startsCommand off size v = true ↔ s.eng = .idle ∧ size = 32 ∧ off = 0x008 ∧ v.getLsbD 0 = true := by
  simp only [State.startsCommand, legalAccess, Bool.and_eq_true, decide_eq_true_eq]
  constructor
  · rintro ⟨⟨⟨h₁, h₂, _⟩, h₃⟩, h₄⟩
    exact ⟨h₁, h₂, regAt_ctrl h₃, h₄⟩
  · rintro ⟨h₁, h₂, rfl, h₄⟩
    exact ⟨⟨⟨h₁, h₂, by decide⟩, rfl⟩, h₄⟩

/-- A register write is the transaction, or the fault of a START of a command whose operands are not all written (R258, R262). -/
theorem hostRegWrite_cases (off : BitVec 12) (size : Nat) (v : Word) (s : State) :
    (hostRegWrite off size v s = .next (portWrite off size v s) ∧
        (s.eng = .idle → size = 32 → off = 0x008 → v.getLsbD 0 = true → s.Prepared)) ∨
      (hostRegWrite off size v s = .fault (.hazard .operandUnwritten) ∧ s.eng = .idle ∧ size = 32 ∧ off = 0x008 ∧ v.getLsbD 0 = true ∧ ¬s.Prepared) := by
  rw [hostRegWrite, ← lacksOperand_false]
  cases hs : s.startsCommand off size v with
  | false =>
    refine .inl ⟨rfl, fun h₁ h₂ h₃ h₄ => ?_⟩
    rw [startsCommand_iff.mpr ⟨h₁, h₂, h₃, h₄⟩] at hs
    cases hs
  | true =>
    obtain ⟨h₁, h₂, h₃, h₄⟩ := startsCommand_iff.mp hs
    cases hl : s.lacksOperand with
    | false => exact .inl ⟨rfl, fun _ _ _ _ => rfl⟩
    | true => exact .inr ⟨rfl, h₁, h₂, h₃, h₄, by simp⟩

/-- A register write that is no accepted START, or starts a command whose operands are written, is the transaction (R253–R256, R258). -/
theorem hostRegWrite_next {off : BitVec 12} {size : Nat} {v : Word}
    (h : s.eng = .idle → size = 32 → off = 0x008 → v.getLsbD 0 = true → s.Prepared) :
    hostRegWrite off size v s = .next (portWrite off size v s) := by
  obtain ⟨h₁, _⟩ | ⟨_, h₁, h₂, h₃, h₄, h₅⟩ := hostRegWrite_cases off size v s
  · exact h₁
  · exact absurd (h h₁ h₂ h₃ h₄) h₅

/-- What an action of the host does to the record of its duties: a reset forgets it, a register write does its own part, and every other
action leaves it (R262, R303). -/
def HostAct.duties (a : HostAct) (s : State) : HostDuties :=
  match a with
  | .reset => .none
  | .regWrite off size v => (portWrite off size v s).duties
  | _ => s.duties

/-- Every action of the host does to the record of its duties what `HostAct.duties` says. -/
theorem hostAct_duties {a : HostAct} (h : hostAct a s = .next t) : t.duties = a.duties s := by
  cases a with
  | regWrite off size v =>
    rw [hostAct] at h
    obtain ⟨e, _⟩ | ⟨e, _⟩ := hostRegWrite_cases off size v s
    · rw [e] at h; injection h with h; subst h; rfl
    · rw [e] at h; cases h
  | memRead a =>
    rw [hostAct, hostMemRead] at h
    split at h
    · cases h
    · injection h with h; subst h; rfl
  | memWrite a v =>
    rw [hostAct, hostMemWrite] at h
    split at h
    · cases h
    · split at h
      · cases h
      · injection h with h; subst h; rfl
  | waitIrq =>
    rw [hostAct, hostSleep] at h
    split at h
    · cases h
    · injection h with h; subst h; split <;> rfl
  | waitDone => rw [hostAct] at h; injection h with h; subst h; split <;> rfl
  | regRead off size => rw [hostAct] at h; injection h with h; subst h; rfl
  | reset => rw [hostAct] at h; injection h with h; subst h; rfl

/-- A write of 1 to CTRL while IDLE is an acceptance and an answer (R258). -/
theorem portWrite_start {v : Word} (hi : s.eng = .idle) (hv : v.getLsbD 0 = true) :
    portWrite 0x008 32 v s = s.acceptStart.answer (.regWrote .okay) := by
  have : portWrite 0x008 32 v s = (writeReg .ctrl v s).answer (.regWrote .okay) := rfl
  rw [this, writeReg, if_pos hv, whenIdle_idle hi]

/-- A register write that is no accepted START clears what is owed where it writes STATUS, and nowhere else (R37, R262). -/
theorem portWrite_owed {off : BitVec 12} {size : Nat} {v : Word} (h : ¬(s.eng = .idle ∧ off = 0x008 ∧ size = 32 ∧ v.getLsbD 0 = true)) :
    (portWrite off size v s).duties.doneOwed =
        (if off = 0x00C ∧ size = 32 then s.duties.doneOwed && !v.getLsbD 1 else s.duties.doneOwed) ∧
      (portWrite off size v s).duties.errOwed =
        (if off = 0x00C ∧ size = 32 then s.duties.errOwed && !v.getLsbD 2 else s.duties.errOwed) := by
  by_cases hs : off = 0x00C ∧ size = 32
  · rw [if_pos hs, if_pos hs]
    obtain ⟨rfl, rfl⟩ := hs
    exact ⟨rfl, rfl⟩
  rw [if_neg hs, if_neg hs]
  obtain ⟨r, rfl, hr, _, e⟩ | ⟨resp, e⟩ := portWrite_cases off size v s
  · rw [e]
    have hs : r ≠ .status := by rintro rfl; exact hs ⟨regAt_status hr, rfl⟩
    cases hi : s.eng with
    | busy => obtain e | e | ⟨rfl, e⟩ | ⟨_, e⟩ := writeReg_busy r v hi <;> first | exact absurd rfl hs | (rw [e]; exact ⟨rfl, rfl⟩)
    | idle =>
      cases r with
      | ctrl =>
        have hv : ¬v.getLsbD 0 = true := fun hv => h ⟨hi, regAt_ctrl hr, rfl, hv⟩
        rw [writeReg, if_neg hv]
        exact ⟨rfl, rfl⟩
      | status => exact absurd rfl hs
      | id => exact ⟨rfl, rfl⟩
      | caps => exact ⟨rfl, rfl⟩
      | irqEn => exact ⟨rfl, rfl⟩
      | _ => rw [writeReg, whenIdle_idle hi]; exact ⟨rfl, rfl⟩
  · rw [e]; exact ⟨rfl, rfl⟩

/-- A register write marks an operand as written exactly where it writes that operand's register while IDLE (R253, R262). `get` picks the
mark, `r₀` is the register, and `hw` says which register write sets the mark; HIST_CLEAR's START, which sets others, is `portWrite_start`. -/
theorem portWrite_written {off : BitVec 12} {size : Nat} {v : Word} {r₀ : RegName} {get : OperandsWritten → Bool}
    (hw : ∀ r, regAt off = some r → s.eng = .idle → (get (writeReg r v s).duties.written = true ↔ r = r₀ ∨ get s.duties.written = true)) :
    get (portWrite off size v s).duties.written = true ↔
      get s.duties.written = true ∨ (s.eng = .idle ∧ size = 32 ∧ regAt off = some r₀ ∧ off.toNat % 4 = 0) := by
  unfold portWrite
  split
  · next h =>
    simp only [legalAccess, Bool.and_eq_true, decide_eq_true_eq] at h
    cases hr : regAt off with
    | none => simp
    | some r =>
      cases hi : s.eng with
      | idle => simp [hw r hr hi, h, or_comm]
      | busy =>
        have : (writeReg r v s).duties.written = s.duties.written := by
          obtain e | e | ⟨_, e⟩ | ⟨_, e⟩ := writeReg_busy r v hi <;> rw [e] <;> rfl
        simp [this]
  · next h =>
    simp only [legalAccess, Bool.and_eq_true, decide_eq_true_eq] at h
    simp only [State.answer_duties, iff_self_or]
    exact fun ⟨_, h₁, _, h₂⟩ => absurd ⟨h₁, h₂⟩ h

/-! ## Runs -/

/-- The engine's turn never stops the machine. -/
theorem engineStep_next (s : State) : ∃ t, engineStep s = .next t := by
  unfold engineStep
  split
  · next i _ => rw [exec_eq, runCommand]; split <;> exact ⟨_, rfl⟩
  · exact ⟨_, rfl⟩

/-- A step is never refused. -/
theorem step_fault_or_next (s : State) : (∃ r, step s = .fault r) ∨ ∃ t, step s = .next t := by
  rcases turn_cases s with ⟨hb, hd⟩ | ht
  · rw [step_engine hb hd]; exact .inr (engineStep_next s)
  · cases hh : s.host with
    | nil => rw [step_host_nil ht hh]; exact .inr ⟨_, rfl⟩
    | cons a rest =>
      rw [step_host_cons ht hh]
      cases a with
      | memRead a =>
        rw [hostAct, hostMemRead]
        split
        · exact .inl ⟨_, rfl⟩
        · exact .inr ⟨_, rfl⟩
      | memWrite a v =>
        rw [hostAct, hostMemWrite]
        split
        · exact .inl ⟨_, rfl⟩
        · split
          · exact .inl ⟨_, rfl⟩
          · exact .inr ⟨_, rfl⟩
      | regWrite off size v =>
        obtain ⟨h, _⟩ | ⟨h, _⟩ := hostRegWrite_cases off size v (s.passed rest)
        · exact .inr ⟨_, h⟩
        · exact .inl ⟨_, h⟩
      | waitIrq =>
        rw [hostAct, hostSleep]
        split
        · exact .inl ⟨_, rfl⟩
        · exact .inr ⟨_, rfl⟩
      | _ => exact .inr ⟨_, rfl⟩

/-- A run whose first step goes on. -/
theorem run_next {n : Nat} (h : step s = .next t) : Sys2Proof.core.run (n + 1) s = Sys2Proof.core.run n t := by
  have h : Sys2Proof.core.step s = .next t := h
  simp only [Host.Core.run, h]

/-- A run whose first step is a fault. -/
theorem run_fault {n : Nat} {r : Fault} (h : step s = .fault r) : Sys2Proof.core.run (n + 1) s = .fault r := by
  have h : Sys2Proof.core.step s = .fault r := h
  simp only [Host.Core.run, h]

end Sys2Proof.Machine
end

