-- ==== Sys2Proof/Tests/Slice0.lean ====
section
/-! SUPPORT. Tests. Every expected result stands in the spec: the command words of 30_encoding.md R133 and the vectors V1 to V82 of
95_test_vectors.md. A witness for each statement with hypotheses follows them. -/

namespace Sys2Proof.Tests

open Sys2Proof Sys2Proof.Machine

set_option Elab.async false

/-! ## Encoding -/


/-- GC has four bits (R121). -/
theorem test_gradMag_constant_16_is_ill_formed : Instr.wellFormed (.gradMag 16) = false ∧ Instr.wellFormed (.gradMag 15) = true := by decide

/-- GC has four bits (R121). -/
theorem test_gradX_constant_16_is_ill_formed : Instr.wellFormed (.gradX 16) = false ∧ Instr.wellFormed (.gradX 15) = true := by decide

/-- GC has four bits (R121). -/
theorem test_gradY_constant_16_is_ill_formed : Instr.wellFormed (.gradY 16) = false ∧ Instr.wellFormed (.gradY 15) = true := by decide

/-- NOP (R122; GC 0). -/
theorem test_decode_nop : decode 0b00000000000000000000_0000_00_000000 = .ok .nop ∧ encode .nop = 0b00000000000000000000_0000_00_000000 := by decide

/-- CONV_MEAN3 (R122; GC 0). -/
theorem test_decode_convMean3 : decode 0b00000000000000000000_0000_00_000001 = .ok .convMean3 ∧ encode .convMean3 = 0b00000000000000000000_0000_00_000001 := by decide

/-- CONV_GAUSS3 (R122; GC 0). -/
theorem test_decode_convGauss3 : decode 0b00000000000000000000_0000_00_000010 = .ok .convGauss3 ∧ encode .convGauss3 = 0b00000000000000000000_0000_00_000010 := by decide

/-- CONV_GAUSS5 (R122; GC 0). -/
theorem test_decode_convGauss5 : decode 0b00000000000000000000_0000_00_000011 = .ok .convGauss5 ∧ encode .convGauss5 = 0b00000000000000000000_0000_00_000011 := by decide

/-- CONV_CUSTOM (R122; GC 0). -/
theorem test_decode_convCustom : decode 0b00000000000000000000_0000_00_000100 = .ok .convCustom ∧ encode .convCustom = 0b00000000000000000000_0000_00_000100 := by decide

/-- MEDIAN3 (R122; GC 0). -/
theorem test_decode_median3 : decode 0b00000000000000000000_0000_00_001000 = .ok .median3 ∧ encode .median3 = 0b00000000000000000000_0000_00_001000 := by decide

/-- VARIATION5 (R122; GC 0). -/
theorem test_decode_variation5 : decode 0b00000000000000000000_0000_00_001100 = .ok .variation5 ∧ encode .variation5 = 0b00000000000000000000_0000_00_001100 := by decide

/-- GRAD_MAG (R122; GC 15). -/
theorem test_decode_gradMag : decode 0b00000000000000000000_1111_00_010000 = .ok (.gradMag 15) ∧ encode (.gradMag 15) = 0b00000000000000000000_1111_00_010000 := by decide

/-- GRAD_X (R122; GC 2). -/
theorem test_decode_gradX : decode 0b00000000000000000000_0010_00_010001 = .ok (.gradX 2) ∧ encode (.gradX 2) = 0b00000000000000000000_0010_00_010001 := by decide

/-- GRAD_Y (R122; GC 1). -/
theorem test_decode_gradY : decode 0b00000000000000000000_0001_00_010010 = .ok (.gradY 1) ∧ encode (.gradY 1) = 0b00000000000000000000_0001_00_010010 := by decide

/-- HIST_COLOR (R122; GC 0). -/
theorem test_decode_histColor : decode 0b00000000000000000000_0000_00_011000 = .ok .histColor ∧ encode .histColor = 0b00000000000000000000_0000_00_011000 := by decide

/-- HIST_GRAY (R122; GC 0). -/
theorem test_decode_histGray : decode 0b00000000000000000000_0000_00_011001 = .ok .histGray ∧ encode .histGray = 0b00000000000000000000_0000_00_011001 := by decide

/-- HIST_CUM (R122; GC 0). -/
theorem test_decode_histCum : decode 0b00000000000000000000_0000_00_011010 = .ok .histCum ∧ encode .histCum = 0b00000000000000000000_0000_00_011010 := by decide

/-- HIST_CLEAR (R122; GC 0). -/
theorem test_decode_histClear : decode 0b00000000000000000000_0000_00_011011 = .ok .histClear ∧ encode .histClear = 0b00000000000000000000_0000_00_011011 := by decide

/-- GRAY_LUMA (R122; GC 0). -/
theorem test_decode_grayLuma : decode 0b00000000000000000000_0000_00_100000 = .ok .grayLuma ∧ encode .grayLuma = 0b00000000000000000000_0000_00_100000 := by decide

/-- V14. -/
theorem test_decode_ignores_gc : decode 0x00000201 = .ok .convMean3 := by decide

/-- V52, V53, V54: an unassigned OP, and each reserved field. -/
theorem test_decode_refuses : decode 0x00000005 = .error .illegalCommand ∧
    decode 0x00000041 = .error .illegalCommand ∧
    decode 0x00001001 = .error .illegalCommand ∧
    decode 0x80000000 = .error .illegalCommand ∧
    decode 0x0000003F = .error .illegalCommand := by decide

/-- R133, R128. -/
theorem test_table_word : decodeTableWord 32 0x00000210 = some (.gradMag 2) ∧ decodeTableWord 32 0x00000040 = none := by decide

/-! ## One step of each command -/

/-- A START of `cmd` accepted with no delay, on the `w` by `h` image `px` at 0x1000 with its destination at 0x2000 (95_test_vectors.md, conventions). -/
def img (cmd w h : Word) (px : List Byte) : State :=
  { State.reset with
    mem := Memory.writeBytes 0x1000 px []
    cfg := { ConfigRegs.zero with cmd := cmd, width := w, height := h, srcBase := 0x1000, srcLen := 4 * w * h, dstBase := 0x2000 } }.acceptWith 0

/-- An image of red samples; green, blue and alpha are 0. -/
def reds (l : List Byte) : List Byte := l.flatMap fun r => [r, 0, 0, 0]

/-- An image of gray pixels. -/
def grays (l : List Byte) : List Byte := l.flatMap fun v => [v, v, v, 255]

/-- The corner image. -/
def corner : List Byte := grays [0, 255, 255, 255, 255, 255, 255, 255, 255]

/-- The 7 by 7 image of V30 to V32. -/
def image7 : List Byte := reds ((List.range 49).map fun p => BitVec.ofNat 8 (100 * ((p % 7 + p / 7) % 3)))

/-- What `f` reads from the next state. -/
def after {α : Type} (f : State → α) (o : Host.Outcome State Fault Refusal) : Option α :=
  match o with
  | .next t => some (f t)
  | .fault _ => none
  | .refused _ => none

/-- Channel `c` of the first `n` destination pixels. -/
def chan (c n : Nat) (t : State) : List Nat := (List.range n).map fun k => (t.readByte (0x2000 + 4 * k + c)).toNat

/-- The first `n` destination bytes. -/
def bytes (n : Nat) (t : State) : List Nat := (List.range n).map fun k => (t.readByte (0x2000 + k)).toNat

/-- V64. -/
theorem test_nop_status : after State.statusWord (step (img 0x0 0 0 [])) = some 0x00000002 := by decide +kernel

/-- V1. -/
theorem test_convMean3_corner : after (chan 0 9) (step (img 0x1 3 3 corner)) = some [141, 198, 255, 198, 226, 255, 255, 255, 255] := by decide +kernel

/-- V6. -/
theorem test_convMean3_keeps_channels : after (bytes 4) (step (img 0x1 1 1 [10, 20, 30, 40])) = some [10, 20, 30, 40] := by decide +kernel

/-- V2. -/
theorem test_convGauss3_corner : after (chan 0 9) (step (img 0x2 3 3 corner)) = some [111, 207, 255, 207, 239, 255, 255, 255, 255] := by decide +kernel

/-- V3. -/
theorem test_convGauss5_corner : after (chan 0 9) (step (img 0x3 3 3 corner)) = some [134, 200, 244, 200, 230, 250, 244, 250, 254] := by decide +kernel

/-- The host's kernel beside `img`. -/
def customImg (r : Word) (kw : List Word) (n w h : Word) (px : List Byte) : State :=
  let s := img 0x4 w h px
  { s with cfg := { s.cfg with kradius := r, knorm := n, kw := .gen 25 fun k => kw.getD k 0 } }

/-- V7. -/
theorem test_convCustom_signed_weight : after (bytes 4) (step (customImg 0 [0xFFFFFFFD] 2 1 1 [100, 0, 200, 9])) = some [150, 0, 255, 9] := by decide +kernel

/-- V12. -/
theorem test_convCustom_radius_3 : after State.statusWord (step (customImg 3 [1] 1 1 1 [1, 2, 3, 4])) = some 0x00000306 := by decide +kernel

/-- V20. -/
theorem test_median3_ranks : after (chan 0 9) (step (img 0x8 3 3 (reds [9, 1, 8, 2, 7, 3, 6, 4, 5]))) = some [7, 7, 7, 6, 5, 5, 6, 5, 5] := by decide +kernel

/-- V24. -/
theorem test_median3_alpha : after (bytes 4) (step (img 0x8 1 1 [10, 20, 30, 40])) = some [10, 10, 10, 255] := by decide +kernel

/-- V25. -/
theorem test_variation5_three : after (chan 0 3) (step (img 0xC 3 1 (reds [10, 12, 200]))) = some [11, 12, 196] := by decide +kernel

/-- V27. -/
theorem test_variation5_close : after (chan 0 2) (step (img 0xC 2 1 (reds [100, 101]))) = some [100, 100] := by decide +kernel

/-- V15. -/
theorem test_gradMag_corner : after (chan 0 9) (step (img 0x210 3 3 corner)) = some [255, 201, 0, 201, 90, 0, 0, 0, 0] := by decide +kernel

/-- V19d. -/
theorem test_gradMag_channels_apart : after (bytes 8) (step (img 0x210 2 1 [200, 0, 0, 1, 0, 0, 0, 1])) = some [200, 0, 0, 255, 200, 0, 0, 255] := by decide +kernel

/-- V18. -/
theorem test_gradX_prewitt : after (chan 0 9) (step (img 0x111 3 3 corner)) = some [170, 170, 0, 85, 85, 0, 0, 0, 0] := by decide +kernel

/-- V19c. -/
theorem test_gradX_alpha : after (bytes 4) (step (img 0x211 1 1 [5, 5, 5, 77])) = some [0, 0, 0, 77] := by decide +kernel

/-- V17. -/
theorem test_gradY_sobel : after (chan 0 9) (step (img 0x212 3 3 corner)) = some [191, 63, 0, 191, 63, 0, 0, 0, 0] := by decide +kernel

/-- Bins 0, 100 and 200 of HIST, then of each worker's local histogram. -/
def bins (t : State) : List Nat :=
  [t.hist.nth 0, t.hist.nth 100, t.hist.nth 200].map BitVec.toNat ++
    ([0, 1, 2, 3] : List (Fin 4)).flatMap fun w => [(t.lh.get w).nth 0, (t.lh.get w).nth 100, (t.lh.get w).nth 200].map BitVec.toNat

/-- V30. -/
theorem test_histColor_7x7 : after bins (step (img 0x18 7 7 image7)) = some [17, 16, 16, 5, 5, 4, 5, 4, 5, 4, 5, 5, 3, 2, 2] := by decide +kernel

/-- V31. -/
theorem test_histGray_7x7 : after bins (step (img 0x19 7 7 image7)) = some [17, 16, 16, 5, 4, 4, 4, 5, 4, 4, 4, 5, 4, 3, 3] := by decide +kernel

/-- `img` with a value in one bin of HIST. -/
def withBin (k : Nat) (v : Word) (s : State) : State := { s with hist := s.hist.set k v }

/-- V35. -/
theorem test_histGray_wraps : after (fun t => t.hist.nth 7) (step (withBin 7 0xFFFFFFFF (img 0x19 1 1 [7, 0, 0, 0]))) = some 0 := by decide +kernel

/-- V33. -/
theorem test_histCum_sums : after (fun t => [t.cum.nth 6, t.cum.nth 7, t.cum.nth 255]) (step (img 0x1A 1 1 [7, 0, 0, 0])) = some [0, 1, 1] := by decide +kernel

/-- V36. -/
theorem test_histCum_wraps : after (fun t => [t.cum.nth 0, t.cum.nth 1, t.cum.nth 255]) (step (withBin 0 0xFFFFFFFF (img 0x1A 1 1 [1, 0, 0, 0]))) = some [0xFFFFFFFF, 0, 0] := by decide +kernel

/-- V38. -/
theorem test_histClear_runs_without_an_image : after (fun t => (t.hist.nth 7, t.statusWord)) (step (withBin 7 9 (img 0x1B 0 0 []))) = some (0, 0x00000002) := by decide +kernel

/-- V40. -/
theorem test_grayLuma_truncates : after (bytes 12) (step (img 0x20 3 1 [255, 0, 0, 1, 1, 1, 1, 0, 3, 3, 4, 0])) = some [76, 76, 76, 1, 1, 1, 1, 0, 3, 3, 3, 0] := by decide +kernel

/-! ## Errors, the register port, reset -/

/-- The base of V41 to V56 with its registers changed by `f`. -/
def errorBase (f : ConfigRegs → ConfigRegs) : State :=
  let s := img 0x1 3 3 corner
  { s with cfg := f s.cfg }

/-- V51. -/
theorem test_status_layout : after State.statusWord (step (errorBase fun c => { c with layout := 1, width := 0 })) = some 0x00000606 := by decide +kernel

/-- V44. -/
theorem test_status_length : after State.statusWord (step (errorBase fun c => { c with srcLen := 35 })) = some 0x00000106 := by decide +kernel

/-- V45. -/
theorem test_status_exact_length : after State.statusWord (step (errorBase fun c => { c with width := 0x8000, height := 0x8000, srcLen := 0 })) = some 0x00000106 := by decide +kernel

/-- V46. -/
theorem test_status_range : after State.statusWord (step (errorBase fun c => { c with srcBase := 0xFFFFFFE0 })) = some 0x00000706 := by decide +kernel

/-- V47. -/
theorem test_status_end_of_memory : after State.statusWord (step (errorBase fun c => { c with srcBase := 0xFFFFFFDC })) = some 0x00000002 := by decide +kernel

/-- V48. -/
theorem test_status_overlap : after State.statusWord (step (errorBase fun c => { c with dstBase := c.srcBase + 32 })) = some 0x00000506 := by decide +kernel

/-- V49. -/
theorem test_status_adjacent : after State.statusWord (step (errorBase fun c => { c with dstBase := c.srcBase + 36 })) = some 0x00000002 := by decide +kernel

/-- V55. -/
theorem test_illegal_before_layout : after State.statusWord (step { errorBase (fun c => { c with layout := 1 }) with cur := 0x00000005 }) = some 0x00000406 := by decide +kernel

/-- The machine after reset with actions of the host to come. -/
def idle (host : List HostAct) : State := { State.reset with host := host }

/-- `img` with a completion delay and actions of the host to come. -/
def busy (cmd w h : Word) (px : List Byte) (host : List HostAct) : State := { img cmd w h px with delay := 5, host := host }

/-- V60. -/
theorem test_read_id : after State.replies (step (idle [.regRead 0x000 32])) = some [.regRead .okay 0x494D4707] := by decide +kernel

/-- V60. -/
theorem test_read_caps : after State.replies (step (idle [.regRead 0x004 32])) = some [.regRead .okay 0x00002024] := by decide +kernel

/-- V62. -/
theorem test_read_misaligned : after State.replies (step (idle [.regRead 0x002 32])) = some [.regRead .slverr 0] := by decide +kernel

/-- V68. -/
theorem test_write_while_busy : after (fun t => (t.statusWord, t.cfg.width)) (step (busy 0x1 3 3 corner [.regWrite 0x018 32 9])) = some (0x00000009, 3) := by decide +kernel

/-- V71. -/
theorem test_status_write_keeps_the_code : after State.statusWord (step { idle [.regWrite 0x00C 32 0x4] with status := ⟨true, true, false, .illegalCommand⟩ }) = some 0x00000402 := by decide +kernel

/-- V72. -/
theorem test_start_clears : after State.statusWord (step { idle [.regWrite 0x008 32 1] with status := ⟨true, false, false, .illegalCommand⟩ }) = some 0x00000001 := by decide +kernel

/-- V67. -/
theorem test_irq_after_error : after State.irq (step { img 0x5 0 0 [] with irqEn := ⟨false, true⟩ }) = some true := by decide +kernel

/-- V66. -/
theorem test_irq_not_enabled : after State.irq (step { img 0x0 0 0 [] with irqEn := ⟨false, true⟩ }) = some false := by decide +kernel

/-- Every operand written. -/
def everything : OperandsWritten := ⟨true, true, true, true, true, true, true, .fill 25 true, .fill 256 true⟩

/-- The host is about to start the command of `s`, with the operands in `w` written. -/
def ready (s : State) (w : OperandsWritten) (host : List HostAct) : State :=
  { s with eng := .idle, duties := { HostDuties.none with written := w }, host := host }

/-- DONE and ERR not cleared from the command before. -/
def owing (done err : Bool) (host : List HostAct) : State :=
  { idle host with duties := { HostDuties.none with doneOwed := done, errOwed := err } }

/-- R262, U6: CONV_MEAN3 reads operands that were not written. -/
theorem test_start_without_operands : step (ready (img 0x1 1 1 []) HostDuties.none.written [.regWrite 0x008 32 1]) = .fault (.hazard .operandUnwritten) := rfl

/-- R262, U6: CONV_CUSTOM with radius 1 reads KW[8]. -/
theorem test_start_without_a_weight : step (ready (customImg 1 [1] 1 1 1 []) { everything with kw := (Bank.fill 25 true).set 8 false } [.regWrite 0x008 32 1]) = .fault (.hazard .operandUnwritten) := rfl

/-- U15: KW[9] is never read with radius 1. -/
theorem test_start_without_an_unread_weight : after State.statusWord (step (ready (customImg 1 [1] 1 1 1 []) { everything with kw := (Bank.fill 25 true).set 9 false } [.regWrite 0x008 32 1])) = some 0x00000001 := by decide +kernel

/-- P3: KNORM still 0 from reset; the START is accepted. -/
theorem test_start_with_knorm_unwritten : after State.statusWord (step (ready (customImg 0 [1] 0 1 1 []) { everything with kw := (Bank.fill 25 true).set 24 false } [.regWrite 0x008 32 1])) = some 0x00000001 := by decide +kernel

/-- R222: DST_BASE is neither read nor checked. -/
theorem test_scan_reads_no_destination : after State.statusWord (step (ready (img 0x19 1 1 []) { everything with dstBase := false } [.regWrite 0x008 32 1])) = some 0x00000001 := by decide +kernel

/-- R262, U6: HIST[255] is not re-initialised. -/
theorem test_scan_of_an_unwritten_bin : State.lacksOperand (ready (img 0x18 1 1 []) { everything with hist := (Bank.fill 256 true).set 255 false } []) = true := by decide +kernel

/-- R303: HIST_CLEAR gives HIST a known value; it reads no operand. -/
theorem test_clear_reinitialises : after (fun t => t.duties.written.hist.get 255) (step (ready (img 0x1B 0 0 []) HostDuties.none.written [.regWrite 0x008 32 1])) = some true := by decide +kernel

/-- R262: WIDTH is written. -/
theorem test_write_is_recorded : after (fun t => (t.duties.written.width, t.duties.written.height)) (step (idle [.regWrite 0x018 32 9])) = some (true, false) := by decide +kernel

/-- R301: any pixel command's destination bytes, but for the source region and what lies beyond memory. -/
theorem test_abandoned_bytes : State.abandonedAddrs (errorBase fun c => { c with layout := 1, srcLen := 2 }) = [0x2000, 0x2001] ∧
    State.abandonedAddrs (errorBase fun c => { c with srcLen := 4, dstBase := 0x1002 }) = [0x1004, 0x1005] ∧
    State.abandonedAddrs (errorBase fun c => { c with srcLen := 4, dstBase := 0xFFFFFFFE }) = [0xFFFFFFFE, 0xFFFFFFFF] := by decide +kernel

/-- V82. -/
theorem test_byte_lanes : [byteLane 0x11223344 0, byteLane 0x11223344 3] = [0x44, 0x11] := by decide +kernel

/-- V80. -/
theorem test_pixel_address : pixelAddr 0x1000 3 2 1 0 = 0x1014 ∧ pixelAddr 0x1000 3 2 1 3 = 0x1017 := by decide +kernel

/-- V29. -/
theorem test_sections_of_49 : (List.range 4).map (fun i => (sectionStart 49 i, sectionEnd 49 i)) = [(0, 13), (13, 26), (26, 39), (39, 49)] := by decide +kernel

/-- V64, with the word placed as the host's START would. -/
theorem test_first_after_reset : after State.statusWord (step (State.reset.withFetchWord 32 0x00000000)) = some 0x00000002 := by decide +kernel

/-! ## Witnesses: states and operands that meet the hypotheses of the statements together -/

/-- A step ends in a next state. -/
def goesOn (o : Host.Outcome State Fault Refusal) : Bool :=
  match o with
  | .next _ => true
  | .fault _ => false
  | .refused _ => false

theorem goesOn_next {o : Host.Outcome State Fault Refusal} (h : goesOn o = true) : ∃ t, o = .next t := by
  cases o with
  | next t => exact ⟨t, rfl⟩
  | fault r => cases h
  | refused r => cases h

/-- One red pixel with alpha 40. -/
def dot : List Byte := [10, 20, 30, 40]

theorem witness_DecodeOfEncodeIsTheCommand : Instr.wellFormed (.gradMag 0) = true ∧ Instr.wellFormed (.gradMag 15) = true := by decide

theorem witness_DecodedWordIsTheCommandsWord : decode 0x00000F10 = .ok (.gradMag 15) ∧ decode 0x00000F01 = .ok .convMean3 := by decide

theorem witness_RefusedWordsAreReservedOrUnassigned : decode 0x00000021 = .error .illegalCommand ∧ decode 0x00000080 = .error .illegalCommand := by decide

theorem witness_StepRunsTheDecodedCommand :
    (img 0x210 1 1 dot).eng = .busy ∧ (img 0x210 1 1 dot).delay = 0 ∧ decode (img 0x210 1 1 dot).cur = .ok (.gradMag 2) := by decide

theorem witness_IllegalCommandWordTerminates :
    ((img 0x1000 0 0 []).eng = .busy ∧ (img 0x1000 0 0 []).delay = 0 ∧ (img 0x1000 0 0 []).cur &&& 0xFFFFF0C0 ≠ 0) ∧
      ((img 0x1F 0 0 []).eng = .busy ∧ (img 0x1F 0 0 []).delay = 0 ∧ ((img 0x1F 0 0 []).cur &&& 0x3F).toNat = 0x1F) ∧
      ((img 0x3F 0 0 []).eng = .busy ∧ (img 0x3F 0 0 []).delay = 0 ∧ 0x21 ≤ ((img 0x3F 0 0 []).cur &&& 0x3F).toNat) ∧
      ((0x00000F13 : Word) &&& 0x3F).toNat ∉ [0x10, 0x11, 0x12] := by decide

theorem idle_hostTurn (host : List HostAct) : (idle host).hostTurn := .inl rfl

theorem busy_hostTurn (cmd w h : Word) (px : List Byte) (host : List HostAct) : (busy cmd w h px host).hostTurn :=
  .inr (show (5 : Nat) ≠ 0 by decide)

theorem witness_StepTakesTheNextHostAction :
    ((idle [.reset]).hostTurn ∧ (idle [.reset]).host = .reset :: []) ∧ ((busy 0x0 0 0 [] []).hostTurn ∧ (busy 0x0 0 0 [] []).host = []) :=
  ⟨⟨idle_hostTurn _, rfl⟩, busy_hostTurn _ _ _ _ _, rfl⟩

/-- The configuration of one pixel at 0x1000 with its destination at 0x2000. -/
def dotCfg : ConfigRegs := (img 0x1 1 1 dot).cfg

theorem dot_valid : ValidPixel dotCfg := by unfold ValidPixel ValidSource ValidDest; decide

theorem dot_wf (cmd : Word) : (img cmd 1 1 dot).mem.wf = true := by
  show Memory.wf (Memory.writeBytes 0x1000 dot []) = true
  decide +kernel

theorem dot_valid_cmd (cmd : Word) : ValidPixel (img cmd 1 1 dot).cfg := dot_valid

/-- Each failing check of R271 alone, at the edge of its range. -/
theorem witness_ValidationReportsFirstFailingCheck :
    ({ dotCfg with layout := 1 }.layout ≠ 0) ∧
      (let c := { dotCfg with width := 0 }; c.layout = 0 ∧ (c.width = 0 ∨ c.height = 0)) ∧
      (let c := { dotCfg with srcLen := 3 }; c.layout = 0 ∧ c.width ≠ 0 ∧ c.height ≠ 0 ∧ c.srcLen.toNat ≠ 4 * c.width.toNat * c.height.toNat) ∧
      (let c := { dotCfg with srcBase := 0xFFFFFFFD };
        c.layout = 0 ∧ c.width ≠ 0 ∧ c.height ≠ 0 ∧ c.srcLen.toNat = 4 * c.width.toNat * c.height.toNat ∧ 2 ^ 32 < c.srcBase.toNat + c.srcLen.toNat) ∧
      (let c := { dotCfg with dstBase := 0xFFFFFFFD }; ValidSource c ∧ 2 ^ 32 < c.dstBase.toNat + c.srcLen.toNat) ∧
      (let c := { dotCfg with dstBase := 0x1003 };
        ValidSource c ∧ c.dstBase.toNat + c.srcLen.toNat ≤ 2 ^ 32 ∧ c.srcBase.toNat < c.dstBase.toNat + c.srcLen.toNat ∧
          c.dstBase.toNat < c.srcBase.toNat + c.srcLen.toNat) ∧
      (let c := { dotCfg with kradius := 3, knorm := 1 }; ValidPixel c ∧ (2 < c.kradius.toNat ∨ c.knorm = 0)) ∧
      (let c := { dotCfg with kradius := 2, knorm := 1 }; ValidPixel c ∧ ValidKernel c) ∧
      commandClass .convCustom = .pixel ∧ commandClass .histGray = .scan ∧ commandClass .nop = .control := by
  unfold ValidPixel ValidSource ValidDest ValidKernel; decide

theorem witness_ErrorsLeaveNoPartialEffect : ∃ t, exec .convMean3 (img 0x1 0 0 []) = .next t ∧ t.status.errcode ≠ .ok := by
  have h : after (fun t => t.status.errcode) (exec .convMean3 (img 0x1 0 0 [])) = some .emptyInput := by decide
  obtain ⟨t, ht⟩ := goesOn_next (o := exec .convMean3 (img 0x1 0 0 [])) (by decide)
  rw [ht] at h
  injection h with h
  have e : t.status.errcode = .emptyInput := h
  exact ⟨t, ht, by rw [e]; decide⟩

/-- The hypotheses of the statements about one pixel command. -/
theorem witness_pixel_command : (img 0x1 1 1 dot).mem.wf = true ∧ ValidPixel (img 0x1 1 1 dot).cfg ∧ 0 < (img 0x1 1 1 dot).cfg.width.toNat ∧
    0 < (img 0x1 1 1 dot).cfg.height.toNat := ⟨dot_wf _, dot_valid, by decide, by decide⟩

theorem witness_ConvMean3AveragesNineTaps : (img 0x1 1 1 dot).mem.wf = true ∧ ValidPixel (img 0x1 1 1 dot).cfg := ⟨dot_wf _, dot_valid⟩

theorem witness_ConvGauss3WeighsNineTaps : (img 0x2 1 1 dot).mem.wf = true ∧ ValidPixel (img 0x2 1 1 dot).cfg := ⟨dot_wf _, dot_valid⟩

theorem witness_ConvGauss5WeighsTwentyFiveTaps : (img 0x3 1 1 dot).mem.wf = true ∧ ValidPixel (img 0x3 1 1 dot).cfg := ⟨dot_wf _, dot_valid⟩

/-- Radius 0 and radius 2, the ends of the range. -/
theorem witness_ConvCustomConvolvesTheHostsKernel :
    ((customImg 0 [1] 1 1 1 dot).mem.wf = true ∧ ValidPixel (customImg 0 [1] 1 1 1 dot).cfg ∧ ValidKernel (customImg 0 [1] 1 1 1 dot).cfg) ∧
      ((customImg 2 [1] 0xFFFFFFFF 1 1 dot).mem.wf = true ∧ ValidPixel (customImg 2 [1] 0xFFFFFFFF 1 1 dot).cfg ∧
        ValidKernel (customImg 2 [1] 0xFFFFFFFF 1 1 dot).cfg) :=
  ⟨⟨dot_wf 0x4, dot_valid, by unfold ValidKernel; decide⟩, dot_wf 0x4, dot_valid, by unfold ValidKernel; decide⟩

theorem witness_Median3GivesTheMedianRedSample : (img 0x8 1 1 dot).mem.wf = true ∧ ValidPixel (img 0x8 1 1 dot).cfg := ⟨dot_wf _, dot_valid⟩

theorem witness_Variation5GivesTheWeightedMean : (img 0xC 1 1 dot).mem.wf = true ∧ ValidPixel (img 0xC 1 1 dot).cfg := ⟨dot_wf _, dot_valid⟩

theorem witness_VariationValueHasAnIntegerForm : [10, 12] ≠ [] ∧ 10 ≠ 0 ∧ ∀ rn ∈ [10, 12], neighbourWeight 10 rn ∣ 10 := by decide

theorem witness_VariationValueIsWithinTheSamples : [0, 255] ≠ [] ∧ ∀ rn ∈ [0, 255], 0 ≤ rn ∧ rn ≤ 255 := by decide

theorem witness_VariationWeightIsSymmetric : 0 < 256 ∧ 255 < 256 := by decide

theorem witness_GradMagGivesEachChannelsMagnitude : 15 < 16 ∧ (img 0xF10 1 1 dot).mem.wf = true ∧ ValidPixel (img 0xF10 1 1 dot).cfg :=
  ⟨by decide, dot_wf _, dot_valid⟩

theorem witness_GradXGivesTheHorizontalDerivative : 15 < 16 ∧ (img 0xF11 1 1 dot).mem.wf = true ∧ ValidPixel (img 0xF11 1 1 dot).cfg :=
  ⟨by decide, dot_wf _, dot_valid⟩

theorem witness_GradYGivesTheVerticalDerivative : 15 < 16 ∧ (img 0xF12 1 1 dot).mem.wf = true ∧ ValidPixel (img 0xF12 1 1 dot).cfg :=
  ⟨by decide, dot_wf _, dot_valid⟩

theorem witness_GrayLumaGivesTheLuma : (img 0x20 1 1 dot).mem.wf = true ∧ ValidPixel (img 0x20 1 1 dot).cfg := ⟨dot_wf _, dot_valid⟩

/-- A pixel command that completes, and one that fails. -/
theorem witness_PixelCommandFrame :
    (commandClass .convMean3 = .pixel ∧ (img 0x1 1 1 dot).mem.wf = true ∧ ∃ t, exec .convMean3 (img 0x1 1 1 dot) = .next t) ∧
      (commandClass .median3 = .pixel ∧ (img 0x8 0 0 []).mem.wf = true ∧ ∃ t, exec .median3 (img 0x8 0 0 []) = .next t) :=
  ⟨⟨rfl, dot_wf _, goesOn_next (by decide +kernel)⟩, rfl, by decide, goesOn_next (by decide +kernel)⟩

/-- The first and the last byte of the source region. -/
theorem witness_NoCommandWritesTheSourceRegion :
    (img 0x1 1 1 dot).mem.wf = true ∧ (∃ t, exec .convMean3 (img 0x1 1 1 dot) = .next t) ∧ InSource (img 0x1 1 1 dot).cfg 0x1000 ∧
      InSource (img 0x1 1 1 dot).cfg 0x1003 := ⟨dot_wf _, goesOn_next (by decide +kernel), by unfold InSource; decide, by unfold InSource; decide⟩

/-- Coordinates before, in and after a one-pixel image. -/
theorem witness_TapsStayInTheSourceRegion :
    ValidSource (img 0x1 1 1 dot).cfg ∧ 3 < 4 ∧ (-1 : Int) < 0 ∧ (0 ≤ (0 : Int) ∧ (0 : Int) < (img 0x1 1 1 dot).cfg.width.toNat) ∧
      ((img 0x1 1 1 dot).cfg.width.toNat : Int) ≤ 1 := ⟨dot_valid.1, by decide, by decide, by decide, by decide⟩

/-- Two states that agree on the registers, HIST and the source, and differ in the destination and in CUM: a pixel command and HIST_CUM
complete on both. -/
def other (s : State) : State := { s with cum := .fill 256 9, mem := Memory.write 0x2000 7 s.mem }

theorem witness_CommandsDependOnlyOnRegistersHistAndSource :
    (img 0x1 1 1 dot).mem.wf = true ∧ (other (img 0x1 1 1 dot)).mem.wf = true ∧ (img 0x1 1 1 dot).cfg = (other (img 0x1 1 1 dot)).cfg ∧
      (img 0x1 1 1 dot).hist = (other (img 0x1 1 1 dot)).hist ∧
      (∀ a, InSource (img 0x1 1 1 dot).cfg a → (img 0x1 1 1 dot).readByte a = (other (img 0x1 1 1 dot)).readByte a) ∧
      ((∃ t, exec .convMean3 (img 0x1 1 1 dot) = .next t) ∧ ∃ t, exec .convMean3 (other (img 0x1 1 1 dot)) = .next t) ∧
      (∃ t, exec .histCum (img 0x1 1 1 dot) = .next t ∧ t.status.errcode = .ok) ∧
      ∃ t, exec .histCum (other (img 0x1 1 1 dot)) = .next t ∧ t.status.errcode = .ok := by
  refine ⟨dot_wf _, Memory.write_wf (dot_wf _) (by decide), rfl, rfl, fun a ha => ?_,
    ⟨goesOn_next (by decide +kernel), goesOn_next (by decide +kernel)⟩,
    ⟨_, exec_scan (i := .histCum) rfl dot_valid.1, rfl⟩, _, exec_scan (i := .histCum) rfl dot_valid.1, rfl⟩
  have ha : 0x1000 ≤ a ∧ a < 0x1000 + 4 := ha
  show _ = Memory.read a (Memory.write 0x2000 7 (img 0x1 1 1 dot).mem)
  rw [Memory.read_write (dot_wf _), if_neg (by omega)]
  rfl

theorem dot_uniform : (img 0x1 1 1 dot).UniformSource fun ch => dot.getD ch 0 := by
  intro x y ch hx hy hc
  have hx : x < 1 := hx
  have hy : y < 1 := hy
  obtain rfl : x = 0 := by omega
  obtain rfl : y = 0 := by omega
  interval_cases ch <;> decide +kernel

theorem witness_BlurKeepsAUniformImage :
    (img 0x1 1 1 dot).mem.wf = true ∧ ValidPixel (img 0x1 1 1 dot).cfg ∧ (img 0x1 1 1 dot).UniformSource fun ch => dot.getD ch 0 :=
  ⟨dot_wf _, dot_valid, dot_uniform⟩

theorem witness_GradientOfAUniformImageIsBlack :
    15 < 16 ∧ (img 0x1 1 1 dot).mem.wf = true ∧ ValidPixel (img 0x1 1 1 dot).cfg ∧ (img 0x1 1 1 dot).UniformSource fun ch => dot.getD ch 0 :=
  ⟨by decide, dot_wf _, dot_valid, dot_uniform⟩

theorem witness_WorkerRangesPartitionTheTotal : 48 < 49 ∧ 48 ∈ sectionIndices 49 3 := by decide

theorem witness_WorkerOrderIsNotObservable : List.Perm ([3, 1, 2, 0] : List (Fin 4)) [0, 1, 2, 3] := by decide

theorem witness_WorkersCountTheirOwnRanges : ValidSource (img 0x18 1 1 dot).cfg := dot_valid.1

theorem witness_ScanAddsRedCountsToHist : ValidSource (img 0x19 1 1 dot).cfg := dot_valid.1

theorem witness_ScanOfClearedBinsConservesPixels :
    (ValidSource (img 0x1A 1 1 dot).cfg ∧ ∀ v, v < 256 → (img 0x1A 1 1 dot).hist.nth v = 0) ∧
      ((img 0x1A 0 1 []).cfg.layout = 0 ∧ ((img 0x1A 0 1 []).cfg.width = 0 ∨ (img 0x1A 0 1 []).cfg.height = 0)) :=
  ⟨⟨dot_valid.1, fun v _ => Bank.nth_fill_zero v⟩, by decide⟩

theorem witness_HistCumWritesTheRunningSum : ValidSource (img 0x1A 1 1 dot).cfg := dot_valid.1

theorem witness_ScanAndControlFrame :
    (commandClass .histCum ≠ .pixel ∧ ∃ t, exec .histCum (img 0x1A 1 1 dot) = .next t) ∧
      (commandClass .nop ≠ .pixel ∧ ∃ t, exec .nop (img 0x0 1 1 dot) = .next t) :=
  ⟨⟨by decide, goesOn_next (by decide +kernel)⟩, by decide, goesOn_next (by decide +kernel)⟩

/-- The offsets at which the clauses of the register statements meet: no offset is both an operand's and unmapped. -/
theorem test_offsets_apart (off : BitVec 12) : ¬(OperandOffset off ∧ UnmappedOffset off) := by
  unfold OperandOffset UnmappedOffset; omega

/-- The first and last unmapped offset of each gap (R49). -/
theorem unmapped_edges : UnmappedOffset 0x038 ∧ UnmappedOffset 0x03C ∧ UnmappedOffset 0x0A4 ∧ UnmappedOffset 0x3FC ∧ UnmappedOffset 0xC00 ∧
    UnmappedOffset 0xFFC := by unfold UnmappedOffset; decide

/-- The first and last operand offset of each block (R33). -/
theorem operand_edges : OperandOffset 0x014 ∧ OperandOffset 0x034 ∧ OperandOffset 0x040 ∧ OperandOffset 0x0A0 ∧ OperandOffset 0x400 ∧
    OperandOffset 0x7FC ∧ OperandOffset 0x800 ∧ OperandOffset 0xBFC := by unfold OperandOffset; decide

/-- A read in each clause, at the last offset of its block; HIST while IDLE and while BUSY. -/
theorem witness_RegisterReadsReturn :
    ((idle [.regRead 0x034 32]).hostTurn ∧ (idle [.regRead 0x034 32]).host = .regRead 0x034 32 :: []) ∧
      (24 < 25 ∧ (idle [.regRead 0x0A0 32]).hostTurn ∧ (idle [.regRead 0x0A0 32]).host = .regRead (BitVec.ofNat 12 (0x040 + 4 * 24)) 32 :: []) ∧
      (255 < 256 ∧ (idle [.regRead 0x7FC 32]).hostTurn ∧ (idle [.regRead 0x7FC 32]).host = .regRead (BitVec.ofNat 12 (0x400 + 4 * 255)) 32 :: []) ∧
      (255 < 256 ∧ (busy 0 0 0 [] [.regRead 0xBFC 32]).hostTurn ∧
        (busy 0 0 0 [] [.regRead 0xBFC 32]).host = .regRead (BitVec.ofNat 12 (0x800 + 4 * 255)) 32 :: []) ∧
      (UnmappedOffset 0xFFC ∧ (idle [.regRead 0xFFC 32]).hostTurn ∧ (idle [.regRead 0xFFC 32]).host = .regRead 0xFFC 32 :: []) :=
  ⟨⟨idle_hostTurn _, rfl⟩, ⟨by decide, idle_hostTurn _, rfl⟩, ⟨by decide, idle_hostTurn _, rfl⟩, ⟨by decide, busy_hostTurn _ _ _ _ _, rfl⟩,
    unmapped_edges.2.2.2.2.2, idle_hostTurn _, rfl⟩

/-- After reset CMD is NOP, which reads no operand. -/
theorem idle_prepared (host : List HostAct) : (idle host).Prepared := by
  intro i h
  have : decode 0 = .ok .nop := by decide
  obtain rfl : Instr.nop = i := Except.ok.inj (this.symm.trans h)
  exact ⟨fun h => absurd rfl h, nofun, nofun, nofun⟩

/-- A write in each clause, at the last offset of its block. -/
theorem witness_WritesWhileIdle :
    (idle []).eng = .idle ∧ (idle [.regWrite 0x034 32 5]).host = .regWrite 0x034 32 5 :: [] ∧
      (idle [.regWrite 0x0A0 32 5]).host = .regWrite (BitVec.ofNat 12 (0x040 + 4 * 24)) 32 5 :: [] ∧
      (idle [.regWrite 0x7FC 32 5]).host = .regWrite (BitVec.ofNat 12 (0x400 + 4 * 255)) 32 5 :: [] ∧
      (idle [.regWrite 0xBFC 32 5]).host = .regWrite (BitVec.ofNat 12 (0x800 + 4 * 255)) 32 5 :: [] ∧
      (idle [.regWrite 0x010 32 3]).host = .regWrite 0x010 32 3 :: [] ∧ (idle [.regWrite 0x00C 32 0xE]).host = .regWrite 0x00C 32 0xE :: [] ∧
      ((idle [.regWrite 0x008 32 1]).host = .regWrite 0x008 32 1 :: [] ∧ (1 : Word).getLsbD 0 = true ∧
        (idle [.regWrite 0x008 32 1]).Prepared) ∧
      ((idle [.regWrite 0x008 32 2]).host = .regWrite 0x008 32 2 :: [] ∧ (2 : Word).getLsbD 0 = false) ∧ UnmappedOffset 0xC00 :=
  ⟨rfl, rfl, rfl, rfl, rfl, rfl, rfl, ⟨rfl, by decide, idle_prepared _⟩, ⟨rfl, by decide⟩, unmapped_edges.2.2.2.2.1⟩

/-- The START of a command that reads no operand, of CONV_CUSTOM, and of a scan. -/
theorem witness_StartIsAccepted :
    ((idle [.regWrite 0x008 32 1]).eng = .idle ∧ (idle [.regWrite 0x008 32 1]).Prepared ∧
        (idle [.regWrite 0x008 32 1]).host = .regWrite 0x008 32 1 :: []) ∧
      ((ready (customImg 2 [1] 1 1 1 dot) everything [.regWrite 0x008 32 1]).eng = .idle ∧
        (ready (customImg 2 [1] 1 1 1 dot) everything [.regWrite 0x008 32 1]).Prepared ∧
        (ready (customImg 2 [1] 1 1 1 dot) everything [.regWrite 0x008 32 1]).host = .regWrite 0x008 32 1 :: []) ∧
      ((ready (img 0x19 1 1 dot) everything [.regWrite 0x008 32 1]).eng = .idle ∧
        (ready (img 0x19 1 1 dot) everything [.regWrite 0x008 32 1]).Prepared ∧
        (ready (img 0x19 1 1 dot) everything [.regWrite 0x008 32 1]).host = .regWrite 0x008 32 1 :: []) ∧
      (1 : Word).getLsbD 0 = true :=
  ⟨⟨rfl, idle_prepared _, rfl⟩, ⟨rfl, lacksOperand_false.mp (by decide +kernel), rfl⟩, ⟨rfl, lacksOperand_false.mp (by decide +kernel), rfl⟩,
    by decide⟩

/-- A dropped write at the last bin of CUM, and a dropped START. -/
theorem witness_WritesWhileBusyAreDropped :
    ((busy 0 0 0 [] [.regWrite 0xBFC 32 5]).eng = .busy ∧ (busy 0 0 0 [] [.regWrite 0xBFC 32 5]).delay ≠ 0 ∧ OperandOffset 0xBFC ∧
        (busy 0 0 0 [] [.regWrite 0xBFC 32 5]).host = .regWrite 0xBFC 32 5 :: []) ∧
      ((busy 0 0 0 [] [.regWrite 0x008 32 1]).eng = .busy ∧ (busy 0 0 0 [] [.regWrite 0x008 32 1]).delay ≠ 0 ∧ (1 : Word).getLsbD 0 = true ∧
        (busy 0 0 0 [] [.regWrite 0x008 32 1]).host = .regWrite 0x008 32 1 :: []) :=
  ⟨⟨rfl, by decide, operand_edges.2.2.2.2.2.2.2, rfl⟩, rfl, by decide, by decide, rfl⟩

theorem witness_WritesAcceptedWhileBusy :
    (busy 0 0 0 [] [.regWrite 0x00C 32 0xE]).eng = .busy ∧ (busy 0 0 0 [] [.regWrite 0x00C 32 0xE]).delay ≠ 0 ∧
      (busy 0 0 0 [] [.regWrite 0x00C 32 0xE]).host = .regWrite 0x00C 32 0xE :: [] ∧
      (busy 0 0 0 [] [.regWrite 0x010 32 3]).host = .regWrite 0x010 32 3 :: [] ∧
      (busy 0 0 0 [] [.regWrite 0x008 32 2]).host = .regWrite 0x008 32 2 :: [] ∧ (2 : Word).getLsbD 0 = false ∧ UnmappedOffset 0x038 :=
  ⟨rfl, by decide, rfl, rfl, rfl, by decide, unmapped_edges.1⟩

/-- A wrong size, and a wrong offset. -/
theorem witness_IllegalAccessAnswersSlverr :
    ((idle [.regWrite 0x018 8 5]).hostTurn ∧ 8 ≠ 32 ∧ (idle [.regWrite 0x018 8 5]).host = .regWrite 0x018 8 5 :: []) ∧
      ((busy 0 0 0 [] [.regRead 0x003 32]).hostTurn ∧ (0x003 : BitVec 12).toNat % 4 ≠ 0 ∧
        (busy 0 0 0 [] [.regRead 0x003 32]).host = .regRead 0x003 32 :: []) :=
  ⟨⟨idle_hostTurn _, by decide, rfl⟩, busy_hostTurn _ _ _ _ _, by decide, rfl⟩

theorem witness_HostWaitsForTermination :
    ((busy 0 0 0 [] [.waitDone]).hostTurn ∧ (busy 0 0 0 [] [.waitDone]).host = .waitDone :: []) ∧
      ((idle [.waitIrq]).hostTurn ∧ (idle [.waitIrq]).host = .waitIrq :: [] ∧ (idle [.waitIrq]).duties.doneOwed = false ∧
        (idle [.waitIrq]).duties.errOwed = false) :=
  ⟨⟨busy_hostTurn _ _ _ _ _, rfl⟩, idle_hostTurn _, rfl, rfl, rfl⟩

/-- The largest image one pixel high whose length fits in 32 bits. -/
theorem witness_PseudoOperationsExpand : 4 * (0x3FFFFFFF : Word).toNat * (1 : Word).toNat < 2 ^ 32 := by decide

/-- While IDLE at the last address, and while BUSY at the byte after the source region. -/
theorem witness_HostMemoryAccess :
    ((idle [.memWrite 0xFFFFFFFF 1]).mem.wf = true ∧ (idle [.memWrite 0xFFFFFFFF 1]).eng = .idle ∧
        (idle [.memWrite 0xFFFFFFFF 1]).host = .memWrite 0xFFFFFFFF 1 :: []) ∧
      ((busy 0x1 1 1 dot [.memRead 0x1004]).mem.wf = true ∧ (busy 0x1 1 1 dot [.memRead 0x1004]).delay ≠ 0 ∧
        ¬InSource (busy 0x1 1 1 dot [.memRead 0x1004]).cfg 0x1004 ∧ ¬InDest (busy 0x1 1 1 dot [.memRead 0x1004]).cfg 0x1004 ∧
        (busy 0x1 1 1 dot [.memRead 0x1004]).host = .memRead 0x1004 :: []) :=
  ⟨⟨rfl, rfl, rfl⟩, dot_wf 0x1, by decide, by unfold InSource; decide, by unfold InDest; decide, rfl⟩

/-- The last byte of the source region, and the first and last of the destination region. -/
theorem witness_BufferAccessWhileBusyIsAHazard :
    ((busy 0x19 1 1 dot [.memWrite 0x1003 1]).eng = .busy ∧ (busy 0x19 1 1 dot [.memWrite 0x1003 1]).delay ≠ 0 ∧
        decode (busy 0x19 1 1 dot [.memWrite 0x1003 1]).cur = .ok .histGray ∧ commandClass .histGray ≠ .control ∧
        InSource (busy 0x19 1 1 dot [.memWrite 0x1003 1]).cfg 0x1003) ∧
      ((busy 0x1 1 1 dot [.memRead 0x2000]).eng = .busy ∧ (busy 0x1 1 1 dot [.memRead 0x2000]).delay ≠ 0 ∧
        decode (busy 0x1 1 1 dot [.memRead 0x2000]).cur = .ok .convMean3 ∧ commandClass .convMean3 = .pixel ∧
        InDest (busy 0x1 1 1 dot [.memRead 0x2000]).cfg 0x2000 ∧ InDest (busy 0x1 1 1 dot [.memRead 0x2000]).cfg 0x2003 ∧
        (busy 0x1 1 1 dot [.memRead 0x2000]).host = .memRead 0x2000 :: []) := by
  unfold InSource InDest; decide

/-- Each kind of fault: a read and a write of the destination region, a write of the source region, a START with an operand, or a
bin of HIST, not written, and a sleep with DONE, or ERR, not cleared. And the steps that the record of the duties speaks of: a write of an
operand, of a weight, of a bin and of STATUS, a START of HIST_CLEAR and of NOP, and a reset. -/
theorem witness_HostFaultsExactlyOnABrokenDuty :
    (step (busy 0x1 1 1 dot [.memRead 0x2000]) = .fault (.hazard .destRead) ∧
        step (busy 0x1 1 1 dot [.memWrite 0x2003 1]) = .fault (.hazard .destWrite) ∧
        step (busy 0x19 1 1 dot [.memWrite 0x1003 1]) = .fault (.hazard .sourceWrite) ∧
        step (ready (img 0x1 1 1 dot) { everything with dstBase := false } [.regWrite 0x008 32 1]) = .fault (.hazard .operandUnwritten) ∧
        step (ready (img 0x19 1 1 dot) { everything with hist := (Bank.fill 256 true).set 0 false } [.regWrite 0x008 32 1]) =
          .fault (.hazard .operandUnwritten) ∧
        step (owing true false [.waitIrq]) = .fault (.hazard .irqNotCleared) ∧
        step (owing false true [.waitIrq]) = .fault (.hazard .irqNotCleared)) ∧
      (∃ t, step (idle [.regWrite 0x030 32 1]) = .next t ∧ t.duties.written.kradius = true) ∧
      (∃ t, step (idle [.regWrite 0x0A0 32 1]) = .next t ∧ t.duties.written.kw.get 24 = true) ∧
      (∃ t, step (idle [.regWrite 0x7FC 32 1]) = .next t ∧ t.duties.written.hist.get 255 = true) ∧
      (∃ t, step (ready (img 0x1B 0 0 []) HostDuties.none.written [.regWrite 0x008 32 1]) = .next t ∧ t.duties.written.hist.get 255 = true) ∧
      (∃ t, step (owing true true [.regWrite 0x00C 32 2]) = .next t ∧ t.duties.doneOwed = false ∧ t.duties.errOwed = true) ∧
      (∃ t, step { idle [.regWrite 0x008 32 1] with status := ⟨true, false, false, .ok⟩ } = .next t ∧ t.duties.doneOwed = true) ∧
      ∃ t, step (owing true true [.reset]) = .next t ∧ t.duties = .none :=
  ⟨⟨rfl, rfl, rfl, rfl, rfl, rfl, rfl⟩, ⟨_, rfl, rfl⟩, ⟨_, rfl, rfl⟩, ⟨_, rfl, rfl⟩, ⟨_, rfl, rfl⟩, ⟨_, rfl, rfl, rfl⟩, ⟨_, rfl, rfl⟩, _, rfl, rfl⟩

theorem witness_ResetGivesTheResetValues :
    ((idle [.reset]).hostTurn ∧ (idle [.reset]).host = .reset :: [] ∧ (idle [.reset]).eng = .idle) ∧
      ((busy 0x1 1 1 dot [.reset]).hostTurn ∧ (busy 0x1 1 1 dot [.reset]).host = .reset :: []) :=
  ⟨⟨idle_hostTurn _, rfl, rfl⟩, busy_hostTurn _ _ _ _ _, rfl⟩

/-- A pixel command is running; the statement's three kinds of byte. -/
theorem witness_ResetDuringACommandAbandonsIt :
    (busy 0x1 1 1 dot [.reset]).mem.wf = true ∧ (busy 0x1 1 1 dot [.reset]).eng = .busy ∧ (busy 0x1 1 1 dot [.reset]).delay ≠ 0 ∧
      (busy 0x1 1 1 dot [.reset]).host = .reset :: [] ∧ InSource (busy 0x1 1 1 dot [.reset]).cfg 0x1003 ∧
      ¬InDest (busy 0x1 1 1 dot [.reset]).cfg 0x2004 ∧ decode (busy 0x19 1 1 dot [.reset]).cur = .ok .histGray ∧ commandClass .histGray ≠ .pixel :=
  ⟨dot_wf 0x1, rfl, by decide, rfl, by unfold InSource; decide, by unfold InDest; decide, by decide, by decide⟩

theorem witness_AcceptedCommandCompletes : (busy 0x1 1 1 dot [.waitDone]).eng = .busy ∧ HostAct.reset ∉ (busy 0x1 1 1 dot [.waitDone]).host := by
  decide

/-- A START, and a termination. -/
theorem witness_EngineStateTransitions :
    (∃ t, step (idle [.regWrite 0x008 32 1]) = .next t ∧ (idle [.regWrite 0x008 32 1]).eng = .idle ∧ t.eng = .busy) ∧
      ∃ t, step (img 0x0 0 0 []) = .next t ∧ (img 0x0 0 0 []).eng = .busy ∧ t.eng = .idle := ⟨⟨_, rfl, rfl, rfl⟩, _, rfl, rfl, rfl⟩

theorem witness_ConfigurationIsStableWhileBusy :
    (∃ t, step (busy 0x1 1 1 dot [.regWrite 0x018 32 9]) = .next t) ∧ (busy 0x1 1 1 dot [.regWrite 0x018 32 9]).eng = .busy ∧
      ∀ rest, (busy 0x1 1 1 dot [.regWrite 0x018 32 9]).host ≠ .reset :: rest := ⟨⟨_, rfl⟩, rfl, nofun⟩

theorem witness_FlagsChangeOnlyByTheirWriters :
    ∃ t, step (busy 0x1 1 1 dot [.regWrite 0x018 32 9]) = .next t ∧ (busy 0x1 1 1 dot [.regWrite 0x018 32 9]).delay ≠ 0 ∧
      t.status ≠ (busy 0x1 1 1 dot [.regWrite 0x018 32 9]).status := ⟨_, rfl, by decide, by decide⟩

theorem witness_ResetMeetsTheInvariant : Memory.wf [(0, 1), (0xFFFFFFFF, 255)] = true := by decide

theorem witness_StepKeepsTheInvariant :
    ((busy 0x1 1 1 dot [.memWrite 0x3000 1]).Inv ∧ ∃ t, step (busy 0x1 1 1 dot [.memWrite 0x3000 1]) = .next t) ∧
      ((img 0x0 0 0 []).Inv ∧ ∃ t, step (img 0x0 0 0 []) = .next t) :=
  ⟨⟨⟨dot_wf 0x1, nofun, fun _ => ⟨rfl, rfl, rfl, rfl⟩⟩, _, rfl⟩, ⟨rfl, nofun, fun _ => ⟨rfl, rfl, rfl, rfl⟩⟩, _, rfl⟩

end Sys2Proof.Tests
end

/-! Proofs of the state family (10_state.md): one inversion lemma for a step in the host's turn, and from it which steps
move ENG, the configuration and CUR, and the flags; then the fields of the STATUS and IRQ_EN words. -/

namespace Sys2Proof.Machine

section Steps

variable {s t : State}

/-! ## What a step can do -/

/-- `t` differs from `s` in data memory, the completion delay, the draw counter and the host's two lists at most: no register
and no other state of the block has changed. -/
def State.KeepsBlock (s t : State) : Prop :=
  t = { s with mem := t.mem, delay := t.delay, draws := t.draws, host := t.host, replies := t.replies }

theorem State.KeepsBlock.eng (h : s.KeepsBlock t) : t.eng = s.eng := by rw [h]
theorem State.KeepsBlock.cur (h : s.KeepsBlock t) : t.cur = s.cur := by rw [h]
theorem State.KeepsBlock.cfg (h : s.KeepsBlock t) : t.cfg = s.cfg := by rw [h]
theorem State.KeepsBlock.status (h : s.KeepsBlock t) : t.status = s.status := by rw [h]

/-- One step of the host's turn gone by before it does not matter. -/
theorem State.KeepsBlock.of_passed {rest : List HostAct} (h : (s.passed rest).KeepsBlock t) : s.KeepsBlock t := h

/-- Everything an action of the host can do: write a register, reset the block, or leave the block as it is (R250, R262, R300). -/
theorem hostAct_cases {a : HostAct} (h : hostAct a s = .next t) :
    (∃ off v r, a = .regWrite off 32 v ∧ off.toNat % 4 = 0 ∧ regAt off = some r ∧ t = (writeReg r v s).answer (.regWrote .okay)) ∨
      (a = .reset ∧ t = resetPulse s) ∨ s.KeepsBlock t := by
  cases a with
  | regWrite off size v =>
    rw [hostAct] at h
    obtain ⟨e, _⟩ | ⟨e, _⟩ := hostRegWrite_cases off size v s <;> rw [e] at h <;> cases h
    obtain ⟨r, rfl, hr, ha, e⟩ | ⟨resp, e⟩ := portWrite_cases off size v s
    · exact .inl ⟨off, v, r, rfl, ha, hr, e⟩
    · exact .inr (.inr (by rw [e]; rfl))
  | reset => cases h; exact .inr (.inl ⟨rfl, rfl⟩)
  | regRead off size => cases h; exact .inr (.inr rfl)
  | memRead a =>
    rw [hostAct, hostMemRead] at h
    split at h <;> cases h
    exact .inr (.inr rfl)
  | memWrite a v =>
    rw [hostAct, hostMemWrite] at h
    split at h
    · cases h
    · split at h <;> cases h
      exact .inr (.inr rfl)
  | waitDone => cases h; exact .inr (.inr (by split <;> rfl))
  | waitIrq =>
    rw [hostAct, hostSleep] at h
    split at h <;> cases h
    exact .inr (.inr (by split <;> rfl))

/-- Everything a step can do: the engine's turn, or in the host's turn a register write, a reset, or nothing to the block. -/
theorem step_cases (h : step s = .next t) :
    (s.eng = .busy ∧ s.delay = 0 ∧ engineStep s = .next t) ∨
      (∃ off v rest r, s.host = .regWrite off 32 v :: rest ∧ off.toNat % 4 = 0 ∧ regAt off = some r ∧
        t = (writeReg r v (s.passed rest)).answer (.regWrote .okay)) ∨
      (∃ rest, s.host = .reset :: rest ∧ t = resetPulse (s.passed rest)) ∨ s.KeepsBlock t := by
  obtain ⟨hb, hd⟩ | ht := turn_cases s
  · exact .inl ⟨hb, hd, by rw [← step_engine hb hd]; exact h⟩
  · cases hq : s.host with
    | nil =>
      rw [step_host_nil ht hq] at h
      cases h
      exact .inr (.inr (.inr rfl))
    | cons a rest =>
      rw [step_host_cons ht hq] at h
      obtain ⟨off, v, r, rfl, ha, hr, e⟩ | ⟨rfl, e⟩ | hk := hostAct_cases h
      · exact .inr (.inl ⟨off, v, rest, r, rfl, ha, hr, e⟩)
      · exact .inr (.inr (.inl ⟨rest, rfl, e⟩))
      · exact .inr (.inr (.inr hk.of_passed))

/-- The engine's turn ends IDLE and DONE, with the configuration and CUR as they were, whether or not CUR decodes (R60, R63, R276). -/
theorem engineStep_frame (h : engineStep s = .next t) : t.eng = .idle ∧ t.status.done = true ∧ t.cfg = s.cfg ∧ t.cur = s.cur := by
  obtain ⟨e, _, rfl⟩ | ⟨i, _, hi⟩ := engineStep_cases h
  · exact ⟨rfl, rfl, rfl, rfl⟩
  · obtain ⟨heng, hdone, _, _, hcfg, hcur, _⟩ := exec_frame hi
    exact ⟨heng, hdone, hcfg, hcur⟩

/-! ## What a register write can do to ENG, the configuration and the flags -/

/-- No register write while BUSY changes ENG, the configuration or CUR (R255, R256). -/
theorem writeReg_busy_frame (r : RegName) (v : Word) (hb : s.eng = .busy) :
    (writeReg r v s).eng = .busy ∧ (writeReg r v s).cfg = s.cfg ∧ (writeReg r v s).cur = s.cur := by
  obtain e | e | ⟨_, e⟩ | ⟨_, e⟩ := writeReg_busy r v hb <;> rw [e] <;> exact ⟨hb, rfl, rfl⟩

/-- The only register write that starts the engine is a START (R258). -/
theorem start_of_writeReg_busy {r : RegName} {v : Word} (hi : s.eng = .idle) (hb : (writeReg r v s).eng = .busy) :
    r = .ctrl ∧ v.getLsbD 0 = true := by
  obtain ⟨hr, hv, _⟩ | ⟨e, _⟩ := writeReg_idle r v hi
  · exact ⟨hr, hv⟩
  · rw [e] at hb
    exact absurd (hi.symm.trans hb) nofun

/-- The register writes that change a flag or ERRCODE: to STATUS, a START, and one that is dropped because the engine is BUSY (R50). -/
theorem writer_of_writeReg_status_ne {r : RegName} {v : Word} (h : (writeReg r v s).status ≠ s.status) :
    r = .status ∨ (r = .ctrl ∧ v.getLsbD 0 = true) ∨ (s.eng = .busy ∧ r.alwaysWritable = false ∧ r ≠ .ctrl) := by
  cases hs : s.eng with
  | idle =>
    obtain ⟨hr, hv, _⟩ | ⟨_, e | ⟨hr, _⟩⟩ := writeReg_idle r v hs
    · exact .inr (.inl ⟨hr, hv⟩)
    · exact absurd e h
    · exact .inl hr
  | busy =>
    cases r with
    | status => exact .inl rfl
    | ctrl =>
      refine .inr (.inl ⟨rfl, Classical.byContradiction fun hv => h ?_⟩)
      rw [writeReg, if_neg hv]
    | id => exact absurd rfl h
    | caps => exact absurd rfl h
    | irqEn => exact absurd rfl h
    | _ => exact .inr (.inr ⟨rfl, rfl, nofun⟩)

end Steps

/-! ## The fields of the STATUS and IRQ_EN words -/

section Words

variable (s : State)

/-- STATUS above its four flags: the error code between reserved zeros (R37). -/
def State.statusHigh : BitVec 28 := 0#20 ++ s.status.errcode.bits ++ 0#4

theorem statusHigh_toNat : s.statusHigh.toNat = 16 * s.status.errcode.bits.toNat := by
  unfold State.statusHigh
  cases s.status.errcode <;> rfl

/-- The part above the flags has no bit set but those of the error code. -/
theorem statusHigh_reserved : s.statusHigh &&& 0xFFFFF0F = 0 := by
  unfold State.statusHigh
  cases s.status.errcode <;> rfl

/-- STATUS with its four flags set off one at a time, BUSY in the lowest bit (R37). -/
theorem statusWord_concat :
    s.statusWord = (((s.statusHigh.concat s.status.busywr).concat s.status.err).concat s.status.done).concat s.isBusy := rfl

/-- IRQ_EN with its two enables set off one at a time, DONE_IE in the lowest bit (R38). -/
theorem irqEnWord_concat : s.irqEnWord = ((0#30).concat s.irqEn.errIe).concat s.irqEn.doneIe := rfl

/-- The four lowest bits of STATUS (R37). -/
theorem statusWord_flags :
    s.statusWord.getLsbD 0 = s.isBusy ∧ s.statusWord.getLsbD 1 = s.status.done ∧ s.statusWord.getLsbD 2 = s.status.err ∧
      s.statusWord.getLsbD 3 = s.status.busywr := by
  simp only [statusWord_concat, BitVec.getLsbD_concat]
  exact ⟨rfl, rfl, rfl, rfl⟩

/-- STATUS from bit 8 on is the number of the error code (R37, R270). -/
theorem statusWord_errcode : s.statusWord.toNat / 256 = s.status.errcode.bits.toNat := by
  have hbusy := s.isBusy.toNat_le
  have hdone := s.status.done.toNat_le
  have herr := s.status.err.toNat_le
  have hbusywr := s.status.busywr.toNat_le
  simp only [statusWord_concat, BitVec.toNat_concat, statusHigh_toNat]
  omega

/-- The reserved bits of STATUS are 0 (R37). -/
theorem statusWord_reserved : s.statusWord &&& 0xFFFFF0F0 = 0 := by
  have hmask : (0xFFFFF0F0 : Word) = ((((0xFFFFF0F : BitVec 28).concat false).concat false).concat false).concat false := rfl
  simp only [hmask, statusWord_concat, BitVec.concat_and_concat, statusHigh_reserved, Bool.and_false]
  rfl

/-- The two lowest bits of IRQ_EN, and no other bit (R38). -/
theorem irqEnWord_fields :
    s.irqEnWord.getLsbD 0 = s.irqEn.doneIe ∧ s.irqEnWord.getLsbD 1 = s.irqEn.errIe ∧ s.irqEnWord.toNat < 4 := by
  have hdone := s.irqEn.doneIe.toNat_le
  have herr := s.irqEn.errIe.toNat_le
  rw [irqEnWord_concat]
  refine ⟨BitVec.getLsbD_concat_zero, BitVec.getLsbD_concat_succ.trans BitVec.getLsbD_concat_zero, ?_⟩
  simp only [BitVec.toNat_concat, BitVec.toNat_zero]
  omega

end Words

/-! ## The obligations -/

/-- Settles O41: each field of the two words by its own lemma, and the number of each error code. -/
theorem statusAndIrqEnWords : Obligations.StatusAndIrqEnWords := by
  intro s
  obtain ⟨hbusy, hdone, herr, hbusywr⟩ := statusWord_flags s
  refine ⟨by rw [hbusy, State.isBusy, decide_eq_true_iff], hdone, herr, hbusywr, ?_, statusWord_reserved s, irqEnWord_fields s⟩
  rw [statusWord_errcode]
  cases s.status.errcode <;> rfl

/-- Settles O56: of all a step can do, only a START leaves IDLE, and only the engine's turn and a reset leave BUSY. -/
theorem engineStateTransitions : Obligations.EngineStateTransitions := by
  intro s t h
  constructor
  · intro hi hb
    obtain ⟨hs, _⟩ | ⟨off, v, rest, r, hq, _, hr, rfl⟩ | ⟨rest, _, rfl⟩ | hk := step_cases h
    · exact absurd (hi.symm.trans hs) nofun
    · obtain ⟨rfl, hv⟩ := start_of_writeReg_busy (s := s.passed rest) hi hb
      exact ⟨v, rest, regAt_ctrl hr ▸ hq, hv⟩
    · exact absurd hb nofun
    · exact absurd (hi.symm.trans (hk.eng.symm.trans hb)) nofun
  · intro hb hi
    obtain ⟨_, hd, he⟩ | ⟨off, v, rest, r, _, _, _, rfl⟩ | ⟨rest, hq, _⟩ | hk := step_cases h
    · exact .inl ⟨hd, (engineStep_frame he).2.1⟩
    · exact absurd (hi.symm.trans (writeReg_busy_frame (s := s.passed rest) r v hb).1) nofun
    · exact .inr ⟨rest, hq⟩
    · exact absurd (hb.symm.trans (hk.eng.symm.trans hi)) nofun

/-- Settles O57: neither the engine's turn nor, while BUSY, any register write changes the configuration or CUR. -/
theorem configurationIsStableWhileBusy : Obligations.ConfigurationIsStableWhileBusy := by
  intro s t h hb hreset
  obtain ⟨_, _, he⟩ | ⟨off, v, rest, r, _, _, _, rfl⟩ | ⟨rest, hq, _⟩ | hk := step_cases h
  · exact (engineStep_frame he).2.2
  · exact (writeReg_busy_frame (s := s.passed rest) r v hb).2
  · exact absurd hq (hreset rest)
  · exact ⟨hk.cfg, hk.cur⟩

/-- Settles O58: in the host's turn a changed flag is a reset's or a register write's, and the register gives the offset. -/
theorem flagsChangeOnlyByTheirWriters : Obligations.FlagsChangeOnlyByTheirWriters := by
  intro s t h hturn hne
  obtain ⟨hb, hd, _⟩ | ⟨off, v, rest, r, hq, ha, hr, rfl⟩ | ⟨rest, hq, _⟩ | hk := step_cases h
  · rcases hturn with hi | hd'
    · exact absurd (hi.symm.trans hb) nofun
    · exact absurd hd hd'
  · refine .inr ⟨off, v, rest, hq, ?_⟩
    obtain rfl | ⟨rfl, hv⟩ | ⟨hb, hw, hc⟩ := writer_of_writeReg_status_ne (s := s.passed rest) hne
    · exact .inl (regAt_status hr)
    · exact .inr (.inl ⟨regAt_ctrl hr, hv⟩)
    · obtain h | h | ho := regAt_kinds hr ha
      · exact absurd (h.symm.trans hw) nofun
      · exact absurd h hc
      · exact .inr (.inr ⟨hb, ho⟩)
  · exact .inl ⟨rest, hq⟩
  · exact absurd hk.status hne

end Sys2Proof.Machine

/-! Proofs of the memory family (20_memory.md): what each action of the host and each command does to data memory, the part
of the invariant that is not about memory, and the source bytes as all that a command reads of it. -/

namespace Sys2Proof.Machine

/-! ## Data memory under an action of the host -/

section HostMemory

variable {s t : State}

/-- No register write touches data memory (R253, R255, R256). -/
@[simp] theorem writeReg_mem (r : RegName) (v : Word) (s : State) : (writeReg r v s).mem = s.mem := by
  cases hs : s.eng with
  | idle =>
    obtain ⟨_, _, e⟩ | ⟨e, _⟩ := writeReg_idle r v hs
    · rw [e]; rfl
    · rw [e]
  | busy => obtain e | e | ⟨_, e⟩ | ⟨_, e⟩ := writeReg_busy r v hs <;> rw [e] <;> rfl

/-- No write transaction touches data memory (R250). -/
@[simp] theorem portWrite_mem (off : BitVec 12) (size : Nat) (v : Word) (s : State) : (portWrite off size v s).mem = s.mem := by
  obtain ⟨r, _, _, _, e⟩ | ⟨resp, e⟩ := portWrite_cases off size v s
  · rw [e]; exact writeReg_mem r v s
  · rw [e]; rfl

/-- What an action of the host leaves in data memory (R90, R301). -/
def HostAct.memAfter (a : HostAct) (s : State) : Memory :=
  match a with
  | .memWrite a v => s.mem.write a.toNat v
  | .reset => abandonedMem s
  | _ => s.mem

/-- A host read outside the guarded destination bytes answers the byte held (R90, R310). -/
theorem hostMemRead_next {a : Word} (hd : ¬s.guardsDest a.toNat = true) :
    hostMemRead a s = .next (s.answer (.memRead (s.readByte a.toNat))) := by
  rw [hostMemRead, if_neg hd]

/-- A host write outside the guarded bytes stores the byte (R90, R310). -/
theorem hostMemWrite_next {a : Word} {v : Byte} (hd : ¬s.guardsDest a.toNat = true) (hs : ¬s.guardsSource a.toNat = true) :
    hostMemWrite a v s = .next { s with mem := s.mem.write a.toNat v } := by
  rw [hostMemWrite, if_neg hd, if_neg hs]

/-- Every action of the host leaves in data memory what `HostAct.memAfter` says. -/
theorem hostAct_mem {a : HostAct} (h : hostAct a s = .next t) : t.mem = a.memAfter s := by
  cases a with
  | regWrite off size v =>
    rw [hostAct] at h
    obtain ⟨e, _⟩ | ⟨e, _⟩ := hostRegWrite_cases off size v s <;> rw [e] at h <;> cases h
    exact portWrite_mem off size v s
  | regRead off size => cases h; rfl
  | memRead a =>
    rw [hostAct, hostMemRead] at h
    split at h <;> cases h
    rfl
  | memWrite a v =>
    rw [hostAct, hostMemWrite] at h
    split at h
    · cases h
    · split at h <;> cases h
      rfl
  | waitDone => cases h; split <;> rfl
  | waitIrq =>
    rw [hostAct, hostSleep] at h
    split at h <;> cases h
    split <;> rfl
  | reset => cases h; rfl

/-- Whatever the host does, data memory stays in canonical form. -/
theorem HostAct.memAfter_wf (a : HostAct) (hm : s.mem.wf = true) : (a.memAfter s).wf = true := by
  cases a with
  | memWrite a v => exact Memory.write_wf hm a.isLt
  | reset => exact (abandonedMem_read hm).1
  | _ => exact hm

/-- The engine's turn keeps data memory in canonical form, whether or not CUR decodes. -/
theorem engineStep_wf (hm : s.mem.wf = true) (h : engineStep s = .next t) : t.mem.wf = true := by
  obtain ⟨e, _, rfl⟩ | ⟨i, _, hi⟩ := engineStep_cases h
  · exact hm
  · exact exec_wf hm hi

/-- Every step keeps data memory in canonical form (R90). -/
theorem step_wf (hm : s.mem.wf = true) (h : step s = .next t) : t.mem.wf = true := by
  obtain ⟨hb, hd⟩ | ht := turn_cases s
  · exact engineStep_wf hm (step_engine hb hd ▸ h)
  · cases hq : s.host with
    | nil =>
      rw [step_host_nil ht hq] at h
      cases h
      exact hm
    | cons a rest =>
      rw [step_host_cons ht hq] at h
      rw [hostAct_mem h]
      exact a.memAfter_wf (s := s.passed rest) hm

end HostMemory

/-! ## The flags and CUR -/

section Flags

variable {s t : State}

/-- The part of the invariant that is not about data memory: ERR only with an error code (R276), and while BUSY the flags that
acceptance cleared and the command it latched (R258, R60). -/
def State.FlagsAgree (s : State) : Prop :=
  (s.status.err = true → s.status.errcode ≠ .ok) ∧
    (s.eng = .busy → s.status.done = false ∧ s.status.err = false ∧ s.status.errcode = .ok ∧ s.cur = s.cfg.cmd)

/-- The invariant is canonical memory and flags that agree. -/
theorem State.inv_iff : s.Inv ↔ s.mem.wf = true ∧ s.FlagsAgree := Iff.rfl

/-- While IDLE only the error flag matters. -/
theorem State.FlagsAgree.of_idle (hi : s.eng = .idle) (he : s.status.err = true → s.status.errcode ≠ .ok) : s.FlagsAgree :=
  ⟨he, fun hb => absurd (hi.symm.trans hb) nofun⟩

/-- The flags of a state in which the block is unchanged agree as before. -/
theorem State.FlagsAgree.keepsBlock (hf : s.FlagsAgree) (hk : s.KeepsBlock t) : t.FlagsAgree := by
  rw [hk]; exact hf

/-- A write to STATUS may clear flags, and sets none (R37). -/
theorem State.FlagsAgree.acknowledge (hf : s.FlagsAgree) (v : Word) : (s.acknowledge v).FlagsAgree := by
  obtain ⟨herr, hbusy⟩ := hf
  refine ⟨fun h => herr (Bool.and_eq_true_iff.mp h).1, fun hb => ?_⟩
  obtain ⟨hdone, herr, hcode, hcur⟩ := hbusy hb
  simp [hdone, herr, hcode, hcur]

/-- Acceptance of a START clears the flags and latches CMD (R258). -/
theorem State.acceptStart_flagsAgree (s : State) : s.acceptStart.FlagsAgree := ⟨nofun, fun _ => ⟨rfl, rfl, rfl, rfl⟩⟩

/-- The engine's turn ends IDLE, with ERR only beside a code other than 0 (R276). -/
theorem engineStep_flagsAgree (h : engineStep s = .next t) : t.FlagsAgree := by
  refine .of_idle (engineStep_frame h).1 ?_
  obtain ⟨e, _, rfl⟩ | ⟨i, _, hi⟩ := engineStep_cases h
  · exact of_decide_eq_true
  · obtain ⟨_, _, _, herr, _⟩ := exec_frame hi
    exact herr.mp

/-- Every register write keeps the agreement of the flags: while IDLE it starts a command, writes STATUS or leaves the flags, and
while BUSY it changes no configuration register (R253, R255, R256). -/
theorem writeReg_flagsAgree (r : RegName) (v : Word) (hf : s.FlagsAgree) : (writeReg r v s).FlagsAgree := by
  cases hs : s.eng with
  | idle =>
    obtain ⟨_, _, e⟩ | ⟨e, hst | ⟨_, ha⟩⟩ := writeReg_idle r v hs
    · rw [e]; exact s.acceptStart_flagsAgree
    · exact .of_idle (by rw [e]; exact hs) (by rw [hst]; exact hf.1)
    · rw [ha]; exact hf.acknowledge v
  | busy =>
    obtain e | e | ⟨_, e⟩ | ⟨_, e⟩ := writeReg_busy r v hs <;> rw [e]
    · exact hf
    · exact hf
    · exact hf.acknowledge v
    · exact hf

/-- Every step keeps the agreement of the flags (R258, R276, R285). -/
theorem step_flagsAgree (hf : s.FlagsAgree) (h : step s = .next t) : t.FlagsAgree := by
  obtain ⟨_, _, he⟩ | ⟨off, v, rest, r, _, _, _, rfl⟩ | ⟨rest, _, rfl⟩ | hk := step_cases h
  · exact engineStep_flagsAgree he
  · exact writeReg_flagsAgree (s := s.passed rest) r v hf
  · exact .of_idle rfl nofun
  · exact hf.keepsBlock hk

end Flags

/-- Settles O60: canonical memory and the agreement of the flags are each kept by every step. -/
theorem stepKeepsTheInvariant : Obligations.StepKeepsTheInvariant := by
  intro s t hs h
  obtain ⟨hm, hf⟩ := State.inv_iff.mp hs
  exact State.inv_iff.mpr ⟨step_wf hm h, step_flagsAgree hf h⟩

/-- A guarded destination byte lies in the destination region of a command that runs, so the engine is BUSY (R310). -/
theorem busy_of_guardsDest {s : State} {a : Nat} (h : s.guardsDest a = true) : s.eng = .busy ∧ InDest s.cfg a := by
  obtain ⟨hc, hin⟩ := guardsDest_iff.mp h
  obtain ⟨_, hb, _⟩ := runningClass_eq_some.mp hc
  exact ⟨hb, hin⟩

/-- A guarded source byte lies in the source region of a command that runs, so the engine is BUSY (R310). -/
theorem busy_of_guardsSource {s : State} {a : Nat} (h : s.guardsSource a = true) : s.eng = .busy ∧ InSource s.cfg a := by
  obtain ⟨hc | hc, hin⟩ := guardsSource_iff.mp h <;> obtain ⟨_, hb, _⟩ := runningClass_eq_some.mp hc <;> exact ⟨hb, hin⟩

/-- Settles O50: a guarded byte lies in a buffer while BUSY, so neither access is a hazard. -/
theorem hostMemoryAccess : Obligations.HostMemoryAccess := by
  intro s rest a v hm hfree
  have hturn : s.hostTurn := hfree.imp id And.left
  have hdest : ¬(s.passed rest).guardsDest a.toNat = true := by
    intro hg
    obtain ⟨hb, hin⟩ := busy_of_guardsDest hg
    obtain hi | ⟨_, _, hout⟩ := hfree
    · exact absurd (hi.symm.trans hb) nofun
    · exact hout hin
  have hsource : ¬(s.passed rest).guardsSource a.toNat = true := by
    intro hg
    obtain ⟨hb, hin⟩ := busy_of_guardsSource hg
    obtain hi | ⟨_, hout, _⟩ := hfree
    · exact absurd (hi.symm.trans hb) nofun
    · exact hout hin
  refine ⟨fun hq => ?_, fun hq => ⟨s.mem.write a.toNat v, ?_, Memory.write_wf hm a.isLt, Memory.read_write hm⟩⟩
  · rw [step_host_cons hturn hq, hostAct, hostMemRead_next hdest]
    rfl
  · rw [step_host_cons hturn hq, hostAct, hostMemWrite_next hdest hsource]
    rfl

/-! ## Data memory under a command -/

section CommandMemory

variable {i : Instr} {s t : State} {c : ConfigRegs} {a : Nat}

/-- Only a pixel command has an effect on data memory (R97, R227). -/
theorem effectOf_mem (hc : commandClass i ≠ .pixel) : (effectOf i s).mem = s.mem := by
  cases i with
  | nop => rfl
  | histClear => rfl
  | histColor => simp [effectOf, State.scan]
  | histGray => simp [effectOf, State.scan]
  | histCum => simp [effectOf, State.scan]
  | _ => exact absurd rfl hc

/-- Everything a command can do to data memory: nothing, or a pixel command with valid buffers drives its pixels. -/
theorem exec_mem_cases (h : exec i s = .next t) :
    t.mem = s.mem ∨ (commandClass i = .pixel ∧ ValidPixel s.cfg ∧ ∃ f, effectOf i = drivePixels f ∧ t.mem = (drivePixels f s).mem) := by
  obtain ⟨e, _, _, rfl⟩ | ⟨hv, rfl⟩ := exec_cases h
  · exact .inl rfl
  · by_cases hc : commandClass i = .pixel
    · obtain ⟨f, hf⟩ := effectOf_pixel hc
      exact .inr ⟨hc, ((validate_pixel hc).mp hv).1, f, hf, by rw [hf]; rfl⟩
    · exact .inl (effectOf_mem hc)

/-- A valid buffer has four bytes for each pixel (R271). -/
theorem ValidPixel.srcLen_eq (hv : ValidPixel c) : c.srcLen.toNat = 4 * c.width.toNat * c.height.toNat := by
  obtain ⟨⟨_, _, _, hlen, _⟩, _⟩ := hv
  exact hlen

/-- A valid destination region fits in data memory (R273). -/
theorem ValidPixel.dest_le (hv : ValidPixel c) : c.dstBase.toNat + 4 * c.width.toNat * c.height.toNat ≤ 2 ^ 32 := by
  rw [← hv.srcLen_eq]
  exact hv.2.1

/-- A byte of the source region of a valid pixel command is outside its destination region (R274). -/
theorem ValidPixel.source_outside (hv : ValidPixel c) (ha : InSource c a) :
    a < c.dstBase.toNat ∨ c.dstBase.toNat + 4 * c.width.toNat * c.height.toNat ≤ a := by
  rw [← hv.srcLen_eq]
  obtain ⟨_, _, hapart⟩ := hv
  obtain ⟨h₁, h₂⟩ := ha
  omega

/-- Every byte of the destination buffer is the driver's, whatever memory held (R150). -/
theorem drivePixels_read_dest {f : State → Nat → Nat → Pixel} (hm : s.mem.wf = true) (hv : ValidPixel s.cfg)
    (ha : InDest s.cfg a) :
    (drivePixels f s).readByte a =
      (imageBytes s.cfg.width.toNat s.cfg.height.toNat (f s)).getD (a - s.cfg.dstBase.toNat) 0 := by
  obtain ⟨h₁, h₂⟩ := ha
  have hlen := imageBytes_length s.cfg.width.toNat s.cfg.height.toNat (f s)
  have hsrc := hv.srcLen_eq
  rw [State.readByte, State.drivePixels_mem, Memory.read_writeBytes hm (by rw [hlen]; exact hv.dest_le), if_pos (by rw [hlen]; omega)]

/-- Settles O26: only a pixel command writes memory, and only in its destination region, which is apart from its source. -/
theorem noCommandWritesTheSourceRegion : Obligations.NoCommandWritesTheSourceRegion := by
  intro i s t a hm h ha
  obtain e | ⟨_, hv, f, _, e⟩ := exec_mem_cases h
  · rw [State.readByte, e]
    rfl
  · rw [State.readByte, e]
    exact drivePixels_read_outside hm hv.dest_le (hv.source_outside ha)

end CommandMemory

/-! ## What a command reads (R101) -/

section SameSource

variable {i : Instr} {s₁ s₂ : State}

/-- A convolved pixel depends on the registers and the source bytes alone (R101, R151). -/
theorem SameSource.conv (h : SameSource s₁ s₂) (k : Kernel) {x y : Nat} (hx : x < s₁.cfg.width.toNat) (hy : y < s₁.cfg.height.toNat) :
    s₁.conv k x y = s₂.conv k x y := by
  have hch : ∀ ch < 4, s₁.convChannel k x y ch = s₂.convChannel k x y ch := fun ch hc => by
    rw [State.convChannel, h.weightedSum k x y hc, State.convChannel]
  rw [State.conv, hch 0 (by decide), hch 1 (by decide), hch 2 (by decide), h.src hx hy (by decide), State.conv]

/-- The gradient magnitude of a pixel depends on the registers and the source bytes alone (R101, R191). -/
theorem SameSource.magPixel (h : SameSource s₁ s₂) (c x y : Nat) : s₁.magPixel c x y = s₂.magPixel c x y := by
  have hch : ∀ ch < 4, s₁.mag c x y ch = s₂.mag c x y ch := fun ch hc => by
    rw [State.mag, h.weightedSum _ x y hc, h.weightedSum _ x y hc, State.mag]
  rw [State.magPixel, hch 0 (by decide), hch 1 (by decide), hch 2 (by decide), State.magPixel]

/-- The median of a neighbourhood depends on the registers and the source bytes alone (R101, R170). -/
theorem SameSource.med (h : SameSource s₁ s₂) (x y : Nat) : s₁.med x y = s₂.med x y := by
  rw [State.med, h.redSamples, State.med]

/-- The variation value depends on the registers and the source bytes alone (R101, R181). -/
theorem SameSource.var (h : SameSource s₁ s₂) {x y : Nat} (hx : x < s₁.cfg.width.toNat) (hy : y < s₁.cfg.height.toNat) :
    s₁.var x y = s₂.var x y := by
  rw [State.var, h.redSamples, h.src hx hy (by decide), State.var]

/-- The luma depends on the registers and the source bytes alone (R101, R240). -/
theorem SameSource.luma (h : SameSource s₁ s₂) {x y : Nat} (hx : x < s₁.cfg.width.toNat) (hy : y < s₁.cfg.height.toNat) :
    s₁.luma x y = s₂.luma x y := by
  have hch : ∀ ch < 4, s₁.src x y ch = s₂.src x y ch := fun _ => h.src hx hy
  simp [State.luma, hch]

/-- A pixel command drives a per-pixel function of the registers and the source bytes (R101, R150). -/
theorem SameSource.pixel_congr (h : SameSource s₁ s₂) (hc : commandClass i = .pixel) :
    ∃ f, effectOf i = drivePixels f ∧ ∀ x y, x < s₁.cfg.width.toNat → y < s₁.cfg.height.toNat → f s₁ x y = f s₂ x y := by
  cases i with
  | convMean3 => exact ⟨_, rfl, fun _ _ => h.conv _⟩
  | convGauss3 => exact ⟨_, rfl, fun _ _ => h.conv _⟩
  | convGauss5 => exact ⟨_, rfl, fun _ _ => h.conv _⟩
  | convCustom => exact ⟨_, rfl, fun x y hx hy => by rw [← h.cfg]; exact h.conv _ hx hy⟩
  | median3 => exact ⟨_, rfl, fun x y _ _ => h.med x y⟩
  | variation5 => exact ⟨_, rfl, fun _ _ => h.var⟩
  | gradMag c => exact ⟨_, rfl, fun x y _ _ => h.magPixel c x y⟩
  | gradX c => exact ⟨_, rfl, fun _ _ => h.conv _⟩
  | gradY c => exact ⟨_, rfl, fun _ _ => h.conv _⟩
  | grayLuma => exact ⟨_, rfl, fun _ _ => h.luma⟩
  | _ => cases hc

/-- The bytes of an image depend on its own pixels alone. -/
theorem imageBytes_congr {w h : Nat} {f g : Nat → Nat → Pixel} (hfg : ∀ x y, x < w → y < h → f x y = g x y) :
    imageBytes w h f = imageBytes w h g := by
  refine List.flatMap_congr fun y hy => List.flatMap_congr fun x hx => ?_
  rw [hfg x y (List.mem_range.mp hx) (List.mem_range.mp hy)]

/-- The red sample of a pixel of the image depends on the registers and the source bytes alone (R101, R212). -/
theorem SameSource.red (h : SameSource s₁ s₂) {p : Nat} (hp : p < s₁.cfg.width.toNat * s₁.cfg.height.toNat) :
    s₁.red p = s₂.red p := by
  obtain ⟨_, _, _, hlen, _⟩ := h.valid
  have hin : InSource s₁.cfg (s₁.cfg.srcBase.toNat + 4 * p) := by
    rw [Nat.mul_assoc] at hlen
    exact ⟨by omega, by omega⟩
  rw [State.red, h.bytes _ hin, h.cfg]
  rfl

/-- The number of red samples of a value depends on the registers and the source bytes alone (R101, R217). -/
theorem SameSource.redCount (h : SameSource s₁ s₂) (v : Nat) : s₁.redCount v = s₂.redCount v := by
  rw [← countP_red, ← countP_red, ← h.cfg]
  congr 1
  exact List.map_congr_left fun p hp => h.red (List.mem_range.mp hp)

/-- A scan's HIST depends on HIST, the registers and the source bytes alone (R101, R217). -/
theorem SameSource.scan_hist_congr (h : SameSource s₁ s₂) (hh : s₁.hist = s₂.hist) {g : State → Nat → List Byte}
    (hg : g = columnSamples ∨ g = indexSamples) : (s₁.scan g).hist = (s₂.scan g).hist :=
  Bank.ext_nth fun v hv => by rw [scan_hist_net hg hv, scan_hist_net hg hv, hh, h.redCount]

/-- A running sum depends on HIST alone (R218). -/
theorem cumulate_cum_congr (hh : s₁.hist = s₂.hist) : s₁.cumulate.cum = s₂.cumulate.cum :=
  Bank.ext_cells (by rw [State.cumulate_cum, State.cumulate_cum, hh])

/-- Every command's effect on HIST depends on HIST and, for a scan, the registers and the source bytes alone (R101). -/
theorem effectOf_hist_congr (hh : s₁.hist = s₂.hist) (hs : commandClass i = .scan → SameSource s₁ s₂) :
    (effectOf i s₁).hist = (effectOf i s₂).hist := by
  cases i with
  | histColor => exact (hs rfl).scan_hist_congr hh (.inl rfl)
  | histGray => exact (hs rfl).scan_hist_congr hh (.inr rfl)
  | histCum =>
    rw [effectOf, State.cumulate_hist, State.cumulate_hist]
    exact (hs rfl).scan_hist_congr hh (.inr rfl)
  | histClear => rfl
  | _ => exact hh

/-- CUM after a command that computes it depends on the same (R101, R218, R225). -/
theorem effectOf_cum_congr (hh : s₁.hist = s₂.hist) (hs : commandClass i = .scan → SameSource s₁ s₂) (hi : i = .histCum ∨ i = .histClear) :
    (effectOf i s₁).cum = (effectOf i s₂).cum := by
  obtain rfl | rfl := hi
  · exact cumulate_cum_congr ((hs rfl).scan_hist_congr hh (.inr rfl))
  · rfl

/-- The destination bytes of a pixel command depend on the registers and the source bytes alone (R101). -/
theorem SameSource.effectOf_readByte (h : SameSource s₁ s₂) (hc : commandClass i = .pixel) (hv : ValidPixel s₁.cfg) (hm₁ : s₁.mem.wf = true)
    (hm₂ : s₂.mem.wf = true) {a : Nat} (ha : InDest s₁.cfg a) : (effectOf i s₁).readByte a = (effectOf i s₂).readByte a := by
  obtain ⟨f, hf, hpix⟩ := h.pixel_congr hc
  rw [hf, drivePixels_read_dest hm₁ hv ha, drivePixels_read_dest hm₂ (h.cfg ▸ hv) (h.cfg ▸ ha), ← h.cfg, imageBytes_congr hpix]

/-- Settles O28: both states fail with the same code, or both pass validation and the effect reads the source bytes alone. -/
theorem commandsDependOnlyOnRegistersHistAndSource : Obligations.CommandsDependOnlyOnRegistersHistAndSource := by
  intro i s₁ s₂ t₁ t₂ hm₁ hm₂ hcfg hhist hbytes h₁ h₂
  obtain ⟨e, he, hne, rfl⟩ | ⟨hv, rfl⟩ := exec_cases h₁
  · obtain ⟨e', he', _, rfl⟩ | ⟨hv', _⟩ := exec_cases h₂
    · rw [hcfg, he'] at he
      exact ⟨(Option.some.inj he).symm, hhist, fun _ hok => absurd hok hne, fun _ hok => absurd hok hne⟩
    · rw [hcfg, hv'] at he
      cases he
  · obtain ⟨e', he', _⟩ | ⟨_, rfl⟩ := exec_cases h₂
    · rw [hcfg, he'] at hv
      cases hv
    · have hscan : commandClass i = .scan → SameSource s₁ s₂ := fun hc => ⟨hcfg, (validate_scan hc).mp hv, hbytes⟩
      refine ⟨rfl, effectOf_hist_congr hhist hscan, fun hi _ => effectOf_cum_congr hhist hscan hi, fun hc _ a ha => ?_⟩
      have hpix := ((validate_pixel hc).mp hv).1
      exact SameSource.effectOf_readByte ⟨hcfg, hpix.1, hbytes⟩ hc hpix hm₁ hm₂ ha

end SameSource

end Sys2Proof.Machine

/-! Proofs of the encoding family (30_encoding.md): a command word as its four fields, what the decoder makes of them, and from
that both directions between commands and words; then the host's waits and its notation. -/

namespace Sys2Proof.Machine

section Fields

/-! ## A word as its fields (R121) -/

/-- The command word of R121: reserved [31:12], GC [11:8], reserved [7:6], OP [5:0]. -/
def wordOf (top : BitVec 20) (gc : BitVec 4) (mid : BitVec 2) (op : BitVec 6) : Word := top ++ gc ++ mid ++ op

variable (top : BitVec 20) (gc : BitVec 4) (mid : BitVec 2) (op : BitVec 6)

/-- An appended vector counts from the first bit above the other. -/
theorem append_toNat {m n : Nat} (x : BitVec m) (y : BitVec n) : (x ++ y).toNat = x.toNat * 2 ^ n + y.toNat := by
  rw [BitVec.toNat_append, ← Nat.shiftLeft_add_eq_or_of_lt y.isLt, Nat.shiftLeft_eq]

/-- The number of a word, field by field. -/
theorem wordOf_toNat : (wordOf top gc mid op).toNat = top.toNat * 4096 + gc.toNat * 256 + mid.toNat * 64 + op.toNat := by
  rw [wordOf]
  simp only [append_toNat]
  omega

/-- Every word is made of its fields. -/
theorem exists_wordOf (w : Word) : ∃ top gc mid op, w = wordOf top gc mid op := by
  refine ⟨w.extractLsb' 12 20, w.extractLsb' 8 4, w.extractLsb' 6 2, w.extractLsb' 0 6, ?_⟩
  apply BitVec.eq_of_toNat_eq
  simp only [wordOf_toNat, BitVec.extractLsb'_toNat, Nat.shiftRight_eq_div_pow]
  omega

/-- What the decoder reads from the fields of a word are those fields. -/
theorem field_wordOf :
    field (wordOf top gc mid op) 31 12 = top.toNat ∧ field (wordOf top gc mid op) 11 8 = gc.toNat ∧
      field (wordOf top gc mid op) 7 6 = mid.toNat ∧ field (wordOf top gc mid op) 5 0 = op.toNat := by
  simp only [field, wordOf_toNat]
  omega

/-- A mask acts on each field by itself. -/
theorem wordOf_and (top' : BitVec 20) (gc' : BitVec 4) (mid' : BitVec 2) (op' : BitVec 6) :
    wordOf top gc mid op &&& wordOf top' gc' mid' op' = wordOf (top &&& top') (gc &&& gc') (mid &&& mid') (op &&& op') := by
  have hmid : (top ++ gc ++ mid) &&& (top' ++ gc' ++ mid') = (top &&& top') ++ (gc &&& gc') ++ (mid &&& mid') := by
    rw [BitVec.and_append, BitVec.and_append]
  exact BitVec.and_append.trans (congrArg (· ++ (op &&& op')) hmid)

/-- The mask of the reserved bits (R128). -/
theorem reserved_eq_zero_iff : wordOf top gc mid op &&& 0xFFFFF0C0 = 0 ↔ top = 0#20 ∧ mid = 0#2 := by
  have hmask : (0xFFFFF0C0 : Word) = wordOf (BitVec.allOnes 20) 0#4 (BitVec.allOnes 2) 0#6 := rfl
  rw [hmask, wordOf_and, ← BitVec.toNat_inj, wordOf_toNat, ← BitVec.toNat_inj, ← BitVec.toNat_inj]
  simp only [BitVec.and_allOnes, BitVec.and_zero, BitVec.ofNat_eq_ofNat, BitVec.toNat_zero]
  omega

/-- The mask of OP. -/
theorem op_toNat : (wordOf top gc mid op &&& 0x3F).toNat = op.toNat := by
  have hmask : (0x3F : Word) = wordOf 0#20 0#4 0#2 (BitVec.allOnes 6) := rfl
  rw [hmask, wordOf_and, wordOf_toNat]
  simp only [BitVec.and_allOnes, BitVec.and_zero, BitVec.toNat_zero, Nat.zero_mul, Nat.zero_add]

/-- The mask that clears GC. -/
theorem clearGc_wordOf : wordOf top gc mid op &&& 0xFFFFF0FF = wordOf top 0#4 mid op := by
  have hmask : (0xFFFFF0FF : Word) = wordOf (BitVec.allOnes 20) 0#4 (BitVec.allOnes 2) (BitVec.allOnes 6) := rfl
  simp only [hmask, wordOf_and, BitVec.and_allOnes, BitVec.and_zero]

/-- `enc` is GC shifted by 8 and OP (R132). -/
theorem enc_toNat (n : BitVec 4) : (enc op n).toNat = n.toNat * 256 + op.toNat := by
  rw [enc, BitVec.toNat_setWidth, append_toNat, append_toNat, BitVec.toNat_ofNat]
  omega

/-- `enc` fills GC and OP and leaves the reserved bits 0 (R132). -/
theorem enc_eq_wordOf (n : BitVec 4) : enc op n = wordOf 0#20 n 0#2 op := by
  apply BitVec.eq_of_toNat_eq
  rw [enc_toNat, wordOf_toNat, BitVec.toNat_ofNat, BitVec.toNat_ofNat]
  omega

end Fields

section Decoder

/-! ## What the decoder makes of the fields (R126) -/

/-- A command with the gradient constant of the field GC, where it has one (R121, R128). -/
def withConstant (gc : BitVec 4) : Instr → Instr
  | .gradMag _ => .gradMag gc.toNat
  | .gradX _ => .gradX gc.toNat
  | .gradY _ => .gradY gc.toNat
  | i => i

/-- A constant from the field GC fits that field. -/
theorem withConstant_wellFormed (gc : BitVec 4) (i : Instr) : (withConstant gc i).wellFormed = true := by
  cases i with
  | gradMag c => exact decide_eq_true gc.isLt
  | gradX c => exact decide_eq_true gc.isLt
  | gradY c => exact decide_eq_true gc.isLt
  | _ => rfl

/-- The constant is no part of the opcode. -/
theorem opcode_withConstant (gc : BitVec 4) (i : Instr) : opcode (withConstant gc i) = opcode i := by
  cases i <;> rfl

/-- A constant set twice is a constant set. -/
theorem withConstant_withConstant (gc : BitVec 4) (i : Instr) : withConstant gc (withConstant gc i) = withConstant gc i := by
  cases i <;> rfl

/-- A command whose opcode is not a gradient's has no constant (R124, R128). -/
theorem withConstant_of_not_gradient (gc : BitVec 4) {i : Instr} (h : (opcode i).toNat ∉ [0x10, 0x11, 0x12]) :
    withConstant gc i = i := by
  cases i with
  | gradMag c => exact absurd (by simp [opcode]) h
  | gradX c => exact absurd (by simp [opcode]) h
  | gradY c => exact absurd (by simp [opcode]) h
  | _ => rfl

/-- A well-formed command has the constant that its GC field is written with. -/
theorem withConstant_gcField {i : Instr} (h : i.wellFormed = true) : withConstant (gcField i) i = i := by
  have hfit : ∀ {c : Nat}, gcFits c = true → (BitVec.ofNat 4 c).toNat = c := fun hc =>
    (BitVec.toNat_ofNat ..).trans (Nat.mod_eq_of_lt (of_decide_eq_true hc))
  cases i with
  | gradMag c => exact congrArg _ (hfit h)
  | gradX c => exact congrArg _ (hfit h)
  | gradY c => exact congrArg _ (hfit h)
  | _ => rfl

variable {top : BitVec 20} {gc : BitVec 4} {mid : BitVec 2} {op : BitVec 6} {i : Instr}

/-- A word decodes to a command exactly where the reserved bits are 0, OP is the command's, and the command's constant, if it has
one, is GC (R126, R128). -/
theorem decode_wordOf_eq_ok :
    decode (wordOf top gc mid op) = .ok i ↔ top = 0#20 ∧ mid = 0#2 ∧ op = opcode i ∧ withConstant gc i = i := by
  obtain ⟨htop, hgc, hmid, hop⟩ := field_wordOf top gc mid op
  unfold decode
  rw [htop, hgc, hmid, hop]
  constructor
  · intro h
    split at h
    · cases h
    · next hres =>
      obtain ⟨h₁, h₂⟩ := not_or.mp hres
      refine ⟨BitVec.eq_of_toNat_eq (not_not.mp h₁), BitVec.eq_of_toNat_eq (not_not.mp h₂), ?_⟩
      split at h <;> cases h
      all_goals next hcode => exact ⟨BitVec.eq_of_toNat_eq hcode, rfl⟩
  · rintro ⟨rfl, rfl, rfl, hconst⟩
    cases i with
    | gradMag c => exact congrArg Except.ok hconst
    | gradX c => exact congrArg Except.ok hconst
    | gradY c => exact congrArg Except.ok hconst
    | _ => rfl

/-- The word of a command, field by field (R121, R132). -/
theorem encode_eq_wordOf (i : Instr) : encode i = wordOf 0#20 (gcField i) 0#2 (opcode i) := enc_eq_wordOf _ _

/-- Two words decode alike if every command is read from one exactly where it is read from the other, since there is one code for all
that are refused (R129). -/
theorem decode_congr {v w : Word} (h : ∀ i, decode v = .ok i ↔ decode w = .ok i) : decode v = decode w := by
  cases hv : decode v with
  | ok i => exact ((h i).mp hv).symm
  | error e =>
    cases hw : decode w with
    | ok i => exact absurd (hv.symm.trans ((h i).mpr hw)) nofun
    | error e' => rw [decode_error hv, decode_error hw]

/-- The 15 values of OP that R122 assigns. -/
def assignedOps : List Nat :=
  [0x00, 0x01, 0x02, 0x03, 0x04, 0x08, 0x0C, 0x10, 0x11, 0x12, 0x18, 0x19, 0x1A, 0x1B, 0x20]

/-- The assigned values of OP are the opcodes of the commands. -/
theorem mem_assignedOps_iff : op.toNat ∈ assignedOps ↔ ∃ i, op = opcode i := by
  constructor
  · intro h
    have hmap : assignedOps =
        [Instr.nop, .convMean3, .convGauss3, .convGauss5, .convCustom, .median3, .variation5, .gradMag 0, .gradX 0, .gradY 0,
          .histColor, .histGray, .histCum, .histClear, .grayLuma].map fun i => (opcode i).toNat := rfl
    rw [hmap] at h
    obtain ⟨i, _, hop⟩ := List.mem_map.mp h
    exact ⟨i, BitVec.eq_of_toNat_eq hop.symm⟩
  · rintro ⟨i, rfl⟩
    cases i <;> simp [opcode, assignedOps]

/-- The values of OP that R127 lists as unassigned, and all from 0x21 on, are none of the 15. -/
theorem notMem_assignedOps {n : Nat}
    (h : n ∈ [0x05, 0x06, 0x07, 0x09, 0x0A, 0x0B, 0x0D, 0x0E, 0x0F, 0x13, 0x14, 0x15, 0x16, 0x17, 0x1C, 0x1D, 0x1E, 0x1F] ∨ 0x21 ≤ n) :
    n ∉ assignedOps := by
  have hapart : ∀ m ∈ assignedOps,
      m ∉ [0x05, 0x06, 0x07, 0x09, 0x0A, 0x0B, 0x0D, 0x0E, 0x0F, 0x13, 0x14, 0x15, 0x16, 0x17, 0x1C, 0x1D, 0x1E, 0x1F] ∧ m < 0x21 := by
    decide
  intro hmem
  obtain ⟨hout, hlt⟩ := hapart n hmem
  exact h.elim hout (Nat.not_le.mpr hlt)

/-- A word is some command's exactly where the reserved bits are 0 and OP is an opcode, whatever GC holds (R129). -/
theorem exists_decode_wordOf_eq_ok :
    (∃ i, decode (wordOf top gc mid op) = .ok i) ↔ top = 0#20 ∧ mid = 0#2 ∧ ∃ i, op = opcode i := by
  simp only [decode_wordOf_eq_ok]
  constructor
  · rintro ⟨i, htop, hmid, hop, _⟩
    exact ⟨htop, hmid, i, hop⟩
  · rintro ⟨htop, hmid, i, rfl⟩
    exact ⟨withConstant gc i, htop, hmid, (opcode_withConstant gc i).symm, withConstant_withConstant gc i⟩

/-- A word is refused exactly where it is no command's (R129). -/
theorem exists_decode_eq_error (w : Word) : (∃ e, decode w = .error e) ↔ ¬∃ i, decode w = .ok i := by
  cases decode w <;> simp

/-- A word that does not decode ends the engine's turn with its code (R127, R128). -/
theorem engineStep_of_decode_error {s : State} {e : ErrorCode} (h : decode s.cur = .error e) :
    engineStep s = .next (s.terminate e) := by
  rw [engineStep, fetch, h]

end Decoder

/-! ## The obligations: commands and words -/

/-- Settles O2: the decoder reads the fields that the encoder wrote. -/
theorem decodeOfEncodeIsTheCommand : Obligations.DecodeOfEncodeIsTheCommand := by
  intro i h
  rw [encode_eq_wordOf, decode_wordOf_eq_ok]
  exact ⟨rfl, rfl, rfl, withConstant_gcField h⟩

/-- Settles O3: the fields of a word that decodes are its command's, GC only where the command has a constant. -/
theorem decodedWordIsTheCommandsWord : Obligations.DecodedWordIsTheCommandsWord := by
  intro w i h
  obtain ⟨top, gc, mid, op, rfl⟩ := exists_wordOf w
  obtain ⟨rfl, rfl, rfl, hgc⟩ := decode_wordOf_eq_ok.mp h
  rw [← hgc, encode_eq_wordOf, clearGc_wordOf]
  refine ⟨withConstant_wellFormed gc i, ?_⟩
  have hof : BitVec.ofNat 4 gc.toNat = gc := (BitVec.ofNat_toNat 4 gc).trans (BitVec.setWidth_eq gc)
  cases i with
  | gradMag c => exact congrArg (wordOf _ · _ _) hof
  | gradX c => exact congrArg (wordOf _ · _ _) hof
  | gradY c => exact congrArg (wordOf _ · _ _) hof
  | _ => rfl

/-- Settles O4: a word is refused where it is no command's, and the two masks are the reserved bits and OP. -/
theorem refusedWordsAreReservedOrUnassigned : Obligations.RefusedWordsAreReservedOrUnassigned := by
  intro w
  obtain ⟨top, gc, mid, op, rfl⟩ := exists_wordOf w
  refine ⟨?_, fun e => decode_error⟩
  show _ ↔ _ ≠ 0 ∨ _ ∉ assignedOps
  rw [exists_decode_eq_error, exists_decode_wordOf_eq_ok, op_toNat, mem_assignedOps_iff, ne_eq, reserved_eq_zero_iff, ← and_assoc,
    not_and_or]

/-- Settles O7: the 49 other values of OP are none of the 15, so the word is refused; and GC matters to a gradient only. -/
theorem illegalCommandWordTerminates : Obligations.IllegalCommandWordTerminates := by
  refine ⟨fun s hb hd h => ?_, fun w h => ?_⟩
  · obtain ⟨hiff, hcode⟩ := refusedWordsAreReservedOrUnassigned s.cur
    obtain ⟨e, he⟩ := hiff.mpr (h.imp_right notMem_assignedOps)
    rw [step_engine hb hd, engineStep_of_decode_error he, hcode e he]
    rfl
  · obtain ⟨top, gc, mid, op, rfl⟩ := exists_wordOf w
    rw [op_toNat] at h
    rw [clearGc_wordOf]
    refine decode_congr fun i => ?_
    simp only [decode_wordOf_eq_ok]
    refine and_congr_right fun _ => and_congr_right fun _ => and_congr_right fun hop => ?_
    rw [hop] at h
    rw [withConstant_of_not_gradient gc h, withConstant_of_not_gradient 0#4 h]

/-- Settles O1: the encoder gives the table's words, and each decodes since it is its command's word. -/
theorem commandWordsOfNamedOperations : Obligations.CommandWordsOfNamedOperations := by
  intro p hp
  obtain ⟨hword, hwf⟩ : encode p.2 = p.1 ∧ p.2.wellFormed = true := by
    revert p; decide
  exact ⟨hword, hword ▸ decodeOfEncodeIsTheCommand p.2 hwf⟩

/-- Settles O5: the class of each command against the three lists. -/
theorem commandClasses : Obligations.CommandClasses := by
  intro i
  cases i <;> simp [commandClass]

/-! ## The obligations: the host -/

/-- A read of STATUS answers its word (R250, R252). -/
theorem portRead_status (s : State) : portRead 0x00C 32 s = s.okayedRead s.statusWord := rfl

/-- A host that has cleared DONE and ERR sleeps until `irq` is 1 (R262). -/
theorem hostSleep_next {s : State} (hd : s.duties.doneOwed = false) (he : s.duties.errOwed = false) :
    hostSleep s = .next (if s.irq then s else { s with host := .waitIrq :: s.host }) := by
  rw [hostSleep, hd, he]
  rfl

/-- Settles O48: a wait is one read of STATUS and a sleep none, and each stays on the queue while its condition does not hold. -/
theorem hostWaitsForTermination : Obligations.HostWaitsForTermination := by
  refine fun s rest ht => ⟨fun hq => ?_, fun hd he hq => ?_⟩
  · rw [step_host_cons ht hq, hostAct, portRead_status, portRead_status]
    have hdone : (s.passed rest).status = s.status := rfl
    rw [hdone]
    split <;> rfl
  · rw [step_host_cons ht hq, hostAct, hostSleep_next (s := s.passed rest) hd he]
    have hirq : (s.passed rest).irq = s.irq := rfl
    rw [hirq]
    split <;> rfl

/-- Settles O49: each statement expands to its transactions, and a product below `2^32` is the product of words. -/
theorem pseudoOperationsExpand : Obligations.PseudoOperationsExpand := by
  refine ⟨fun op n => ⟨enc_toNat op n, rfl⟩, ?_, rfl, fun w h sb db => ⟨4 * w * h, rfl, fun hfit => ?_⟩⟩
  · decide
  · rw [BitVec.toNat_mul, BitVec.toNat_mul, Nat.mod_mul_mod]
    exact Nat.mod_eq_of_lt hfit

end Sys2Proof.Machine

/-! Proofs of the convolution family (40_convolution.md): what every convolution command does, a blur as a weighted mean of its
taps, and the host's kernel as a sum over rows and columns; then what a pixel command leaves and where its taps stand. -/

namespace Sys2Proof.Machine

section Convolution

variable {i : Instr} {s : State} {k : Kernel} {x y ch : Nat}

/-! ## What a convolution command does (R151) -/

/-- The bytes of a convolved pixel are its channel values, uncut, and the source's alpha (R151). -/
theorem conv_chan (s : State) (k : Kernel) (x y : Nat) :
    (∀ ch, ch < 3 → ((s.conv k x y).chan ch).toNat = s.convChannel k x y ch) ∧ (s.conv k x y).chan 3 = s.src x y 3 := by
  refine ⟨fun ch hch => ?_, rfl⟩
  have hbyte : (toByte (s.convChannel k x y ch)).toNat = s.convChannel k x y ch := toByte_toNat (Nat.min_le_left ..)
  obtain rfl | rfl | rfl : ch = 0 ∨ ch = 1 ∨ ch = 2 := by omega
  all_goals exact hbyte

/-- A convolution command with valid operands completes, with each pixel convolved and its alpha kept (R151). -/
theorem exec_conv {kernel : State → Kernel} (hf : effectOf i = drivePixels fun s => s.conv (kernel s)) (hc : commandClass i = .pixel)
    (hm : s.mem.wf = true) (hv : ValidPixel s.cfg) (hk : i = .convCustom → ValidKernel s.cfg) :
    ∃ t, exec i s = .next t ∧ t = s.finished t.mem ∧
      ∀ x y, x < s.cfg.width.toNat → y < s.cfg.height.toNat →
        (∀ ch, ch < 3 → (t.dstByte x y ch).toNat = s.convChannel (kernel s) x y ch) ∧ t.dstByte x y 3 = s.src x y 3 := by
  obtain ⟨t, he, ht, hdst, _⟩ := exec_pixel hf hc hm hv hk
  refine ⟨t, he, ht, fun x y hx hy => ?_⟩
  obtain ⟨hcolour, halpha⟩ := conv_chan s (kernel s) x y
  refine ⟨fun ch hch => ?_, ?_⟩
  · rw [hdst x y ch hx hy (by omega), hcolour ch hch]
  · rw [hdst x y 3 hx hy (by decide), halpha]

/-! ## Blurs: kernels that take a weighted mean (R51) -/

/-- The sum of a kernel's weights. -/
def Kernel.total (k : Kernel) : Int :=
  ((offsets k.radius).map fun ky => ((offsets k.radius).map fun kx => k.weight kx ky).sum).sum

/-- A kernel whose weights are not negative and sum up to its normalizer, which is not 0. -/
structure Kernel.IsMean (k : Kernel) : Prop where
  nonneg : ∀ ky ∈ offsets k.radius, ∀ kx ∈ offsets k.radius, 0 ≤ k.weight kx ky
  total_eq : k.total = k.norm
  norm_pos : 0 < k.norm

theorem kernelMean3_isMean : kernelMean3.IsMean := ⟨by decide, by decide, by decide⟩

theorem kernelGauss3_isMean : kernelGauss3.IsMean := ⟨by decide, by decide, by decide⟩

theorem kernelGauss5_isMean : kernelGauss5.IsMean := ⟨by decide, by decide, by decide⟩

/-- A weighted sum of one value is that value times the sum of the weights. -/
theorem Kernel.sum_mul_const (k : Kernel) (v : Int) :
    ((offsets k.radius).map fun ky => ((offsets k.radius).map fun kx => k.weight kx ky * v).sum).sum = k.total * v := by
  simp only [List.sum_map_mul_right, Kernel.total]

/-- The weighted sum of a mean lies between the bounds of its taps, times the normalizer. -/
theorem Kernel.IsMean.weightedSum_bounds (hk : k.IsMean) {lo hi : Int}
    (h : ∀ kx ky, lo ≤ s.sample x y ch kx ky ∧ s.sample x y ch kx ky ≤ hi) :
    k.norm * lo ≤ s.weightedSum k x y ch ∧ s.weightedSum k x y ch ≤ k.norm * hi := by
  rw [← hk.total_eq, ← k.sum_mul_const, ← k.sum_mul_const]
  constructor
  · exact List.sum_le_sum fun ky hky => List.sum_le_sum fun kx hkx =>
      mul_le_mul_of_nonneg_left (h kx ky).1 (hk.nonneg ky hky kx hkx)
  · exact List.sum_le_sum fun ky hky => List.sum_le_sum fun kx hkx =>
      mul_le_mul_of_nonneg_left (h kx ky).2 (hk.nonneg ky hky kx hkx)

/-- For a mean neither the absolute value nor the cap of R151 does anything. -/
theorem Kernel.IsMean.convChannel_eq (hk : k.IsMean) : (s.convChannel k x y ch : Int) = s.weightedSum k x y ch / k.norm := by
  obtain ⟨hlo, hhi⟩ := hk.weightedSum_bounds fun kx ky => s.sample_bounds x y ch kx ky
  obtain ⟨n, hn⟩ := Int.eq_ofNat_of_zero_le ((Int.mul_zero _).symm.trans_le hlo)
  have hcap : n / k.norm ≤ 255 := Nat.div_le_of_le_mul (by rw [hn] at hhi; exact_mod_cast hhi)
  rw [State.convChannel, hn, Int.natAbs_natCast, Nat.min_eq_right hcap, Int.natCast_ediv]

/-- A blur with valid buffers completes, with each pixel the truncated weighted mean of its taps and its alpha kept (R151). -/
theorem exec_mean (hk : k.IsMean) (hf : effectOf i = drivePixels fun s => s.conv k) (hc : commandClass i = .pixel) (hi : i ≠ .convCustom)
    (hm : s.mem.wf = true) (hv : ValidPixel s.cfg) :
    ∃ t, exec i s = .next t ∧ t = s.finished t.mem ∧
      ∀ x y, x < s.cfg.width.toNat → y < s.cfg.height.toNat →
        (∀ ch, ch < 3 → ((t.dstByte x y ch).toNat : Int) = s.weightedSum k x y ch / k.norm) ∧ t.dstByte x y 3 = s.src x y 3 := by
  obtain ⟨t, he, ht, hpix⟩ := exec_conv hf hc hm hv fun h => absurd h hi
  refine ⟨t, he, ht, fun x y hx hy => ?_⟩
  obtain ⟨hcolour, halpha⟩ := hpix x y hx hy
  exact ⟨fun ch hch => by rw [hcolour ch hch, hk.convChannel_eq], halpha⟩

/-- Every tap of a uniform image is the image's one pixel, clamped or not (R153). -/
theorem State.UniformSource.tap_eq {p : Nat → Byte} (hu : s.UniformSource p) (hv : ValidSource s.cfg) (hch : ch < 4) (x y : Int) :
    s.tap x y ch = p ch := by
  obtain ⟨_, hw, hh, _⟩ := hv
  exact hu _ _ ch (s.cx_lt x hw) (s.cy_lt y hh) hch

/-- A blur of a uniform image gives the same image (S6). -/
theorem exec_mean_uniform {p : Nat → Byte} (hk : k.IsMean) (hf : effectOf i = drivePixels fun s => s.conv k)
    (hc : commandClass i = .pixel) (hi : i ≠ .convCustom) (hm : s.mem.wf = true) (hv : ValidPixel s.cfg) (hu : s.UniformSource p) :
    ∃ t, exec i s = .next t ∧
      ∀ x y ch, x < s.cfg.width.toNat → y < s.cfg.height.toNat → ch < 4 → t.dstByte x y ch = p ch := by
  obtain ⟨t, he, _, hpix⟩ := exec_mean hk hf hc hi hm hv
  refine ⟨t, he, fun x y ch hx hy hch => ?_⟩
  obtain ⟨hcolour, halpha⟩ := hpix x y hx hy
  obtain rfl | hlt : ch = 3 ∨ ch < 3 := by omega
  · rw [halpha, hu x y 3 hx hy hch]
  · have hsample : ∀ kx ky, s.sample x y ch kx ky = (p ch).toNat := fun kx ky => by
      rw [State.sample, hu.tap_eq hv.1 hch]
    have hsum : s.weightedSum k x y ch = k.norm * (p ch).toNat :=
      let ⟨hlo, hhi⟩ := hk.weightedSum_bounds fun kx ky => ⟨(hsample kx ky).ge, (hsample kx ky).le⟩
      hhi.antisymm hlo
    have hnorm : (k.norm : Int) ≠ 0 := Int.natCast_ne_zero.mpr hk.norm_pos.ne'
    have hbyte := hcolour ch hlt
    rw [hsum, Int.mul_ediv_cancel_left _ hnorm] at hbyte
    exact BitVec.eq_of_toNat_eq (Int.natCast_inj.mp hbyte)

/-! ## The host's kernel (R46, R157) -/

/-- A sum over the offsets of a neighbourhood counts its rows or columns from the first. -/
theorem sum_map_offsets (r : Nat) (f : Int → Int) :
    ((offsets r).map f).sum = ∑ n ∈ Finset.range (2 * r + 1), f ((n : Int) - r) := by
  rw [offsets, List.map_map]
  rfl

/-- The weight in row `j` and column `n` of the host's kernel is `KW[j * (2r + 1) + n]` as a signed word (R46). -/
theorem kernelCustom_weight (c : ConfigRegs) (n j : Nat) :
    (kernelCustom c).weight ((n : Int) - c.kradius.toNat) ((j : Int) - c.kradius.toNat) =
      (c.kw.nth (j * (2 * c.kradius.toNat + 1) + n)).toInt := by
  have hindex : ((j : Int) - c.kradius.toNat + c.kradius.toNat) * (2 * c.kradius.toNat + 1) +
      ((n : Int) - c.kradius.toNat + c.kradius.toNat) = (j * (2 * c.kradius.toNat + 1) + n : Nat) := by
    push_cast
    ring
  rw [Kernel.weight, kernelCustom, hindex, Int.toNat_natCast, Bank.nth]
  exact List.getD_map c.kw.cells (0 : Word) BitVec.toInt

/-- The weighted sum of the host's kernel, over rows and columns (R151, R157). -/
theorem weightedSum_kernelCustom :
    s.weightedSum (kernelCustom s.cfg) x y ch =
      ∑ j ∈ Finset.range (2 * s.cfg.kradius.toNat + 1), ∑ n ∈ Finset.range (2 * s.cfg.kradius.toNat + 1),
        (s.cfg.kw.nth (j * (2 * s.cfg.kradius.toNat + 1) + n)).toInt *
          s.sample x y ch ((n : Int) - s.cfg.kradius.toNat) ((j : Int) - s.cfg.kradius.toNat) := by
  have hradius : (kernelCustom s.cfg).radius = s.cfg.kradius.toNat := rfl
  simp only [State.weightedSum, hradius, sum_map_offsets, kernelCustom_weight, State.sample]

end Convolution

/-! ## The obligations: convolutions -/

/-- Settles O12: MEAN3 is a mean, and its sum is the nine taps. -/
theorem convMean3AveragesNineTaps : Obligations.ConvMean3AveragesNineTaps := by
  intro s hm hv
  obtain ⟨t, he, ht, hpix⟩ := exec_mean (i := .convMean3) kernelMean3_isMean rfl rfl nofun hm hv
  refine ⟨t, he, ht, fun x y hx hy => ⟨fun ch hch => ?_, (hpix x y hx hy).2⟩⟩
  rw [(hpix x y hx hy).1 ch hch, kernelMean3, weightedSum_radius_one]
  simp only [one_mul, Nat.cast_ofNat]

/-- Settles O13: GAUSS3 is a mean, and its sum is the nine taps weighed. -/
theorem convGauss3WeighsNineTaps : Obligations.ConvGauss3WeighsNineTaps := by
  intro s hm hv
  obtain ⟨t, he, ht, hpix⟩ := exec_mean (i := .convGauss3) kernelGauss3_isMean rfl rfl nofun hm hv
  refine ⟨t, he, ht, fun x y hx hy => ⟨fun ch hch => ?_, (hpix x y hx hy).2⟩⟩
  rw [(hpix x y hx hy).1 ch hch, kernelGauss3, weightedSum_radius_one]
  simp only [one_mul, Nat.cast_ofNat]

/-- Settles O14: GAUSS5 is a mean, and its sum is the 25 taps weighed row by row. -/
theorem convGauss5WeighsTwentyFiveTaps : Obligations.ConvGauss5WeighsTwentyFiveTaps := by
  intro s hm hv
  obtain ⟨t, he, ht, hpix⟩ := exec_mean (i := .convGauss5) kernelGauss5_isMean rfl rfl nofun hm hv
  refine ⟨t, he, ht, fun x y hx hy => ⟨fun ch hch => ?_, (hpix x y hx hy).2⟩⟩
  rw [(hpix x y hx hy).1 ch hch, weightedSum_gauss5]
  rfl

/-- Settles O15: the host's kernel as it stands in KW, with no bound on its weights. -/
theorem convCustomConvolvesTheHostsKernel : Obligations.ConvCustomConvolvesTheHostsKernel := by
  intro s hm hv hk
  obtain ⟨t, he, ht, hpix⟩ := exec_conv (i := .convCustom) rfl rfl hm hv fun _ => hk
  refine ⟨t, he, ht, fun x y hx hy => ⟨fun ch hch => ?_, (hpix x y hx hy).2⟩⟩
  rw [(hpix x y hx hy).1 ch hch, State.convChannel, weightedSum_kernelCustom]
  rfl

/-- Settles O29: each of the three kernels is a mean. -/
theorem blurKeepsAUniformImage : Obligations.BlurKeepsAUniformImage := by
  intro s p hm hv hu i hi
  obtain rfl | rfl | rfl : i = .convMean3 ∨ i = .convGauss3 ∨ i = .convGauss5 := by simpa using hi
  · exact exec_mean_uniform kernelMean3_isMean rfl rfl nofun hm hv hu
  · exact exec_mean_uniform kernelGauss3_isMean rfl rfl nofun hm hv hu
  · exact exec_mean_uniform kernelGauss5_isMean rfl rfl nofun hm hv hu

/-! ## The obligations: pixel commands and their taps -/

/-- Settles O25: a pixel command fails with nothing else changed, or drives its pixels into a valid destination region. -/
theorem pixelCommandFrame : Obligations.PixelCommandFrame := by
  intro i s t hc hm h
  obtain ⟨e, _, _, rfl⟩ | ⟨hval, rfl⟩ := exec_cases h
  · exact ⟨rfl, rfl, fun _ _ => rfl, fun _ => rfl⟩
  · obtain ⟨f, hf⟩ := effectOf_pixel hc
    obtain ⟨hv, _⟩ := (validate_pixel hc).mp hval
    rw [hf]
    refine ⟨rfl, rfl, fun a ha => ?_, fun hne => absurd rfl hne⟩
    rw [InDest, hv.srcLen_eq] at ha
    exact drivePixels_read_outside hm hv.dest_le (by omega)

/-- A neighbourhood of radius `r` has `2r + 1` offsets on each axis. -/
theorem offsets_length (r : Nat) : (offsets r).length = 2 * r + 1 := by
  rw [offsets, List.length_map, List.length_range]

/-- A neighbourhood has a sample for each pair of offsets, repeats kept (R153). -/
theorem redSamples_length (s : State) (r : Nat) (x y : Int) : (s.redSamples r x y).length = (2 * r + 1) ^ 2 := by
  simp only [State.redSamples, List.length_flatMap, List.length_map, offsets_length, List.map_const', List.sum_replicate, smul_eq_mul,
    sq]

/-- On an axis of `n` pixels a coordinate inside is kept, and one outside is clamped to the nearest edge (R12, R153). -/
theorem clampi_axis {n : Nat} (h : 1 ≤ n) (v : Int) :
    (0 ≤ v → v < n → (clampi v 0 (n - 1)).toNat = v.toNat) ∧ (v < 0 → (clampi v 0 (n - 1)).toNat = 0) ∧
      (n ≤ v → (clampi v 0 (n - 1)).toNat + 1 = n) := by
  unfold clampi
  omega

/-- Settles O27: the pixel of a tap has the clamped coordinates. -/
theorem tapsStayInTheSourceRegion : Obligations.TapsStayInTheSourceRegion := by
  refine ⟨redSamples_length, fun s x y ch hv hch => ?_⟩
  have ⟨_, hw, hh, _⟩ := hv
  obtain ⟨hinX, hlowX, hhighX⟩ := clampi_axis hw x
  obtain ⟨hinY, hlowY, hhighY⟩ := clampi_axis hh y
  exact ⟨s.cx x, s.cy y, s.cx_lt x hw, s.cy_lt y hh, hinX, hinY, hlowX, hlowY, hhighX, hhighY, rfl, tap_inSource x y hv hch⟩

end Sys2Proof.Machine

/-! Proofs of the rank filter family (41_rank_filter.md): how many entries of a sorted list are not above, and not below, the entry
at an index; from that the rank of the median of nine; then the pixel of MEDIAN3 and its nine red samples. -/

namespace Sys2Proof.Machine

section Rank

variable {l v : List Nat}

/-! ## The rank of an entry of a sorted list -/

/-- In an ascending list the entries up to index `i` are not above the entry at `i`. -/
theorem lt_countP_le_getElem (hl : l.Pairwise (· ≤ ·)) {i : Nat} (hi : i < l.length) : i < l.countP fun n => decide (n ≤ l[i]) := by
  have hle : ∀ n ∈ l.take (i + 1), decide (n ≤ l[i]) = true := by
    intro n hn
    obtain ⟨j, hj, rfl⟩ := List.mem_take_iff_getElem.mp hn
    exact decide_eq_true (hl.sortedLE.getElem_le_getElem_of_le (by omega))
  calc i < (l.take (i + 1)).length := by rw [List.length_take]; omega
    _ = (l.take (i + 1)).countP fun n => decide (n ≤ l[i]) := (List.countP_eq_length.mpr hle).symm
    _ ≤ l.countP fun n => decide (n ≤ l[i]) := (List.take_sublist _ l).countP_le

/-- In an ascending list the entries from index `i` on are not below the entry at `i`. -/
theorem length_sub_le_countP_getElem_le (hl : l.Pairwise (· ≤ ·)) {i : Nat} (hi : i < l.length) :
    l.length - i ≤ l.countP fun n => decide (l[i] ≤ n) := by
  have hle : ∀ n ∈ l.drop i, decide (l[i] ≤ n) = true := by
    intro n hn
    obtain ⟨j, hj, rfl⟩ := List.mem_drop_iff_getElem.mp hn
    exact decide_eq_true (hl.sortedLE.getElem_le_getElem_of_le (by omega))
  calc l.length - i = (l.drop i).length := List.length_drop.symm
    _ = (l.drop i).countP fun n => decide (l[i] ≤ n) := (List.countP_eq_length.mpr hle).symm
    _ ≤ l.countP fun n => decide (l[i] ≤ n) := (List.drop_sublist i l).countP_le

/-- At least five of nine samples are not above their median, and at least five are not below it (R170). -/
theorem median9_rank (h : v.length = 9) :
    5 ≤ v.countP (fun n => decide (n ≤ median9 v)) ∧ 5 ≤ v.countP (fun n => decide (median9 v ≤ n)) := by
  have hperm := insertionSort_perm v
  have hsorted := insertionSort_ascends v
  have hlen : (v.insertionSort (· ≤ ·)).length = 9 := hperm.length_eq.trans h
  have hi : 4 < (v.insertionSort (· ≤ ·)).length := by omega
  rw [median9, List.getD_eq_getElem _ _ hi, ← hperm.countP_eq, ← hperm.countP_eq]
  have hge := length_sub_le_countP_getElem_le hsorted hi
  rw [hlen] at hge
  exact ⟨lt_countP_le_getElem hsorted hi, hge⟩

end Rank

section Median

variable (s : State)

/-! ## The pixel of MEDIAN3 and its samples (R170) -/

/-- The nine red samples of radius 1, row by row, as the numbers they stand for. -/
theorem redSamples_radius_one (x y : Nat) :
    (s.redSamples 1 x y).map ((↑) : Nat → Int) =
      [s.sample x y 0 (-1) (-1), s.sample x y 0 0 (-1), s.sample x y 0 1 (-1), s.sample x y 0 (-1) 0, s.sample x y 0 0 0,
        s.sample x y 0 1 0, s.sample x y 0 (-1) 1, s.sample x y 0 0 1, s.sample x y 0 1 1] := rfl

/-- A red sample is 0–255. -/
theorem redSamples_le {r n : Nat} {x y : Int} (h : n ∈ s.redSamples r x y) : n ≤ 255 := by
  simp only [State.redSamples, List.mem_flatMap, List.mem_map] at h
  obtain ⟨ky, _, kx, _, rfl⟩ := h
  exact Nat.le_of_lt_succ (s.tap (x + kx) (y + ky) 0).isLt

/-- The three colours of a pixel of MEDIAN3 are the median of the nine red samples, uncut (R170). -/
theorem med_chan (x y : Nat) {ch : Nat} (hch : ch < 3) : ((s.med x y).chan ch).toNat = median9 (s.redSamples 1 x y) := by
  have hbyte : (toByte (median9 (s.redSamples 1 x y))).toNat = median9 (s.redSamples 1 x y) :=
    toByte_toNat (redSamples_le s (median9_mem (redSamples_length s 1 x y)))
  obtain rfl | rfl | rfl : ch = 0 ∨ ch = 1 ∨ ch = 2 := by omega
  all_goals exact hbyte

end Median

/-! ## The obligation -/

/-- Settles O16: MEDIAN3 drives the median of the nine red samples, and the entry at index 4 of nine sorted samples has rank five from
either end. -/
theorem median3GivesTheMedianRedSample : Obligations.Median3GivesTheMedianRedSample := by
  intro s hm hv
  obtain ⟨t, he, ht, hdst, _⟩ := exec_pixel (i := .median3) rfl rfl hm hv nofun
  refine ⟨t, he, ht, fun x y hx hy => ⟨?_, hdst x y 3 hx hy (by decide)⟩⟩
  have hlen : (s.redSamples 1 x y).length = 9 := redSamples_length s 1 x y
  obtain ⟨hle, hge⟩ := median9_rank hlen
  rw [← redSamples_radius_one]
  refine ⟨median9 (s.redSamples 1 x y), List.mem_map_of_mem (median9_mem hlen), ?_, ?_, fun ch hch => ?_⟩
  · simpa only [List.countP_map, Function.comp_def, Nat.cast_le] using hle
  · simpa only [List.countP_map, Function.comp_def, Nat.cast_le] using hge
  · rw [hdst x y ch hx hy (by omega), med_chan s x y hch]

end Sys2Proof.Machine

/-! Proofs of the variation filter family (42_variation_filter.md): the neighbour weight as a rational; the variation value as a
floor, as a weighted mean of its samples and as a quotient of integers; then the pixel of VARIATION5 and its 25 red samples. -/

namespace Sys2Proof.Machine

section Variation

variable {rp : Nat} {v : List Nat}

/-! ## The neighbour weight (R180) -/

/-- An equal neighbour weighs 5 (R180). -/
@[simp] theorem neighbourWeight_self (a : Nat) : neighbourWeight a a = 5 := if_pos rfl

/-- The weight is the same from either side (R183). -/
theorem neighbourWeight_comm (a b : Nat) : neighbourWeight a b = neighbourWeight b a := by
  unfold neighbourWeight
  split_ifs <;> omega

/-- The weight as a positive rational. -/
theorem neighbourWeight_cast_pos (rp rn : Nat) : (0 : ℚ) < neighbourWeight rp rn := Nat.cast_pos.mpr (neighbourWeight_pos rp rn)

/-- The weight as a rational is 5 for an equal neighbour, else the distance between the two values (R180). -/
theorem neighbourWeight_cast (rp rn : Nat) :
    (neighbourWeight rp rn : ℚ) = if (rn : Int) = rp then (5 : ℚ) else ((|(rp : Int) - rn| : Int) : ℚ) := by
  simp only [neighbourWeight, Nat.cast_inj]
  split
  · rfl
  · exact Nat.cast_natAbs _

/-! ## The variation value is a weighted mean (R181, R182) -/

/-- The weights of the samples leave a positive divisor. -/
theorem totalWeight_pos (hv : v ≠ []) : 0 < totalWeight rp v := by
  refine List.sum_pos _ (fun q hq => ?_) (by simpa using hv)
  obtain ⟨rn, _, rfl⟩ := List.mem_map.mp hq
  exact one_div_pos.mpr (neighbourWeight_cast_pos rp rn)

/-- A bound times the total weight is the weighted sum in which the bound stands for each sample. -/
theorem mul_totalWeight (q : ℚ) : q * totalWeight rp v = (v.map fun rn => q / (neighbourWeight rp rn : ℚ)).sum := by
  simp only [totalWeight, ← List.sum_map_mul_left, mul_one_div]

/-- The weighted mean of samples that are not below `lo` is not below `lo`. -/
theorem le_weightedMean {lo : Nat} (hv : v ≠ []) (h : ∀ rn ∈ v, lo ≤ rn) : (lo : ℚ) ≤ weightedRed rp v / totalWeight rp v := by
  rw [le_div_iff₀ (totalWeight_pos hv), mul_totalWeight, weightedRed]
  exact List.sum_le_sum fun rn hrn => div_le_div_of_nonneg_right (Nat.cast_le.mpr (h rn hrn)) (neighbourWeight_cast_pos rp rn).le

/-- The weighted mean of samples that are not above `hi` is not above `hi`. -/
theorem weightedMean_le {hi : Nat} (hv : v ≠ []) (h : ∀ rn ∈ v, rn ≤ hi) : weightedRed rp v / totalWeight rp v ≤ (hi : ℚ) := by
  rw [div_le_iff₀ (totalWeight_pos hv), mul_totalWeight, weightedRed]
  exact List.sum_le_sum fun rn hrn => div_le_div_of_nonneg_right (Nat.cast_le.mpr (h rn hrn)) (neighbourWeight_cast_pos rp rn).le

/-- The variation value is the floor of the weighted mean: a mean of samples is not negative, so nothing is cut off (R181). -/
theorem variationValue_cast (hv : v ≠ []) : (variationValue rp v : Int) = ⌊weightedRed rp v / totalWeight rp v⌋ := by
  have hmean : (0 : ℚ) ≤ weightedRed rp v / totalWeight rp v := by exact_mod_cast le_weightedMean hv fun rn _ => Nat.zero_le rn
  exact Int.toNat_of_nonneg (Int.floor_nonneg.mpr hmean)

/-- An integer below the mean is below its floor (R182). -/
theorem le_variationValue {lo : Nat} (hv : v ≠ []) (h : ∀ rn ∈ v, lo ≤ rn) : lo ≤ variationValue rp v := by
  rw [← Nat.cast_le (α := Int), variationValue_cast hv, Int.le_floor]
  exact le_weightedMean hv h

/-- An integer above the mean is above its floor (R182). -/
theorem variationValue_le {hi : Nat} (hv : v ≠ []) (h : ∀ rn ∈ v, rn ≤ hi) : variationValue rp v ≤ hi := by
  rw [← Nat.cast_le (α := Int), variationValue_cast hv, ← Int.floor_natCast (R := ℚ) hi]
  exact Int.floor_mono (weightedMean_le hv h)

/-! ## The variation value is a quotient of integers -/

/-- A common multiple of the weights takes a sum of quotients by the weights to a sum of integers. -/
theorem sum_mul_div_weight_cast {l : Nat} (h : ∀ rn ∈ v, neighbourWeight rp rn ∣ l) (c : Nat → Nat) :
    ((v.map fun rn => c rn * (l / neighbourWeight rp rn)).sum : ℚ) = l * (v.map fun rn => (c rn : ℚ) / neighbourWeight rp rn).sum := by
  rw [← List.sum_map_mul_left, Nat.cast_list_sum, List.map_map]
  refine congrArg List.sum (List.map_congr_left fun rn hrn => ?_)
  rw [Function.comp_apply, Nat.cast_mul, Nat.cast_div (h rn hrn) (neighbourWeight_cast_pos rp rn).ne', mul_div_left_comm]

/-- The common multiple times `WS` is an integer (R181). -/
theorem weightedRed_scaled {l : Nat} (h : ∀ rn ∈ v, neighbourWeight rp rn ∣ l) :
    ((v.map fun rn => rn * (l / neighbourWeight rp rn)).sum : ℚ) = l * weightedRed rp v := sum_mul_div_weight_cast h fun rn => rn

/-- The common multiple times `TW` is an integer (R181). -/
theorem totalWeight_scaled {l : Nat} (h : ∀ rn ∈ v, neighbourWeight rp rn ∣ l) :
    ((v.map fun rn => l / neighbourWeight rp rn).sum : ℚ) = l * totalWeight rp v := by
  simpa only [one_mul, Nat.cast_one, totalWeight] using sum_mul_div_weight_cast h fun _ => 1

end Variation

section VariationPixel

variable (s : State)

/-! ## The pixel of VARIATION5 and its samples (R181) -/

/-- The offsets of radius `r` are the integers from `-r` to `r`. -/
theorem offsets_toFinset (r : Nat) : (offsets r).toFinset = Finset.Icc (-r : Int) r := by
  ext k
  simp only [offsets, List.mem_toFinset, List.mem_map, List.mem_range, Finset.mem_Icc]
  constructor
  · rintro ⟨n, hn, rfl⟩
    omega
  · rintro ⟨hlo, hhi⟩
    exact ⟨(k + r).toNat, by omega, by omega⟩

/-- No offset of a neighbourhood is listed twice. -/
theorem offsets_nodup (r : Nat) : (offsets r).Nodup :=
  List.nodup_range.map fun _ _ h => Int.natCast_inj.mp (sub_left_injective h)

/-- A sum over the red samples of a neighbourhood is a sum over its offsets, row by row. -/
theorem sum_map_redSamples (r : Nat) (x y : Int) (f : Nat → ℚ) :
    ((s.redSamples r x y).map f).sum =
      ∑ ky ∈ Finset.Icc (-r : Int) r, ∑ kx ∈ Finset.Icc (-r : Int) r, f (s.tap (x + kx) (y + ky) 0).toNat := by
  simp only [← offsets_toFinset, List.sum_toFinset _ (offsets_nodup r)]
  rw [State.redSamples, List.map_flatMap, List.flatMap_def, List.sum_flatten, List.map_map]
  simp only [List.map_map, Function.comp_def]

/-- A neighbourhood has at least one sample. -/
theorem redSamples_ne_nil (r : Nat) (x y : Int) : s.redSamples r x y ≠ [] := by
  rw [← List.length_pos_iff_ne_nil, redSamples_length]
  positivity

/-- The three colours of a pixel of VARIATION5 are the variation value of the 25 red samples, uncut (R182). -/
theorem var_chan (x y : Nat) {ch : Nat} (hch : ch < 3) :
    ((s.var x y).chan ch).toNat = variationValue (s.src x y 0).toNat (s.redSamples 2 x y) := by
  have hbyte : (toByte (variationValue (s.src x y 0).toNat (s.redSamples 2 x y))).toNat = variationValue (s.src x y 0).toNat (s.redSamples 2 x y) :=
    toByte_toNat (variationValue_le (redSamples_ne_nil s 2 x y) fun _ => redSamples_le s)
  obtain rfl | rfl | rfl : ch = 0 ∨ ch = 1 ∨ ch = 2 := by omega
  all_goals exact hbyte

end VariationPixel

/-! ## The obligations -/

/-- Settles O17: VARIATION5 drives the variation value of the 25 red samples, and the sums over the samples are the sums over the
offsets. -/
theorem variation5GivesTheWeightedMean : Obligations.Variation5GivesTheWeightedMean := by
  intro s hm hv
  obtain ⟨t, he, ht, hdst, _⟩ := exec_pixel (i := .variation5) rfl rfl hm hv nofun
  refine ⟨t, he, ht, fun x y hx hy => ⟨fun ch hch => ?_, hdst x y 3 hx hy (by decide)⟩⟩
  rw [hdst x y ch hx hy (by omega), var_chan s x y hch, variationValue_cast (redSamples_ne_nil s 2 x y)]
  simp only [weightedRed, totalWeight, sum_map_redSamples, neighbourWeight_cast, State.sample, Int.cast_natCast, add_zero,
    s.tap_self 0 hx hy]
  rfl

/-- Settles O18: the common multiple cancels in the quotient, which is then one of two integers. -/
theorem variationValueHasAnIntegerForm : Obligations.VariationValueHasAnIntegerForm := by
  intro rp v l hv hl h
  rw [← Nat.cast_inj (R := Int), variationValue_cast hv, Int.natCast_ediv, ← Rat.floor_intCast_div_natCast, Int.cast_natCast,
    weightedRed_scaled h, totalWeight_scaled h, mul_div_mul_left _ _ (Nat.cast_ne_zero.mpr hl)]

/-- Settles O19: each bound on the samples is a bound on their weighted mean, and an integer bound passes to the floor. -/
theorem variationValueIsWithinTheSamples : Obligations.VariationValueIsWithinTheSamples := fun _ _ _ _ hv h =>
  ⟨le_variationValue hv fun rn hrn => (h rn hrn).1, variationValue_le hv fun rn hrn => (h rn hrn).2⟩

/-- Settles O20: the distance is symmetric, and equal values weigh 5 from either side. -/
theorem variationWeightIsSymmetric : Obligations.VariationWeightIsSymmetric := fun a b _ _ =>
  ⟨neighbourWeight_comm a b, neighbourWeight_self a, (neighbourWeight_pos a b).ne'⟩

end Sys2Proof.Machine

/-! Proofs of the gradient family (43_gradient.md): the weighted sums of the gradient kernels written out and bounded; the pixel of
GRAD_MAG; what the three gradient commands do; then the gradient of a uniform image. -/

namespace Sys2Proof.Machine

section Gradient

variable {i : Instr} {s : State} {c x y ch : Nat}

/-! ## The derivative sums (R52, R191) -/

/-- The weighted sum of `KX_c` is SX: its middle column has weight 0. -/
theorem weightedSum_kernelGradX : s.weightedSum (kernelGradX c) x y ch = s.sumX c x y ch := by
  rw [kernelGradX, weightedSum_radius_one, State.sumX]
  ring

/-- The weighted sum of `KY_c` is SY: its middle row has weight 0. -/
theorem weightedSum_kernelGradY : s.weightedSum (kernelGradY c) x y ch = s.sumY c x y ch := by
  rw [kernelGradY, weightedSum_radius_one, State.sumY]
  ring

/-- One side of a derivative, three samples weighed `1, c, 1`, lies between 0 and `c + 2` times the greatest sample. -/
theorem side_bounds (c : Nat) {u v w : Int} (hu : 0 ≤ u ∧ u ≤ 255) (hv : 0 ≤ v ∧ v ≤ 255) (hw : 0 ≤ w ∧ w ≤ 255) :
    0 ≤ u + c * v + w ∧ u + c * v + w ≤ ((c + 2) * 255 : Nat) := by
  have hlow : 0 ≤ (c : Int) * v := mul_nonneg c.cast_nonneg hv.1
  have hhigh : (c : Int) * v ≤ c * 255 := mul_le_mul_of_nonneg_left hv.2 c.cast_nonneg
  omega

/-- The difference of two numbers from 0 to `n` is at most `n` either way. -/
theorem natAbs_sub_le_of_bounds {n : Nat} {u v : Int} (hu : 0 ≤ u ∧ u ≤ n) (hv : 0 ≤ v ∧ v ≤ n) : (u - v).natAbs ≤ n := by omega

/-- `|SX|` is at most `c + 2` times the greatest sample. -/
theorem natAbs_sumX_le : (s.sumX c x y ch).natAbs ≤ (c + 2) * 255 :=
  have hs := s.sample_bounds x y ch
  natAbs_sub_le_of_bounds (side_bounds c (hs _ _) (hs _ _) (hs _ _)) (side_bounds c (hs _ _) (hs _ _) (hs _ _))

/-- `|SY|` is at most `c + 2` times the greatest sample. -/
theorem natAbs_sumY_le : (s.sumY c x y ch).natAbs ≤ (c + 2) * 255 :=
  have hs := s.sample_bounds x y ch
  natAbs_sub_le_of_bounds (side_bounds c (hs _ _) (hs _ _) (hs _ _)) (side_bounds c (hs _ _) (hs _ _) (hs _ _))

/-! ## The magnitude (R192, R193) -/

/-- The magnitude is the truncated root of the sum of the squares of SX and SY, div `c + 2` and capped (R192). -/
theorem mag_eq : s.mag c x y ch = min 255 (Nat.sqrt (s.sumX c x y ch ^ 2 + s.sumY c x y ch ^ 2).toNat / (c + 2)) := by
  have hsquares : (s.sumX c x y ch ^ 2 + s.sumY c x y ch ^ 2).toNat =
      (s.sumX c x y ch).natAbs * (s.sumX c x y ch).natAbs + (s.sumY c x y ch).natAbs * (s.sumY c x y ch).natAbs := by
    rw [sq, sq, ← Int.natAbs_mul_self, ← Int.natAbs_mul_self, ← Nat.cast_add, Int.toNat_natCast]
  rw [hsquares, ← isqrt_eq, ← weightedSum_kernelGradX, ← weightedSum_kernelGradY]
  rfl

/-- The three colours of a pixel of GRAD_MAG are their own channels' magnitudes, uncut (R193). -/
theorem magPixel_chan (hch : ch < 3) : ((s.magPixel c x y).chan ch).toNat = s.mag c x y ch := by
  have hbyte : (toByte (s.mag c x y ch)).toNat = s.mag c x y ch := toByte_toNat (Nat.min_le_left ..)
  obtain rfl | rfl | rfl : ch = 0 ∨ ch = 1 ∨ ch = 2 := by omega
  all_goals exact hbyte

/-! ## What a derivative command does (R194, R195) -/

/-- A convolution whose sums are at most 255 times its normalizer is not capped (R151). -/
theorem convChannel_of_natAbs_le {k : Kernel} (h : (s.weightedSum k x y ch).natAbs ≤ k.norm * 255) :
    s.convChannel k x y ch = (s.weightedSum k x y ch).natAbs / k.norm := Nat.min_eq_right (Nat.div_le_of_le_mul h)

/-- A convolution by a kernel of derivative sums completes, with each colour the absolute value of its sum, div the normalizer and
not capped, and its alpha kept (R151). -/
theorem exec_derivative {k : Kernel} {sum : Nat → Nat → Nat → Int} (hf : effectOf i = drivePixels fun s => s.conv k)
    (hc : commandClass i = .pixel) (hi : i ≠ .convCustom) (hm : s.mem.wf = true) (hv : ValidPixel s.cfg)
    (hsum : ∀ x y ch : Nat, s.weightedSum k x y ch = sum x y ch) (hle : ∀ x y ch, (sum x y ch).natAbs ≤ k.norm * 255) :
    ∃ t, exec i s = .next t ∧ t = s.finished t.mem ∧
      ∀ x y, x < s.cfg.width.toNat → y < s.cfg.height.toNat →
        (∀ ch, ch < 3 → (t.dstByte x y ch).toNat = (sum x y ch).natAbs / k.norm) ∧ t.dstByte x y 3 = s.src x y 3 := by
  obtain ⟨t, he, ht, hpix⟩ := exec_conv hf hc hm hv fun h => absurd h hi
  refine ⟨t, he, ht, fun x y hx hy => ?_⟩
  obtain ⟨hcolour, halpha⟩ := hpix x y hx hy
  refine ⟨fun ch hch => ?_, halpha⟩
  rw [hcolour ch hch, convChannel_of_natAbs_le ((hsum x y ch).symm ▸ hle x y ch), hsum]

/-! ## Uniform images (S7) -/

/-- Every sample of a uniform image is the image's one pixel (R153). -/
theorem State.UniformSource.sample_eq {p : Nat → Byte} (hu : s.UniformSource p) (hv : ValidSource s.cfg) (hch : ch < 4) (kx ky : Int) :
    s.sample x y ch kx ky = (p ch).toNat := by
  rw [State.sample, hu.tap_eq hv hch]

/-- The two sides of each derivative of a uniform image are equal. -/
theorem State.UniformSource.sums_eq_zero {p : Nat → Byte} (hu : s.UniformSource p) (hv : ValidSource s.cfg) (hch : ch < 4) :
    s.sumX c x y ch = 0 ∧ s.sumY c x y ch = 0 := by
  simp only [State.sumX, State.sumY, hu.sample_eq hv hch, sub_self, and_self]

/-- A command whose colours have the value 0 and whose alpha is `a` gives a black image of alpha `a`. -/
theorem exec_black {colour : Nat → Nat → Nat → Nat} {alpha : Nat → Nat → Byte} {a : Byte}
    (h : ∃ t, exec i s = .next t ∧ t = s.finished t.mem ∧
      ∀ x y, x < s.cfg.width.toNat → y < s.cfg.height.toNat →
        (∀ ch, ch < 3 → (t.dstByte x y ch).toNat = colour x y ch) ∧ t.dstByte x y 3 = alpha x y)
    (hcolour : ∀ x y ch, ch < 3 → colour x y ch = 0)
    (halpha : ∀ x y, x < s.cfg.width.toNat → y < s.cfg.height.toNat → alpha x y = a) :
    ∃ t, exec i s = .next t ∧
      ∀ x y, x < s.cfg.width.toNat → y < s.cfg.height.toNat →
        (∀ ch, ch < 3 → t.dstByte x y ch = 0) ∧ t.dstByte x y 3 = a := by
  obtain ⟨t, he, _, hpix⟩ := h
  refine ⟨t, he, fun x y hx hy => ⟨fun ch hch => ?_, (hpix x y hx hy).2.trans (halpha x y hx hy)⟩⟩
  exact BitVec.eq_of_toNat_eq (((hpix x y hx hy).1 ch hch).trans (hcolour x y ch hch))

end Gradient

/-! ## The obligations -/

/-- Settles O21: GRAD_MAG drives the magnitudes, and each is the root of its channel's own sums. -/
theorem gradMagGivesEachChannelsMagnitude : Obligations.GradMagGivesEachChannelsMagnitude := by
  intro s c _ hm hv
  obtain ⟨t, he, ht, hdst, _⟩ := exec_pixel (i := .gradMag c) rfl rfl hm hv nofun
  refine ⟨t, he, ht, fun x y hx hy => ⟨fun ch hch => ?_, hdst x y 3 hx hy (by decide)⟩⟩
  rw [hdst x y ch hx hy (by omega), magPixel_chan hch, mag_eq]

/-- Settles O22: GRAD_X is the convolution of `KX_c`, whose sum SX is too small for the cap. -/
theorem gradXGivesTheHorizontalDerivative : Obligations.GradXGivesTheHorizontalDerivative := fun _ c _ hm hv =>
  exec_derivative (i := .gradX c) rfl rfl nofun hm hv (fun _ _ _ => weightedSum_kernelGradX) fun _ _ _ => natAbs_sumX_le

/-- Settles O23: GRAD_Y is the convolution of `KY_c`, whose sum SY is too small for the cap. -/
theorem gradYGivesTheVerticalDerivative : Obligations.GradYGivesTheVerticalDerivative := fun _ c _ hm hv =>
  exec_derivative (i := .gradY c) rfl rfl nofun hm hv (fun _ _ _ => weightedSum_kernelGradY) fun _ _ _ => natAbs_sumY_le

/-- Settles O30: on a uniform image SX and SY are 0, so each of the three commands gives 0. -/
theorem gradientOfAUniformImageIsBlack : Obligations.GradientOfAUniformImageIsBlack := by
  intro s p c hc hm hv hu i hi
  have hsums : ∀ x y ch, ch < 3 → s.sumX c x y ch = 0 ∧ s.sumY c x y ch = 0 := fun x y ch hch =>
    hu.sums_eq_zero hv.1 (by omega)
  have halpha : ∀ x y, x < s.cfg.width.toNat → y < s.cfg.height.toNat → s.src x y 3 = p 3 := fun x y hx hy =>
    hu x y 3 hx hy (by decide)
  obtain rfl | rfl | rfl : i = .gradMag c ∨ i = .gradX c ∨ i = .gradY c := by simpa using hi
  · rw [if_pos rfl]
    refine exec_black (gradMagGivesEachChannelsMagnitude s c hc hm hv) (fun x y ch hch => ?_) fun _ _ _ _ => rfl
    obtain ⟨hX, hY⟩ := hsums x y ch hch
    simp [hX, hY]
  · rw [if_neg nofun]
    refine exec_black (gradXGivesTheHorizontalDerivative s c hc hm hv) (fun x y ch hch => ?_) halpha
    rw [(hsums x y ch hch).1, Int.natAbs_zero, Nat.zero_div]
  · rw [if_neg nofun]
    refine exec_black (gradYGivesTheVerticalDerivative s c hc hm hv) (fun x y ch hch => ?_) halpha
    rw [(hsums x y ch hch).2, Int.natAbs_zero, Nat.zero_div]

end Sys2Proof.Machine

/-! Proofs of the histogram family (44_histogram.md): the pixels each worker counts, and that they are those of its own range; what a
scan adds to HIST, and that over all bins it adds the number of pixels; the running sum; what scan and control commands leave. -/

namespace Sys2Proof.Machine

section Histogram

variable {i : Instr} {s : State}

/-! ## The partition (R210, R211) -/

/-- An index of worker `i` tells its worker: it is the quotient by the section length. -/
theorem div_of_mem_sectionIndices {n w j : Nat} (h : j ∈ sectionIndices n w) : j / ((n + 3) / 4) = w := by
  obtain ⟨hstart, hend⟩ := mem_sectionIndices.mp h
  exact Nat.div_eq_of_lt_le hstart (hend.trans_le (Nat.min_le_left ..))

/-- Every index of a worker is below the total. -/
theorem lt_of_mem_sectionIndices {n w j : Nat} (h : j ∈ sectionIndices n w) : j < n :=
  (mem_sectionIndices.mp h).2.trans_le (Nat.min_le_right ..)

/-- An index below the total is some worker's. -/
theorem exists_mem_sectionIndices {n j : Nat} (h : j < n) : ∃ w, w < 4 ∧ j ∈ sectionIndices n w := by
  rw [← List.mem_range, ← sections_append] at h
  simp only [List.mem_append] at h
  obtain ((h | h) | h) | h := h
  · exact ⟨0, by decide, h⟩
  · exact ⟨1, by decide, h⟩
  · exact ⟨2, by decide, h⟩
  · exact ⟨3, by decide, h⟩

/-- A range with an index begins below the total, so the range before it is not cut short. -/
theorem sectionEnd_eq_sectionStart {n w : Nat} (h : sectionIndices n (w + 1) ≠ []) : sectionEnd n w = sectionStart n (w + 1) := by
  obtain ⟨j, hj⟩ := List.exists_mem_of_ne_nil _ h
  have hstart : sectionStart n (w + 1) ≤ n := (mem_sectionIndices.mp hj).1.trans (lt_of_mem_sectionIndices hj).le
  exact Nat.min_eq_left hstart

/-! ## The pixels a worker counts (R214, R215) -/

/-- The linear indices of the pixels in the columns of worker `w`, column by column (R214). -/
def columnPixels (width height w : Nat) : List Nat :=
  (sectionIndices width w).flatMap fun x => (List.range height).map fun y => y * width + x

theorem columnSamples_eq_map (s : State) (w : Nat) :
    columnSamples s w = (columnPixels s.cfg.width.toNat s.cfg.height.toNat w).map s.red := by
  simp only [columnSamples, columnPixels, List.map_flatMap, List.map_map]
  rfl

/-- The pixels of a worker's columns are the pixels whose column it has. -/
theorem mem_columnPixels {width height w p : Nat} :
    p ∈ columnPixels width height w ↔ p < width * height ∧ p % width ∈ sectionIndices width w := by
  simp only [columnPixels, List.mem_flatMap, List.mem_map, List.mem_range]
  constructor
  · rintro ⟨x, hx, y, hy, rfl⟩
    have hlt := lt_of_mem_sectionIndices hx
    rw [Nat.mul_add_mod', Nat.mod_eq_of_lt hlt]
    exact ⟨by nlinarith, hx⟩
  · rintro ⟨hp, hx⟩
    exact ⟨p % width, hx, p / width, Nat.div_lt_of_lt_mul hp, Nat.div_add_mod' p width⟩

/-- No pixel is counted twice: within a column the rows differ, and two columns differ in the remainder by the width. -/
theorem nodup_columnPixels (width height w : Nat) : (columnPixels width height w).Nodup := by
  refine List.nodup_flatMap.mpr ⟨fun x hx => ?_, ?_⟩
  · have hpos := Nat.zero_lt_of_lt (lt_of_mem_sectionIndices hx)
    exact List.nodup_range.map fun y z h => Nat.eq_of_mul_eq_mul_right hpos (Nat.add_right_cancel h)
  · refine (List.nodup_range' (step := 1)).imp_of_mem fun hx hz hne p hpx hpz => ?_
    obtain ⟨y, _, rfl⟩ := List.mem_map.mp hpx
    obtain ⟨y', _, h⟩ := List.mem_map.mp hpz
    have hmod := congrArg (· % width) h
    simp only [Nat.mul_add_mod', Nat.mod_eq_of_lt (lt_of_mem_sectionIndices hx), Nat.mod_eq_of_lt (lt_of_mem_sectionIndices hz)] at hmod
    exact hne hmod.symm

/-- Counting the red samples of a list of pixels without repetition is counting the pixels of the image in the list. -/
theorem countP_map_red {q : Nat → Prop} [DecidablePred q] {l : List Nat} (hn : l.Nodup)
    (hl : ∀ p, p ∈ l ↔ p < s.cfg.width.toNat * s.cfg.height.toNat ∧ q p) (v : Nat) :
    ((l.map s.red).countP fun b => decide (b.toNat = v)) =
      (List.range (s.cfg.width.toNat * s.cfg.height.toNat)).countP fun p => decide ((s.red p).toNat = v ∧ q p) := by
  have hperm : l.Perm ((List.range (s.cfg.width.toNat * s.cfg.height.toNat)).filter fun p => decide (q p)) :=
    (List.perm_ext_iff_of_nodup hn (List.nodup_range.filter _)).mpr fun p => by simp [hl]
  rw [List.countP_map, hperm.countP_eq, List.countP_filter]
  simp only [Function.comp_apply, Bool.decide_and]

/-- The image of a valid source buffer has fewer than `2^32` pixels, so no count of them wraps around. -/
theorem ValidSource.pixels_lt {c : ConfigRegs} (hv : ValidSource c) : c.width.toNat * c.height.toNat < 2 ^ 32 := by
  obtain ⟨_, _, _, hlen, _⟩ := hv
  have hlt := c.srcLen.isLt
  rw [Nat.mul_assoc] at hlen
  omega

/-- After a scan in which worker `w` samples the pixels that meet `q`, each once, it is done and its bins hold their exact counts. -/
theorem scan_local {g : State → Nat → List Byte} (hg : SamplesOf g) (hv : ValidSource s.cfg) {w : Fin 4} {q : Nat → Prop} [DecidablePred q]
    {l : List Nat} (hs : g s w.1 = l.map s.red) (hn : l.Nodup) (hl : ∀ p, p ∈ l ↔ p < s.cfg.width.toNat * s.cfg.height.toNat ∧ q p) :
    (s.scan g).wdone.get w = true ∧ ∀ v, v < 256 → (((s.scan g).lh.get w).nth v).toNat =
      (List.range (s.cfg.width.toNat * s.cfg.height.toNat)).countP fun p => decide ((s.red p).toNat = v ∧ q p) := by
  obtain ⟨hlh, hdone⟩ := scan_lh (s := s) hg w
  refine ⟨hdone, fun v hlt => ?_⟩
  rw [hlh, foldl_countByte_nth _ _ hlt, Bank.nth_fill_zero, zero_add, hs, countP_map_red hn hl, BitVec.toNat_ofNat]
  refine Nat.mod_eq_of_lt (List.countP_le_length.trans_lt ?_)
  rw [List.length_range]
  exact hv.pixels_lt

/-! ## What a scan adds to HIST (R217) -/

/-- The scan commands are those of the scan class (R123). -/
theorem scan_of_mem (hi : i ∈ [Instr.histColor, .histGray, .histCum]) : commandClass i = .scan := by
  obtain ⟨_, hscan, _⟩ := commandClasses i
  exact hscan.mpr hi

/-- Every scan command adds the red counts to HIST (R217). -/
theorem effectOf_hist_of_scan (hc : commandClass i = .scan) {v : Nat} (hv : v < 256) :
    (effectOf i s).hist.nth v = BitVec.ofNat 32 ((s.hist.nth v).toNat + s.redCount v) := by
  rw [BitVec.ofNat_add, BitVec.ofNat_toNat, BitVec.setWidth_eq]
  cases i with
  | histColor => exact scan_hist_net (.inl rfl) hv
  | histGray => exact scan_hist_net (.inr rfl) hv
  | histCum => exact scan_hist_net (.inr rfl) hv
  | _ => cases hc

/-- The red count of a value is the number of pixel indices with that red sample, as a set (R217). -/
theorem redCount_eq_card (s : State) (v : Nat) :
    s.redCount v = (Finset.filter (fun p => (s.red p).toNat = v) (Finset.range (s.cfg.width.toNat * s.cfg.height.toNat))).card :=
  List.countP_eq_length_filter

/-- Each pixel has one red sample, so the red counts of all values sum to the number of pixels (R226). -/
theorem sum_redCount (s : State) : ∑ v ∈ Finset.range 256, s.redCount v = s.cfg.width.toNat * s.cfg.height.toNat := by
  have hred : ∀ p ∈ Finset.range (s.cfg.width.toNat * s.cfg.height.toNat), (s.red p).toNat ∈ Finset.range 256 := fun p _ =>
    Finset.mem_range.mpr (s.red p).isLt
  simp only [redCount_eq_card]
  rw [← Finset.card_eq_sum_card_fiberwise hred, Finset.card_range]

/-- No value has more red samples than there are pixels. -/
theorem redCount_le (s : State) (v : Nat) : s.redCount v ≤ s.cfg.width.toNat * s.cfg.height.toNat :=
  List.countP_le_length.trans_eq List.length_range

/-- With LAYOUT 0, an image without pixels fails the check for an empty input (R271). -/
theorem checkSource_of_empty {c : ConfigRegs} (hl : c.layout = 0) (he : c.width = 0 ∨ c.height = 0) :
    checkSource c = some .emptyInput := by
  have he' : c.width.toNat = 0 ∨ c.height.toNat = 0 := he.imp (congrArg BitVec.toNat) (congrArg BitVec.toNat)
  rw [checkSource, hl, if_neg (fun h => h rfl), if_pos he']

/-! ## The running sum (R218) -/

/-- CUM at each bin is the sum of HIST up to it, modulo `2^32` (R218). -/
theorem cumulate_cum_eq_sum (s : State) {k : Nat} (hk : k < 256) :
    s.cumulate.cum.nth k = BitVec.ofNat 32 (∑ j ∈ Finset.range (k + 1), (s.hist.nth j).toNat) := by
  induction k with
  | zero => rw [cumulate_cum_zero, Finset.sum_range_one, BitVec.ofNat_toNat, BitVec.setWidth_eq]
  | succ k ih =>
    rw [cumulate_cum_succ s hk, ih (by omega), Finset.sum_range_succ _ (k + 1), BitVec.ofNat_add, BitVec.ofNat_toNat, BitVec.setWidth_eq,
      BitVec.add_comm]

/-! ## What scan and control commands leave (R227) -/

/-- HIST_CUM is the scan by indices and then the cumulative pass (R224). -/
theorem effectOf_histCum (s : State) : effectOf .histCum s = (s.scan indexSamples).cumulate := rfl

/-- The effect of a scan or control command changes HIST, CUM, LH and WDONE at most (R227). -/
theorem effectOf_frame (hc : commandClass i ≠ .pixel) :
    effectOf i s =
      { s with hist := (effectOf i s).hist, cum := (effectOf i s).cum, lh := (effectOf i s).lh, wdone := (effectOf i s).wdone } := by
  cases i with
  | nop => rfl
  | histClear => rfl
  | histColor => rw [effectOf, scan_frame columnSamples_samplesOf]
  | histGray => rw [effectOf, scan_frame indexSamples_samplesOf]
  | histCum =>
    rw [effectOf_histCum, scan_frame indexSamples_samplesOf]
    rfl
  | _ => exact absurd rfl hc

/-- Only HIST_CUM and HIST_CLEAR have an effect on CUM (R227). -/
theorem effectOf_cum (hcum : i ≠ .histCum) (hclear : i ≠ .histClear) : (effectOf i s).cum = s.cum := by
  cases i with
  | histColor => simp [effectOf, State.scan]
  | histGray => simp [effectOf, State.scan]
  | histCum => exact absurd rfl hcum
  | histClear => exact absurd rfl hclear
  | _ => rfl

/-- A control command leaves LH and WDONE (R227). -/
theorem effectOf_workers (hc : commandClass i = .control) : (effectOf i s).lh = s.lh ∧ (effectOf i s).wdone = s.wdone := by
  cases i with
  | nop => exact ⟨rfl, rfl⟩
  | histClear => exact ⟨rfl, rfl⟩
  | _ => cases hc

end Histogram

/-! ## The obligations -/

/-- Settles O31: the four ranges in a row are all indices, and an index divided by the section length is its worker. -/
theorem workerRangesPartitionTheTotal : Obligations.WorkerRangesPartitionTheTotal := by
  refine fun t j => ⟨by omega, fun i _ => ⟨Nat.min_le_left .., sectionEnd_eq_sectionStart⟩,
    ⟨exists_mem_sectionIndices, fun ⟨_, _, h⟩ => lt_of_mem_sectionIndices h⟩, fun i k _ _ hi hk => ?_, fun i _ => mem_sectionIndices⟩
  rw [← div_of_mem_sectionIndices hi, ← div_of_mem_sectionIndices hk]

/-- Settles O32: the workers leave the same state in any order, so the merge does too. -/
theorem workerOrderIsNotObservable : Obligations.WorkerOrderIsNotObservable := by
  intro s order hperm samples hsamples
  have hg : SamplesOf samples := by
    obtain rfl | rfl : samples = columnSamples ∨ samples = indexSamples := by simpa using hsamples
    · exact columnSamples_samplesOf
    · exact indexSamples_samplesOf
  rw [State.scan, foldl_runWorker_perm hg hperm (hperm.nodup_iff.mpr (by decide))]

/-- Settles O33: the pixels of a worker's columns, and of its range of indices, are each the image's pixels in its range, once. -/
theorem workersCountTheirOwnRanges : Obligations.WorkersCountTheirOwnRanges := by
  intro s hv i hi
  refine ⟨_, exec_scan (scan_of_mem hi) hv, fun w => ?_⟩
  have hindex : ∀ p, p ∈ sectionIndices (s.cfg.width.toNat * s.cfg.height.toNat) w.1 ↔
      p < s.cfg.width.toNat * s.cfg.height.toNat ∧ p ∈ sectionIndices (s.cfg.width.toNat * s.cfg.height.toNat) w.1 := fun _ =>
    (and_iff_right_of_imp lt_of_mem_sectionIndices).symm
  obtain rfl | rfl | rfl : i = .histColor ∨ i = .histGray ∨ i = .histCum := by simpa using hi
  · exact scan_local columnSamples_samplesOf hv (columnSamples_eq_map s w) (nodup_columnPixels ..) fun _ => mem_columnPixels
  · exact scan_local indexSamples_samplesOf hv rfl List.nodup_range' hindex
  · exact scan_local indexSamples_samplesOf hv rfl List.nodup_range' hindex

/-- Settles O34: the effect on HIST by either partition, then the termination. -/
theorem scanAddsRedCountsToHist : Obligations.ScanAddsRedCountsToHist := by
  intro s hv i hi
  have hc := scan_of_mem hi
  refine ⟨_, exec_scan hc hv, rfl, ?_, fun v => effectOf_hist_of_scan hc⟩
  rw [effectOf_frame (by rw [hc]; decide)]
  rfl

/-- Settles O35: from cleared bins each bin is its red count, which is exact, and an image without pixels fails validation. -/
theorem scanOfClearedBinsConservesPixels : Obligations.ScanOfClearedBinsConservesPixels := by
  refine fun s i hi => ⟨fun hv hzero => ?_, fun hl he => ?_⟩
  · obtain ⟨t, ht, _, _, hbins⟩ := scanAddsRedCountsToHist s hv i hi
    refine ⟨t, ht, (Finset.sum_congr rfl fun v hmem => ?_).trans (sum_redCount s)⟩
    have hlt := Finset.mem_range.mp hmem
    rw [hbins v hlt, hzero v hlt, BitVec.ofNat_eq_ofNat, BitVec.toNat_zero, Nat.zero_add, BitVec.toNat_ofNat]
    exact Nat.mod_eq_of_lt ((redCount_le s v).trans_lt hv.pixels_lt)
  · rw [exec_eq, runCommand_invalid]
    rw [validate, scan_of_mem hi]
    exact checkSource_of_empty hl he

/-- Settles O36: HIST is the scan's, and CUM its running sum. -/
theorem histCumWritesTheRunningSum : Obligations.HistCumWritesTheRunningSum := by
  refine fun s hv => ⟨_, exec_scan rfl hv, fun v => effectOf_hist_of_scan rfl, cumulate_cum_zero _, fun k hpos hk => ?_,
    fun k => cumulate_cum_eq_sum _⟩
  obtain ⟨k, rfl⟩ := Nat.exists_eq_add_of_le' hpos
  exact cumulate_cum_succ _ hk

/-- Settles O39: a command that fails changes ENG and STATUS alone, and one that passes has its effect besides. -/
theorem scanAndControlFrame : Obligations.ScanAndControlFrame := by
  intro i s t hc h
  obtain ⟨e, _, _, rfl⟩ | ⟨_, rfl⟩ := exec_cases h
  · exact ⟨rfl, rfl, fun _ _ => rfl, fun _ => rfl, fun _ => ⟨rfl, rfl⟩⟩
  · obtain ⟨_, _, hbusywr, _⟩ := exec_frame h
    refine ⟨?_, hbusywr, effectOf_cum, ?_, effectOf_workers⟩
    · rw [State.terminate, effectOf_frame hc]
    · rintro rfl
      rfl

/-- Settles O37: HIST_CLEAR runs no check, and its effect fills both files with 0. -/
theorem histClearZeroesBothFiles : Obligations.HistClearZeroesBothFiles := fun _ =>
  ⟨_, exec_control rfl, rfl, fun v _ => ⟨Bank.nth_fill_zero v, Bank.nth_fill_zero v⟩⟩

end Sys2Proof.Machine

/-! Proofs of the grayscale family (45_grayscale.md): the luma of bytes fits in a byte; the pixel of GRAY_LUMA; then the command. -/

namespace Sys2Proof.Machine

/-! ## The luma (R240) -/

/-- The luma weights sum to 1000, so the luma is at most a bound on the three channels (R240). -/
theorem lumaValue_le {r g b n : Nat} (hr : r ≤ n) (hg : g ≤ n) (hb : b ≤ n) : lumaValue r g b ≤ n :=
  Nat.div_le_of_le_mul (by omega)

/-- The three colours of a pixel of GRAY_LUMA are the luma of the source pixel, uncut (R240). -/
theorem luma_chan (s : State) (x y : Nat) {ch : Nat} (hch : ch < 3) :
    ((s.luma x y).chan ch).toNat = lumaValue (s.src x y 0).toNat (s.src x y 1).toNat (s.src x y 2).toNat := by
  have hle : ∀ c, (s.src x y c).toNat ≤ 255 := fun c => Nat.le_of_lt_succ (s.src x y c).isLt
  have hbyte : (toByte (lumaValue (s.src x y 0).toNat (s.src x y 1).toNat (s.src x y 2).toNat)).toNat =
      lumaValue (s.src x y 0).toNat (s.src x y 1).toNat (s.src x y 2).toNat :=
    toByte_toNat (lumaValue_le (hle 0) (hle 1) (hle 2))
  obtain rfl | rfl | rfl : ch = 0 ∨ ch = 1 ∨ ch = 2 := by omega
  all_goals exact hbyte

/-! ## The obligation -/

/-- Settles O24: GRAY_LUMA drives the luma of each source pixel, which fits in a byte, beside the source's alpha. -/
theorem grayLumaGivesTheLuma : Obligations.GrayLumaGivesTheLuma := by
  intro s hm hv
  obtain ⟨t, he, ht, hdst, _⟩ := exec_pixel (i := .grayLuma) rfl rfl hm hv nofun
  refine ⟨t, he, ht, fun x y hx hy => ⟨fun ch hch => ?_, hdst x y 3 hx hy (by decide)⟩⟩
  rw [hdst x y ch hx hy (by omega), luma_chan s x y hch, lumaValue]

end Sys2Proof.Machine

/-! Proofs of the system family (46_system.md): what a step is; what a transaction of each kind answers and does at the register
port, read or write, legal or not; and from these the register map while IDLE and while BUSY. -/

namespace Sys2Proof.Machine

/-! ## The engine's turn -/

/-- The engine's turn on a word that decodes is the command's meaning (R258). -/
theorem engineStep_of_decode_ok {s : State} {i : Instr} (h : decode s.cur = .ok i) : engineStep s = exec i s := by
  rw [engineStep, fetch, h]

/-- Settles O6: the engine's turn on a word that decodes. -/
theorem stepRunsTheDecodedCommand : Obligations.StepRunsTheDecodedCommand := fun _ _ hb hd hi =>
  (step_engine hb hd).trans (engineStep_of_decode_ok hi)

/-- Settles O8: the two cases of the host's turn. -/
theorem stepTakesTheNextHostAction : Obligations.StepTakesTheNextHostAction := fun _ ht =>
  ⟨fun _ _ hq => step_host_cons ht hq, step_host_nil ht⟩

/-- Settles O38: NOP passes validation and has no effect, so that DONE is the one flag that `irq` can show. -/
theorem nopOnlyTerminates : Obligations.NopOnlyTerminates := fun s =>
  ⟨s.finished s.mem, exec_control rfl, rfl, by simp [State.irq]⟩

section RegisterPort

variable {s : State} {rest : List HostAct} {off : BitVec 12} {size : Nat} {v : Word} {r : RegName}

/-! ## Offsets -/

/-- Every register stands at a multiple of 4 (R33). -/
theorem regOffset_aligned (r : RegName) : (BitVec.ofNat 12 (regOffset r)).toNat % 4 = 0 := by
  rw [BitVec.toNat_ofNat]
  cases r <;> simp only [regOffset] <;> omega

/-- At an operand's offset stands a register that takes writes only while IDLE (R33, R255). -/
theorem regAt_operand (h : OperandOffset off) : ∃ r, regAt off = some r ∧ r.alwaysWritable = false ∧ r ≠ .ctrl := by
  obtain ⟨ha, hrange⟩ := h
  unfold regAt
  split
  · exact ⟨_, rfl, rfl, nofun⟩
  split
  · exact ⟨_, rfl, rfl, nofun⟩
  split
  · exact ⟨_, rfl, rfl, nofun⟩
  generalize off.toNat = n at *
  obtain rfl | rfl | rfl | rfl | rfl | rfl | rfl | rfl | rfl : n = 0x014 ∨ n = 0x018 ∨ n = 0x01C ∨ n = 0x020 ∨ n = 0x024 ∨
      n = 0x028 ∨ n = 0x02C ∨ n = 0x030 ∨ n = 0x034 := by omega
  all_goals exact ⟨_, rfl, rfl, nofun⟩

/-! ## What a transaction answers and does -/

/-- The legal accesses are those of 32 bits at a multiple of 4 (R251). -/
theorem legalAccess_iff : legalAccess off size = true ↔ size = 32 ∧ off.toNat % 4 = 0 := by simp [legalAccess]

/-- An access of another size or at another offset is illegal (R251). -/
theorem legalAccess_eq_false (h : size ≠ 32 ∨ off.toNat % 4 ≠ 0) : legalAccess off size = false := by
  rw [← Bool.not_eq_true, legalAccess_iff]
  omega

/-- A legal read of a register answers OKAY with its word (R252). -/
theorem portRead_register (ha : off.toNat % 4 = 0) (hr : regAt off = some r) : portRead off 32 s = s.okayedRead (readReg r s) := by
  simp only [portRead_eq, portResp, portReadData, legalAccess_iff.mpr ⟨rfl, ha⟩, if_true, hr, State.okayedRead]

/-- A read of an unmapped offset answers OKAY with 0 (R49, R252). -/
theorem portRead_unmapped (h : UnmappedOffset off) : portRead off 32 s = s.okayedRead 0 := by
  simp only [portRead_eq, portResp, portReadData, legalAccess_iff.mpr ⟨rfl, h.1⟩, if_true, regAt_unmapped h, State.okayedRead]

/-- An illegal read answers SLVERR with 0 (R251). -/
theorem portRead_illegal (h : size ≠ 32 ∨ off.toNat % 4 ≠ 0) :
    portRead off size s = { s with replies := .regRead .slverr 0 :: s.replies, draws := s.draws + 1 } := by
  simp only [portRead_eq, portResp, portReadData, legalAccess_eq_false h, Bool.false_eq_true, if_false]

/-- A legal write to a register is the register's write, answered OKAY (R253, R255, R256). -/
theorem portWrite_register (ha : off.toNat % 4 = 0) (hr : regAt off = some r) : portWrite off 32 v s = (writeReg r v s).okayed := by
  simp only [portWrite, portResp, legalAccess_iff.mpr ⟨rfl, ha⟩, if_true, hr, State.answer, State.okayed]

/-- A write to an unmapped offset does nothing and is answered OKAY (R49, R253, R256). -/
theorem portWrite_unmapped (h : UnmappedOffset off) : portWrite off 32 v s = s.okayed := by
  simp only [portWrite, portResp, legalAccess_iff.mpr ⟨rfl, h.1⟩, if_true, regAt_unmapped h, State.answer, State.okayed]

/-- An illegal write does nothing and is answered SLVERR (R251). -/
theorem portWrite_illegal (h : size ≠ 32 ∨ off.toNat % 4 ≠ 0) :
    portWrite off size v s = { s with replies := .regWrote .slverr :: s.replies } := by
  simp only [portWrite, portResp, legalAccess_eq_false h, Bool.false_eq_true, if_false, State.answer]

/-! ## Steps that read -/

/-- A step in which the host reads through the register port (R250). -/
theorem step_regRead (ht : s.hostTurn) (hq : s.host = .regRead off size :: rest) : step s = .next (portRead off size (s.passed rest)) := by
  rw [step_host_cons ht hq, hostAct]

/-- A step of the host's turn moves no register (R250). -/
theorem readReg_passed (r : RegName) : readReg r (s.passed rest) = readReg r s := by cases r <;> rfl

/-- A read at a register's offset answers OKAY with the register's word (R252). -/
theorem step_readReg (r : RegName) (ht : s.hostTurn) (hq : s.host = .regRead (BitVec.ofNat 12 (regOffset r)) 32 :: rest) :
    step s = .next ((s.passed rest).okayedRead (readReg r s)) := by
  rw [step_regRead ht hq, portRead_register (regOffset_aligned r) (regAt_regOffset r), readReg_passed]

/-- The bin itself is read while IDLE (R252). -/
theorem readBin_idle {bins : Bank Word 256} {i : Fin 256} (hi : s.eng = .idle) : readBin bins i s = bins.nth i.1 := by
  rw [readBin, hi]

/-- The registers in front of the kernel weights, in the order of their offsets (R33). -/
def frontRegs : List RegName :=
  [.id, .caps, .ctrl, .status, .irqEn, .cmd, .width, .height, .layout, .srcBase, .srcLen, .dstBase, .kradius, .knorm]

/-! ## Steps that write -/

/-- A step in which the host writes through the register port; a START is one of a host that has done its duty (R250, R262). -/
theorem step_regWrite (ht : s.hostTurn) (hq : s.host = .regWrite off size v :: rest)
    (hs : s.eng = .idle → size = 32 → off = 0x008 → v.getLsbD 0 = true → s.Prepared) :
    step s = .next (portWrite off size v (s.passed rest)) := by
  rw [step_host_cons ht hq, hostAct, hostRegWrite_next (s := s.passed rest) hs]

/-- A legal write to a register other than CTRL (R253, R255, R256). -/
theorem step_writeReg (ht : s.hostTurn) (hq : s.host = .regWrite off 32 v :: rest) (ha : off.toNat % 4 = 0) (hr : regAt off = some r)
    (hc : r ≠ .ctrl) : step s = .next (writeReg r v (s.passed rest)).okayed := by
  have hoff : off ≠ 0x008 := by
    rintro rfl
    exact hc (Option.some.inj hr).symm
  rw [step_regWrite ht hq fun _ _ ho => absurd ho hoff, portWrite_register ha hr]

/-- A START by a host that has written what its command reads is accepted (R258, R262). -/
theorem step_start (hi : s.eng = .idle) (hp : s.Prepared) (hq : s.host = .regWrite 0x008 32 v :: rest) (hv : v.getLsbD 0 = true) :
    step s = .next (s.passed rest).acceptStart.okayed := by
  rw [step_regWrite (.inl hi) hq fun _ _ _ _ => hp, portWrite_start (s := s.passed rest) hi hv]
  rfl

/-- A write that is stored while IDLE (R253). `store` is what the register's write does to the state. -/
theorem step_write_stored {store : State → State} (hi : s.eng = .idle) (hq : s.host = .regWrite off 32 v :: rest)
    (ha : off.toNat % 4 = 0) (hr : regAt off = some r) (hc : r ≠ .ctrl) (hw : ∀ t, writeReg r v t = t.whenIdle store) :
    step s = .next (store (s.passed rest)).okayed := by
  rw [step_writeReg (.inl hi) hq ha hr hc, hw, whenIdle_idle (s := s.passed rest) hi]

/-- A write at a register's own offset that is stored while IDLE (R253). -/
theorem step_write_stored_at {store : State → State} (r : RegName) (hi : s.eng = .idle)
    (hq : s.host = .regWrite (BitVec.ofNat 12 (regOffset r)) 32 v :: rest) (hc : r ≠ .ctrl) (hw : ∀ t, writeReg r v t = t.whenIdle store) :
    step s = .next (store (s.passed rest)).okayed :=
  step_write_stored hi hq (regOffset_aligned r) (regAt_regOffset r) hc hw

/-- Every register but CTRL and those that are always writable stores its writes only while IDLE (R253, R255). -/
theorem writeReg_eq_whenIdle (v : Word) (hr : r.alwaysWritable = false) (hc : r ≠ .ctrl) :
    ∃ store, ∀ s, writeReg r v s = s.whenIdle store := by
  cases r with
  | id | caps | status | irqEn => cases hr
  | ctrl => exact absurd rfl hc
  | _ => exact ⟨_, fun _ => rfl⟩

/-- A write to an operand, HIST or CUM while BUSY is dropped (R255). -/
theorem step_write_dropped (hb : s.eng = .busy) (hd : s.delay ≠ 0) (ho : OperandOffset off) (hq : s.host = .regWrite off 32 v :: rest) :
    step s = .next (s.passed rest).dropWrite.okayed := by
  obtain ⟨r, hr, haw, hc⟩ := regAt_operand ho
  obtain ⟨store, hw⟩ := writeReg_eq_whenIdle v haw hc
  rw [step_writeReg (.inr hd) hq ho.1 hr hc, hw, whenIdle_busy (s := s.passed rest) hb]

/-- A START while BUSY is dropped (R259). -/
theorem step_start_dropped (hb : s.eng = .busy) (hd : s.delay ≠ 0) (hv : v.getLsbD 0 = true) (hq : s.host = .regWrite 0x008 32 v :: rest) :
    step s = .next (s.passed rest).dropWrite.okayed := by
  rw [step_regWrite (.inr hd) hq fun hi => absurd (hi.symm.trans hb) nofun, portWrite_register (r := .ctrl) rfl rfl, writeReg, if_pos hv,
    whenIdle_busy (s := s.passed rest) hb]

/-- A write to STATUS takes effect whatever the engine does (R253, R256). -/
theorem step_write_status (ht : s.hostTurn) (hq : s.host = .regWrite 0x00C 32 v :: rest) :
    step s = .next ((s.passed rest).acknowledge v).okayed :=
  step_writeReg (r := .status) ht hq rfl rfl nofun

/-- A write to IRQ_EN takes effect whatever the engine does (R253, R256). -/
theorem step_write_irqEn (ht : s.hostTurn) (hq : s.host = .regWrite 0x010 32 v :: rest) :
    step s = .next ((s.passed rest).setIrqEn v).okayed :=
  step_writeReg (r := .irqEn) ht hq rfl rfl nofun

/-- A write to ID, CAPS or an unmapped offset, or to CTRL with START clear, does nothing whatever the engine does (R253, R256). -/
theorem step_write_ignored (ht : s.hostTurn) (ho : off = 0x000 ∨ off = 0x004 ∨ (off = 0x008 ∧ v.getLsbD 0 = false) ∨ UnmappedOffset off)
    (hq : s.host = .regWrite off 32 v :: rest) : step s = .next (s.passed rest).okayed := by
  obtain rfl | rfl | ⟨rfl, hv⟩ | hu := ho
  · exact step_writeReg (r := .id) ht hq rfl rfl nofun
  · exact step_writeReg (r := .caps) ht hq rfl rfl nofun
  · have hv : v.getLsbD 0 ≠ true := Bool.eq_false_iff.mp hv
    rw [step_regWrite ht hq fun _ _ _ h => absurd h hv, portWrite_register (r := .ctrl) rfl rfl, writeReg, if_neg hv]
  · have hoff : off ≠ 0x008 := by
      rintro rfl
      exact absurd (regAt_unmapped hu) nofun
    rw [step_regWrite ht hq fun _ _ ho => absurd ho hoff, portWrite_unmapped hu]

end RegisterPort

/-- A stored bin or weight is read back, and every other one is as before (R253). -/
theorem Bank.nth_set_of_lt {n k : Nat} (b : Bank Word n) (v : Word) (j : Nat) (hj : j < n) :
    (b.set k v).nth j = if j = k then v else b.nth j :=
  (Bank.nth_set b v hj).trans (if_congr eq_comm rfl rfl)

/-! ## The obligations -/

/-- Settles O40: each listed word is what its register reads, and a bin is read as itself while IDLE. -/
theorem registerReadsReturn : Obligations.RegisterReadsReturn := by
  refine fun s rest ht => ⟨fun p hp hq => ?_, fun k hk hq => step_readReg (.kw ⟨k, hk⟩) ht hq,
    fun k hk hq => ⟨_, step_readReg (.hist ⟨k, hk⟩) ht hq, readBin_idle⟩,
    fun k hk hq => ⟨_, step_readReg (.cum ⟨k, hk⟩) ht hq, readBin_idle⟩, fun off hu hq => ?_⟩
  · have hmap : p ∈ frontRegs.map fun r => (BitVec.ofNat 12 (regOffset r), readReg r s) := hp
    obtain ⟨r, _, rfl⟩ := List.mem_map.mp hmap
    exact step_readReg r ht hq
  · rw [step_regRead ht hq, portRead_unmapped hu]

/-- Settles O43: acceptance, and the answer to the write. -/
theorem startIsAccepted : Obligations.StartIsAccepted := fun _ _ _ hi hp hq hv => ⟨_, step_start hi hp hq hv, rfl⟩

/-- Settles O42: operands and bins are stored, and each other register does its own part. -/
theorem writesWhileIdle : Obligations.WritesWhileIdle := by
  refine fun s rest v hi => ⟨fun p hp hq => ?_, fun k hk hq => ?_, fun k hk hq => ?_, fun k hk hq => ?_, step_write_irqEn (.inl hi),
    fun hq => ⟨_, step_write_status (.inl hi) hq⟩, fun hq hv hp => ⟨_, step_start hi hp hq hv, rfl, rfl⟩,
    fun off ho => step_write_ignored (.inl hi) ho⟩
  · simp only [List.mem_cons, List.not_mem_nil, or_false] at hp
    obtain rfl | rfl | rfl | rfl | rfl | rfl | rfl | rfl | rfl := hp
    all_goals
      dsimp only at hq
      exact ⟨_, step_write_stored hi hq rfl rfl nofun fun _ => rfl⟩
  · exact ⟨_, _, step_write_stored_at (.kw ⟨k, hk⟩) hi hq nofun fun _ => rfl, Bank.nth_set_of_lt _ v⟩
  · exact ⟨_, _, step_write_stored_at (.hist ⟨k, hk⟩) hi hq nofun fun _ => rfl, Bank.nth_set_of_lt _ v⟩
  · exact ⟨_, step_write_stored_at (.cum ⟨k, hk⟩) hi hq nofun fun _ => rfl, Bank.nth_set_of_lt _ v⟩

/-- Settles O44: an operand's write and a START are each dropped while BUSY. -/
theorem writesWhileBusyAreDropped : Obligations.WritesWhileBusyAreDropped := by
  rintro s rest off v hb hd (ho | ⟨rfl, hv⟩) hq
  · exact step_write_dropped hb hd ho hq
  · exact step_start_dropped hb hd hv hq

/-- Settles O45: these writes do in the host's turn what they do while IDLE. -/
theorem writesAcceptedWhileBusy : Obligations.WritesAcceptedWhileBusy := fun _ _ _ _ hd =>
  ⟨fun hq => ⟨_, step_write_status (.inr hd) hq⟩, step_write_irqEn (.inr hd), fun _ ho => step_write_ignored (.inr hd) ho⟩

/-- Settles O46: an illegal access is no START and is answered SLVERR. -/
theorem illegalAccessAnswersSlverr : Obligations.IllegalAccessAnswersSlverr := by
  intro s rest off size v ht hill
  have hctrl : size = 32 → off ≠ 0x008 := by
    rintro rfl rfl
    exact absurd hill (by decide)
  refine ⟨fun hq => ?_, fun hq => ?_⟩
  · rw [step_regWrite ht hq fun _ hsize ho => absurd ho (hctrl hsize), portWrite_illegal hill]
    rfl
  · rw [step_regRead ht hq, portRead_illegal hill]
    rfl

end Sys2Proof.Machine

/-! Proofs of the exceptions family (60_exceptions.md): which code each check of R271 reports where it is the first to fail; then
the two ends of a command, and the interrupt line. -/

namespace Sys2Proof.Machine

section Validation

variable {c : ConfigRegs} {i : Instr} {s : State} {e : ErrorCode}

/-! ## The two comparisons of addresses -/

/-- A region is in range where its end is at or below `2^32` (R273). -/
theorem inRange_iff {base len : Nat} : inRange base len = true ↔ base + len ≤ 2 ^ 32 := decide_eq_true_iff

/-- Two regions of one length overlap where each begins before the other ends (R274). -/
theorem overlap_iff {sb db len : Nat} : overlap sb db len = true ↔ sb < db + len ∧ db < sb + len := by
  rw [overlap, Bool.and_eq_true, decide_eq_true_iff, decide_eq_true_iff]

/-! ## The code of each check -/

/-- The layout is checked first (R271). -/
theorem checkSource_of_layout (hl : c.layout ≠ 0) : checkSource c = some .invalidLayout :=
  if_pos fun h => hl (BitVec.eq_of_toNat_eq h)

/-- What is left of the shared checks once the layout is 0 and the image has pixels (R271). -/
theorem checkSource_of_nonempty (hl : c.layout = 0) (hw : c.width ≠ 0) (hh : c.height ≠ 0) :
    checkSource c =
      if c.srcLen.toNat ≠ 4 * c.width.toNat * c.height.toNat then some .invalidBuffer
      else if inRange c.srcBase.toNat c.srcLen.toNat then none else some .addressRange := by
  have hpixels : ¬(c.width.toNat = 0 ∨ c.height.toNat = 0) := by
    rintro (h | h)
    · exact hw (BitVec.eq_of_toNat_eq h)
    · exact hh (BitVec.eq_of_toNat_eq h)
  rw [checkSource, hl, if_neg (fun h => h rfl), if_neg hpixels]

/-- A source buffer of the wrong length fails the third check (R271). -/
theorem checkSource_of_length (hl : c.layout = 0) (hw : c.width ≠ 0) (hh : c.height ≠ 0)
    (hlen : c.srcLen.toNat ≠ 4 * c.width.toNat * c.height.toNat) : checkSource c = some .invalidBuffer := by
  rw [checkSource_of_nonempty hl hw hh, if_pos hlen]

/-- A source buffer of the right length that ends above `2^32` fails the last of the shared checks (R271, R273). -/
theorem checkSource_of_range (hl : c.layout = 0) (hw : c.width ≠ 0) (hh : c.height ≠ 0)
    (hlen : c.srcLen.toNat = 4 * c.width.toNat * c.height.toNat) (hr : 2 ^ 32 < c.srcBase.toNat + c.srcLen.toNat) :
    checkSource c = some .addressRange := by
  rw [checkSource_of_nonempty hl hw hh, if_neg (not_not_intro hlen), if_neg (mt inRange_iff.mp hr.not_ge)]

/-- A destination buffer that ends above `2^32` fails the first check of the destination (R271, R273). -/
theorem checkDest_of_range (hr : 2 ^ 32 < c.dstBase.toNat + c.srcLen.toNat) : checkDest c = some .addressRange :=
  if_neg (mt inRange_iff.mp hr.not_ge)

/-- A destination buffer in range that overlaps the source buffer fails the second (R271, R274). -/
theorem checkDest_of_overlap (hr : c.dstBase.toNat + c.srcLen.toNat ≤ 2 ^ 32) (hs : c.srcBase.toNat < c.dstBase.toNat + c.srcLen.toNat)
    (hd : c.dstBase.toNat < c.srcBase.toNat + c.srcLen.toNat) : checkDest c = some .bufferOverlap := by
  rw [checkDest, if_pos (inRange_iff.mpr hr), if_pos (overlap_iff.mpr ⟨hs, hd⟩)]

/-- A kernel with too large a radius or with divisor 0 fails the kernel check (R275). -/
theorem checkKernel_of_illegal (h : 2 < c.kradius.toNat ∨ c.knorm = 0) : checkKernel c = some .invalidKernel :=
  if_pos (h.imp_right (congrArg BitVec.toNat))

/-! ## The first failing check -/

/-- The checks of the source come first for every command that is not a control command (R271). -/
theorem validate_of_checkSource (hc : commandClass i ≠ .control) (h : checkSource c = some e) : validate i c = some e := by
  unfold validate
  split
  · next hcontrol => exact absurd hcontrol hc
  · exact h
  · rw [h]
    rfl

/-- The checks of the destination come next for a pixel command (R271). -/
theorem validate_of_checkDest (hc : commandClass i = .pixel) (hv : ValidSource c) (h : checkDest c = some e) : validate i c = some e := by
  rw [validate, hc, checkSource_none.mpr hv, h]
  rfl

/-- The kernel check comes last, for CONV_CUSTOM (R271, R275). -/
theorem validate_of_checkKernel (hv : ValidPixel c) (h : checkKernel c = some e) : validate .convCustom c = some e := by
  obtain ⟨hs, hd⟩ := hv
  rw [validate, commandClass, checkSource_none.mpr hs, checkDest_none.mpr hd, if_pos rfl, h]
  rfl

/-! ## The two ends of a command -/

/-- A command that fails a check ends in the failed state of that check's code (R277). -/
theorem exec_invalid (h : validate i s.cfg = some e) : exec i s = .next (s.failed e) := by
  rw [exec_eq, runCommand_invalid h]

/-- A command that passes validation has its whole effect and terminates with code 0 (R278). -/
theorem exec_valid (h : validate i s.cfg = none) : exec i s = .next ((effectOf i s).terminate .ok) := by
  rw [exec_eq, runCommand_valid h]

/-- No command faults or is refused (R276). -/
theorem exec_next (i : Instr) (s : State) : ∃ t, exec i s = .next t := by
  cases h : validate i s.cfg with
  | some e => exact ⟨_, exec_invalid h⟩
  | none => exact ⟨_, exec_valid h⟩

/-- A command passes validation where every check of its class passes (R271). -/
theorem validate_eq_none (h : commandClass i = .control ∨ (commandClass i = .scan ∧ ValidSource c) ∨
    (commandClass i = .pixel ∧ ValidPixel c ∧ (i = .convCustom → ValidKernel c))) : validate i c = none := by
  obtain hc | ⟨hc, hv⟩ | ⟨hc, hv⟩ := h
  · exact validate_control hc
  · exact (validate_scan hc).mpr hv
  · exact (validate_pixel hc).mpr hv

end Validation

/-! ## The obligations -/

/-- Settles O9: each check's code by its own lemma, and its place in the order by the lemmas on `validate`. -/
theorem validationReportsFirstFailingCheck : Obligations.ValidationReportsFirstFailingCheck := by
  refine fun i s => ⟨fun hc => ?_, fun hc hv => ?_, ?_, fun hpass => ⟨_, exec_valid (validate_eq_none hpass), rfl⟩⟩
  · have source {e : ErrorCode} (h : checkSource s.cfg = some e) : exec i s = .next (s.failed e) :=
      exec_invalid (validate_of_checkSource hc h)
    exact ⟨fun hl => source (checkSource_of_layout hl), fun hl he => source (checkSource_of_empty hl he), fun hl hw hh =>
      ⟨fun hlen => source (checkSource_of_length hl hw hh hlen), fun hlen hr => source (checkSource_of_range hl hw hh hlen hr)⟩⟩
  · have dest {e : ErrorCode} (h : checkDest s.cfg = some e) : exec i s = .next (s.failed e) :=
      exec_invalid (validate_of_checkDest hc hv h)
    exact ⟨fun hr => dest (checkDest_of_range hr), fun hr hs hd => dest (checkDest_of_overlap hr hs hd)⟩
  · rintro rfl hv hk
    exact exec_invalid (validate_of_checkKernel hv (checkKernel_of_illegal hk))

/-- Settles O10: every command goes on, and the frame of its termination has the four flags. -/
theorem everyCommandTerminates : Obligations.EveryCommandTerminates := by
  intro i s
  obtain ⟨t, h⟩ := exec_next i s
  obtain ⟨heng, hdone, hbusywr, herr, _⟩ := exec_frame h
  exact ⟨t, h, heng, hdone, herr, hbusywr⟩

/-- Settles O11: a command that ends with a code other than 0 has failed a check, since one that passes ends with code 0. -/
theorem errorsLeaveNoPartialEffect : Obligations.ErrorsLeaveNoPartialEffect := by
  intro i s t h hcode
  obtain ⟨e, _, _, rfl⟩ | ⟨_, rfl⟩ := exec_cases h
  · rfl
  · exact absurd rfl hcode

/-- Settles O47: the four bits are the two flags and their enables, and reset clears the enables. -/
theorem irqIsTheEnabledPendingBits : Obligations.IrqIsTheEnabledPendingBits := by
  refine ⟨fun s => ?_, fun _ _ _ _ _ _ _ _ _ => rfl⟩
  obtain ⟨_, hdone, herr, _⟩ := statusWord_flags s
  obtain ⟨hdoneIe, herrIe, _⟩ := irqEnWord_fields s
  rw [hdone, herr, hdoneIe, herrIe, State.irq]

end Sys2Proof.Machine

/-! Proofs of the reset and hazards family (70_reset_and_hazards.md): which accesses to data memory are faults, and which actions
of the host are; what a step does to the record of the host's duties; what a reset leaves; and that a command ends with its delay. -/

namespace Sys2Proof.Machine

section Hazards

variable {s t : State} {i : Instr} {a : Word} {r : Fault}

/-! ## The guarded bytes (R310) -/

/-- The running command guards its destination region where it is a pixel command. -/
theorem guardsDest_of_running {x : Nat} (h : s.running = some i) : s.guardsDest x = true ↔ commandClass i = .pixel ∧ InDest s.cfg x := by
  simp [guardsDest_iff, State.runningClass, h]

/-- The running command guards its source region where it is no control command. -/
theorem guardsSource_of_running {x : Nat} (h : s.running = some i) :
    s.guardsSource x = true ↔ commandClass i ≠ .control ∧ InSource s.cfg x := by
  rw [guardsSource_iff, State.runningClass, h, Option.map_some, Option.some.injEq, Option.some.injEq]
  cases commandClass i <;> simp

/-- Where no command runs, no destination byte is guarded. -/
theorem guardsDest_of_not_running {x : Nat} (h : s.running = none) : ¬s.guardsDest x = true := by
  simp [guardsDest_iff, State.runningClass, h]

/-- Where no command runs, no source byte is guarded. -/
theorem guardsSource_of_not_running {x : Nat} (h : s.running = none) : ¬s.guardsSource x = true := by
  simp [guardsSource_iff, State.runningClass, h]

/-! ## After one step of the host's turn gone by (R250, R315) -/

@[simp] theorem State.passed_eng (rest : List HostAct) : (s.passed rest).eng = s.eng := rfl
@[simp] theorem State.passed_cfg (rest : List HostAct) : (s.passed rest).cfg = s.cfg := rfl
@[simp] theorem State.passed_duties (rest : List HostAct) : (s.passed rest).duties = s.duties := rfl
@[simp] theorem State.passed_running (rest : List HostAct) : (s.passed rest).running = s.running := rfl
@[simp] theorem State.passed_prepared (rest : List HostAct) : (s.passed rest).Prepared ↔ s.Prepared := .rfl

/-- While BUSY one model step of the completion delay goes by. -/
theorem passed_delay_of_busy {rest : List HostAct} (hb : s.eng = .busy) : (s.passed rest).delay = s.delay - 1 := by
  rw [State.passed, if_pos hb]

/-! ## The actions of the host that are faults (R310, R262) -/

/-- An outcome that is a fault is one fault only. -/
theorem fault_eq_fault_iff {r' : Fault} : (.fault r' : Host.Outcome State Fault Refusal) = .fault r ↔ r = r' :=
  ⟨fun h => by cases h; rfl, fun h => h ▸ rfl⟩

/-- A host read is a fault exactly at a destination byte of a running pixel command (R310). -/
theorem hostMemRead_fault_iff :
    hostMemRead a s = .fault r ↔
      ∃ i, s.running = some i ∧ commandClass i = .pixel ∧ InDest s.cfg a.toNat ∧ r = .hazard .destRead := by
  cases hr : s.running with
  | none => simp [hostMemRead_next (guardsDest_of_not_running hr)]
  | some i =>
    simp only [Option.some.injEq, exists_eq_left']
    simp only [← and_assoc, ← guardsDest_of_running hr]
    rw [hostMemRead]
    split
    · next hd => rw [fault_eq_fault_iff]; simp [hd]
    · next hd => simp [hd]

/-- A host write is a fault exactly at a destination byte of a running pixel command, and at a source byte of a running pixel or
scan command (R310). -/
theorem hostMemWrite_fault_iff {v : Byte} :
    hostMemWrite a v s = .fault r ↔
      ∃ i, s.running = some i ∧
        ((commandClass i = .pixel ∧ InDest s.cfg a.toNat ∧ r = .hazard .destWrite) ∨
          (commandClass i ≠ .control ∧ InSource s.cfg a.toNat ∧ ¬(commandClass i = .pixel ∧ InDest s.cfg a.toNat) ∧
            r = .hazard .sourceWrite)) := by
  cases hr : s.running with
  | none => simp [hostMemWrite_next (guardsDest_of_not_running hr) (guardsSource_of_not_running hr)]
  | some i =>
    simp only [Option.some.injEq, exists_eq_left', ← and_assoc, ← guardsDest_of_running hr, ← guardsSource_of_running hr]
    rw [hostMemWrite]
    split
    · next hd => rw [fault_eq_fault_iff]; simp [hd]
    · next hd =>
      split
      · next hs => rw [fault_eq_fault_iff]; simp [hs, hd]
      · next hs => simp [hs, hd]

/-- A register write is a fault exactly where it starts a command with an operand not written (R262). -/
theorem hostRegWrite_fault_iff {off : BitVec 12} {size : Nat} {v : Word} :
    hostRegWrite off size v s = .fault r ↔
      (off = 0x008 ∧ size = 32) ∧ s.eng = .idle ∧ v.getLsbD 0 = true ∧ ¬s.Prepared ∧ r = .hazard .operandUnwritten := by
  obtain ⟨e, hp⟩ | ⟨e, hi, hsize, hoff, hv, hp⟩ := hostRegWrite_cases off size v s
  · rw [e]
    exact ⟨nofun, fun ⟨⟨ho, hs⟩, hi, hv, hn, _⟩ => absurd (hp hi hs ho hv) hn⟩
  · rw [e, fault_eq_fault_iff]
    exact ⟨fun hr => ⟨⟨hoff, hsize⟩, hi, hv, hp, hr⟩, fun ⟨_, _, _, _, hr⟩ => hr⟩

/-- A sleep is a fault exactly where DONE or ERR is still to be cleared (R262). -/
theorem hostSleep_fault_iff :
    hostSleep s = .fault r ↔ (s.duties.doneOwed = true ∨ s.duties.errOwed = true) ∧ r = .hazard .irqNotCleared := by
  simp only [hostSleep, Bool.or_eq_true]
  split
  · next ho => rw [fault_eq_fault_iff]; simp [ho]
  · next ho => simp [ho]

/-! ## The action of a step -/

/-- In a step the host does one action, which is the whole step, or none; a step with none goes on and leaves the duties as they
are (R250, R258). -/
theorem step_acts_cases (s : State) :
    (∃ t, step s = .next t ∧ t.duties = s.duties ∧ ∀ b, ¬s.acts b) ∨
      ∃ a rest, (∀ b, s.acts b ↔ a = b) ∧ step s = hostAct a (s.passed rest) := by
  obtain ⟨hb, hd⟩ | ht := turn_cases s
  · obtain ⟨t, he⟩ := engineStep_next s
    refine .inl ⟨t, (step_engine hb hd).trans he, ?_, ?_⟩
    · obtain ⟨e, _, rfl⟩ | ⟨i, _, hi⟩ := engineStep_cases he
      · rfl
      · obtain ⟨_, _, _, _, _, _, _, _, _, _, _, _, hduties⟩ := exec_frame hi
        exact hduties
    · rintro b ⟨hi | hne, _⟩
      · exact absurd (hi.symm.trans hb) nofun
      · exact hne hd
  · cases hq : s.host with
    | nil => exact .inl ⟨_, step_host_nil ht hq, rfl, by simp [State.acts, hq]⟩
    | cons a rest => exact .inr ⟨a, rest, by simp [State.acts, ht, hq], step_host_cons ht hq⟩

/-- Whether an action is a fault does not depend on the step of the host's turn gone by before it. -/
theorem hostAct_passed_fault_iff {act : HostAct} {rest : List HostAct} :
    hostAct act (s.passed rest) = .fault r ↔ hostAct act s = .fault r := by
  cases act <;> simp [hostAct, hostRegWrite_fault_iff, hostMemRead_fault_iff, hostMemWrite_fault_iff, hostSleep_fault_iff]

/-- A step is a fault exactly where the host's action in it is one. -/
theorem step_fault_iff : step s = .fault r ↔ ∃ act, s.acts act ∧ hostAct act s = .fault r := by
  obtain ⟨t, he, _, hno⟩ | ⟨act, rest, hacts, he⟩ := step_acts_cases s
  · simp [he, hno]
  · simp [he, hacts, hostAct_passed_fault_iff]

end Hazards

/-! ## The record of the duties (R262) -/

section Duties

variable {s t : State}

/-- A register stands at its own offset and at no other that is a multiple of 4 (R33). -/
theorem regAt_eq_some_iff {off : BitVec 12} {r : RegName} :
    regAt off = some r ∧ off.toNat % 4 = 0 ↔ off = BitVec.ofNat 12 (regOffset r) := by
  constructor
  · rintro ⟨hr, ha⟩
    have hoff : off.toNat = regOffset r := by
      unfold regAt at hr
      split at hr
      · cases hr; simp only [regOffset]; omega
      split at hr
      · cases hr; simp only [regOffset]; omega
      split at hr
      · cases hr; simp only [regOffset]; omega
      generalize off.toNat = n at hr
      unfold controlReg at hr
      split at hr <;> cases hr <;> rfl
    rw [← hoff, BitVec.ofNat_toNat, BitVec.setWidth_eq]
  · rintro rfl
    exact ⟨regAt_regOffset r, regOffset_aligned r⟩

/-- The operands written once register `r` is written while IDLE (R253, R262). -/
def OperandsWritten.mark (r : RegName) (w : OperandsWritten) : OperandsWritten :=
  match r with
  | .width => { w with width := true }
  | .height => { w with height := true }
  | .layout => { w with layout := true }
  | .srcBase => { w with srcBase := true }
  | .srcLen => { w with srcLen := true }
  | .dstBase => { w with dstBase := true }
  | .kradius => { w with kradius := true }
  | .kw k => { w with kw := w.kw.set k.1 true }
  | .hist i => { w with hist := w.hist.set i.1 true }
  | _ => w

/-- The operands of one register each, with their marks (R124). -/
def operandFlags : List (RegName × (OperandsWritten → Bool)) :=
  [(.width, OperandsWritten.width), (.height, OperandsWritten.height), (.layout, OperandsWritten.layout), (.srcBase, OperandsWritten.srcBase),
    (.srcLen, OperandsWritten.srcLen), (.dstBase, OperandsWritten.dstBase), (.kradius, OperandsWritten.kradius)]

/-- No mark of these is at CTRL, none is set by reset, and no START changes one (R303). -/
theorem operandFlags_fixed :
    ∀ q ∈ operandFlags, q.1 ≠ .ctrl ∧ q.2 HostDuties.none.written = false ∧ ∀ cmd w, q.2 (OperandsWritten.started cmd w) = q.2 w := by
  simp [operandFlags, HostDuties.none]

/-- A mark of these is set by a write of its own register and by no other. -/
theorem mark_operandFlags : ∀ q ∈ operandFlags, ∀ r w, q.2 (OperandsWritten.mark r w) = true ↔ r = q.1 ∨ q.2 w = true := by
  intro q hq r w
  simp only [operandFlags, List.mem_cons, List.not_mem_nil, or_false] at hq
  obtain rfl | rfl | rfl | rfl | rfl | rfl | rfl := hq
  all_goals cases r <;> simp [OperandsWritten.mark]

/-- The mark of a weight is set by a write of its own register and by no other. -/
theorem mark_kw_get (k : Fin 25) (r : RegName) (w : OperandsWritten) : (w.mark r).kw.get k = true ↔ r = .kw k ∨ w.kw.get k = true := by
  cases r with
  | kw j => by_cases h : j = k <;> simp [OperandsWritten.mark, Bank.get_set, h, Fin.val_inj]
  | _ => simp [OperandsWritten.mark]

/-- The mark of a bin is set by a write of its own register and by no other. -/
theorem mark_hist_get (k : Fin 256) (r : RegName) (w : OperandsWritten) :
    (w.mark r).hist.get k = true ↔ r = .hist k ∨ w.hist.get k = true := by
  cases r with
  | hist j => by_cases h : j = k <;> simp [OperandsWritten.mark, Bank.get_set, h, Fin.val_inj]
  | _ => simp [OperandsWritten.mark]

/-- A register write while IDLE that is no START marks its register (R253, R262). -/
theorem writeReg_written {r : RegName} {v : Word} (hi : s.eng = .idle) (hs : ¬(r = .ctrl ∧ v.getLsbD 0 = true)) :
    (writeReg r v s).duties.written = s.duties.written.mark r := by
  cases r with
  | id | caps | status | irqEn => rfl
  | ctrl => rw [writeReg, if_neg fun hv => hs ⟨rfl, hv⟩]; rfl
  | _ => rw [writeReg, whenIdle_idle hi]; rfl

/-- A step that starts the engine is a START (R60, R258). -/
theorem acts_of_step_starts (h : step s = .next t) (hs : s.eng = .idle ∧ t.eng = .busy) :
    ∃ v, s.acts (.regWrite 0x008 32 v) ∧ v.getLsbD 0 = true := by
  obtain ⟨hi, hb⟩ := hs
  obtain ⟨v, rest, hq, hv⟩ := (engineStateTransitions s t h).1 hi hb
  exact ⟨v, ⟨.inl hi, by rw [hq, List.head?_cons]⟩, hv⟩

/-- Everything a step does to the record of the duties: a reset forgets it, a START does its own part, any other 32-bit write
does its own, and no other step touches it (R262, R303). -/
theorem step_duties_cases (h : step s = .next t) :
    (s.acts .reset ∧ t.duties = .none) ∨
      (∃ v, (∀ b, s.acts b ↔ .regWrite 0x008 32 v = b) ∧ (s.eng = .idle ∧ t.eng = .busy) ∧
        t.duties = s.duties.started s.cfg.cmd s.status) ∨
      ¬s.acts .reset ∧ ¬(s.eng = .idle ∧ t.eng = .busy) ∧
        ((∃ off v rest, (∀ b, s.acts b ↔ .regWrite off 32 v = b) ∧ ¬(s.eng = .idle ∧ off = 0x008 ∧ v.getLsbD 0 = true) ∧
            t.duties = (portWrite off 32 v (s.passed rest)).duties) ∨
          (∀ off v, ¬s.acts (.regWrite off 32 v)) ∧ t.duties = s.duties) := by
  have hstarts := acts_of_step_starts h
  obtain ⟨t', he, hd, hno⟩ | ⟨act, rest, hacts, he⟩ := step_acts_cases s
  · rw [he] at h
    cases h
    exact .inr (.inr ⟨hno _, fun hs => (hstarts hs).elim fun _ ha => hno _ ha.1, .inr ⟨fun _ _ => hno _, hd⟩⟩)
  · rw [he] at h
    have hd := hostAct_duties h
    simp only [hacts] at hstarts ⊢
    cases act with
    | reset => exact .inl ⟨rfl, hd⟩
    | regWrite off size v =>
      by_cases hs : s.eng = .idle ∧ off = 0x008 ∧ size = 32 ∧ v.getLsbD 0 = true
      · obtain ⟨hi, rfl, rfl, hv⟩ := hs
        obtain ⟨e, _⟩ | ⟨e, _⟩ := hostRegWrite_cases 0x008 32 v (s.passed rest) <;> rw [hostAct, e] at h <;> cases h
        rw [portWrite_start (s := s.passed rest) hi hv]
        exact .inr (.inl ⟨v, fun _ => .rfl, ⟨hi, rfl⟩, rfl⟩)
      · have hnot : ¬(s.eng = .idle ∧ t.eng = .busy) := by
          intro hst
          obtain ⟨_, hw, hv⟩ := hstarts hst
          cases hw
          exact hs ⟨hst.1, rfl, rfl, hv⟩
        refine .inr (.inr ⟨nofun, hnot, ?_⟩)
        by_cases hsize : size = 32
        · subst hsize
          exact .inl ⟨off, v, rest, fun _ => .rfl, fun ⟨hi, ho, hv⟩ => hs ⟨hi, ho, rfl, hv⟩, hd⟩
        · refine .inr ⟨fun _ _ hw => ?_, ?_⟩
          · cases hw
            exact hsize rfl
          · rw [hd, HostAct.duties, portWrite_illegal (.inl hsize)]
            rfl
    | _ => exact .inr (.inr ⟨nofun, fun hs => (hstarts hs).elim fun _ ha => (nomatch ha.1), .inr ⟨nofun, hd⟩⟩)

/-- When an operand is recorded as written after a step. `get` picks its mark and `r₀` is its register; `byStart` says when the
START of the command in CMD sets the mark as well (R262, R303). -/
theorem step_written_iff {get : OperandsWritten → Bool} {r₀ : RegName} {byStart : Prop} (h : step s = .next t) (hctrl : r₀ ≠ .ctrl)
    (hnone : get HostDuties.none.written = false) (hmark : ∀ r w, get (OperandsWritten.mark r w) = true ↔ r = r₀ ∨ get w = true)
    (hstart : get (s.duties.written.started s.cfg.cmd) = true ↔ get s.duties.written = true ∨ byStart) :
    get t.duties.written = true ↔
      ¬s.acts .reset ∧
        (get s.duties.written = true ∨ (s.eng = .idle ∧ ∃ v, s.acts (.regWrite (BitVec.ofNat 12 (regOffset r₀)) 32 v)) ∨
          (s.eng = .idle ∧ t.eng = .busy ∧ byStart)) := by
  have hoff : ¬8#12 = BitVec.ofNat 12 (regOffset r₀) := by
    intro ho
    have hr := (regAt_eq_some_iff.mpr ho).1
    exact hctrl (Option.some.inj hr).symm
  have hnot (hns : ¬(s.eng = .idle ∧ t.eng = .busy)) : ¬(s.eng = .idle ∧ t.eng = .busy ∧ byStart) :=
    fun ⟨hi, hb, _⟩ => hns ⟨hi, hb⟩
  obtain ⟨hreset, hd⟩ | ⟨v, hacts, ⟨hi, hb⟩, hd⟩ | ⟨hreset, hns, ⟨off, v, rest, hacts, hs, hd⟩ | ⟨hno, hd⟩⟩ := step_duties_cases h
  · simp [hd, hnone, hreset]
  · simp [hd, hstart, hacts, hi, hb, hoff]
  · have hw : ∀ r, regAt off = some r → (s.passed rest).eng = .idle →
        (get (writeReg r v (s.passed rest)).duties.written = true ↔ r = r₀ ∨ get (s.passed rest).duties.written = true) := by
      intro r hr hi
      rw [writeReg_written hi, hmark]
      rintro ⟨rfl, hv⟩
      exact hs ⟨hi, regAt_ctrl hr, hv⟩
    rw [hd, portWrite_written hw, regAt_eq_some_iff]
    simp [hacts, hnot hns]
  · simp [hd, hreset, hno, hnot hns]

/-- When an operand that no command gives a value is recorded as written (R262). -/
theorem step_operand_iff {get : OperandsWritten → Bool} {r₀ : RegName} (h : step s = .next t) (hctrl : r₀ ≠ .ctrl)
    (hnone : get HostDuties.none.written = false) (hmark : ∀ r w, get (OperandsWritten.mark r w) = true ↔ r = r₀ ∨ get w = true)
    (hstart : ∀ cmd w, get (OperandsWritten.started cmd w) = get w) :
    get t.duties.written = true ↔
      ¬s.acts .reset ∧
        (get s.duties.written = true ∨ (s.eng = .idle ∧ ∃ v, s.acts (.regWrite (BitVec.ofNat 12 (regOffset r₀)) 32 v))) := by
  have hall := step_written_iff (byStart := False) h hctrl hnone hmark (by rw [hstart, or_false])
  simpa only [and_false, or_false] using hall

/-- When DONE, or ERR, is recorded as not cleared after a step. `get` picks the record, `flag` the flag and `n` its bit (R37, R262). -/
theorem step_owed_iff {get : HostDuties → Bool} {flag : StatusFlags → Bool} {n : Nat} (h : step s = .next t)
    (hnone : get HostDuties.none = false) (hstart : ∀ cmd f d, get (HostDuties.started cmd f d) = flag f)
    (hwrite : ∀ (s : State) off v, ¬(s.eng = .idle ∧ off = 0x008 ∧ v.getLsbD 0 = true) →
      get (portWrite off 32 v s).duties = if off = 0x00C then get s.duties && !v.getLsbD n else get s.duties) :
    get t.duties = true ↔
      ¬s.acts .reset ∧
        (if s.eng = .idle ∧ t.eng = .busy then flag s.status = true
          else get s.duties = true ∧ ∀ v, s.acts (.regWrite 0x00C 32 v) → v.getLsbD n = false) := by
  obtain ⟨hreset, hd⟩ | ⟨v, hacts, hst, hd⟩ | ⟨hreset, hns, ⟨off, v, rest, hacts, hs, hd⟩ | ⟨hno, hd⟩⟩ := step_duties_cases h
  · simp [hd, hnone, hreset]
  · simp [hd, hstart, hacts, hst]
  · rw [hd, hwrite (s.passed rest) off v hs, if_neg hns]
    by_cases ho : off = 12#12 <;> simp [ho, hacts]
  · simp [hd, hreset, hno, hns]

/-- HIST_CLEAR's START gives every bin a known value, and no other START does (R303). -/
theorem started_hist_get {cmd : Word} {w : OperandsWritten} (k : Fin 256) :
    (w.started cmd).hist.get k = true ↔ w.hist.get k = true ∨ decode cmd = .ok .histClear := by
  have hcmd : (decode cmd).toOption = some .histClear ↔ decode cmd = .ok .histClear := by cases decode cmd <;> simp [Except.toOption]
  unfold OperandsWritten.started
  split
  · next hc => simp [hcmd.mp hc]
  · next hc => simp [mt hcmd.mpr hc]

end Duties

/-! ## The end of a command (R315) -/

section Completion

variable {s t : State}

/-- No write transaction while BUSY changes the completion delay or the host's queue (R255, R256). -/
theorem portWrite_busy_queue (off : BitVec 12) (size : Nat) (v : Word) (hb : s.eng = .busy) :
    (portWrite off size v s).delay = s.delay ∧ (portWrite off size v s).host = s.host := by
  obtain ⟨r, _, _, _, e⟩ | ⟨resp, e⟩ := portWrite_cases off size v s
  · rw [e]
    obtain e | e | ⟨_, e⟩ | ⟨_, e⟩ := writeReg_busy r v hb <;> rw [e] <;> exact ⟨rfl, rfl⟩
  · rw [e]
    exact ⟨rfl, rfl⟩

/-- No action of the host while BUSY but a reset changes the completion delay, and the queue gets back the action at most (R250, R262). -/
theorem hostAct_busy_queue {act : HostAct} (hb : s.eng = .busy) (h : hostAct act s = .next t) (hr : act ≠ .reset) :
    t.delay = s.delay ∧ (t.host = s.host ∨ t.host = act :: s.host) := by
  cases act with
  | regWrite off size v =>
    rw [hostAct] at h
    obtain ⟨e, _⟩ | ⟨e, _⟩ := hostRegWrite_cases off size v s <;> rw [e] at h <;> cases h
    exact (portWrite_busy_queue off size v hb).imp_right .inl
  | regRead off size => cases h; exact ⟨rfl, .inl rfl⟩
  | memRead a =>
    rw [hostAct, hostMemRead] at h
    split at h <;> cases h
    exact ⟨rfl, .inl rfl⟩
  | memWrite a v =>
    rw [hostAct, hostMemWrite] at h
    split at h
    · cases h
    · split at h <;> cases h
      exact ⟨rfl, .inl rfl⟩
  | waitDone =>
    cases h
    split
    · exact ⟨rfl, .inl rfl⟩
    · exact ⟨rfl, .inr rfl⟩
  | waitIrq =>
    rw [hostAct, hostSleep] at h
    split at h <;> cases h
    split
    · exact ⟨rfl, .inl rfl⟩
    · exact ⟨rfl, .inr rfl⟩
  | reset => exact absurd rfl hr

/-- A step of the host's turn while BUSY, with no reset queued, takes one model step off the completion delay and leaves the command
running (R255, R315). -/
theorem step_busy_waits (hb : s.eng = .busy) (hd : s.delay ≠ 0) (hr : HostAct.reset ∉ s.host) (h : step s = .next t) :
    t.eng = .busy ∧ t.delay = s.delay - 1 ∧ HostAct.reset ∉ t.host ∧ t.cfg = s.cfg := by
  have hhead : ∀ rest, s.host ≠ .reset :: rest := fun rest hq => hr (hq ▸ List.mem_cons_self)
  have heng : t.eng = .busy := by
    cases he : t.eng with
    | busy => rfl
    | idle =>
      obtain ⟨hd', _⟩ | ⟨rest, hq⟩ := (engineStateTransitions s t h).2 hb he
      · exact absurd hd' hd
      · exact absurd hq (hhead rest)
  obtain ⟨hdelay, hqueue⟩ : t.delay = s.delay - 1 ∧ t.host ⊆ s.host := by
    cases hq : s.host with
    | nil =>
      rw [step_host_nil (.inr hd) hq] at h
      cases h
      exact ⟨passed_delay_of_busy hb, List.Subset.refl _⟩
    | cons act rest =>
      rw [step_host_cons (.inr hd) hq] at h
      have hact : act ≠ .reset := fun e => hhead rest (e ▸ hq)
      obtain ⟨hdelay, hqueue⟩ := hostAct_busy_queue (s := s.passed rest) hb h hact
      refine ⟨hdelay.trans (passed_delay_of_busy hb), ?_⟩
      obtain e | e := hqueue <;> rw [e]
      · exact List.subset_cons_self act rest
      · exact List.Subset.refl _
  exact ⟨heng, hdelay, fun hm => hr (hqueue hm), (configurationIsStableWhileBusy s t h hb hhead).1⟩

end Completion

/-! ## The state after a reset (R300) -/

/-- STATUS reads 0 while IDLE with every flag clear (R37). -/
theorem statusWord_of_zero {s : State} (hi : s.eng = .idle) (hs : s.status = .zero) : s.statusWord = 0 := by
  rw [State.statusWord, State.isBusy, hi, hs]
  rfl

/-- IRQ_EN reads 0 with both enables clear (R38). -/
theorem irqEnWord_of_clear {s : State} (h : s.irqEn = ⟨false, false⟩) : s.irqEnWord = 0 := by
  rw [State.irqEnWord, h]
  rfl

/-- A reset while IDLE leaves data memory as it is (R300). -/
theorem abandonedMem_of_idle {s : State} (hi : s.eng = .idle) : abandonedMem s = s.mem := by
  refine if_neg fun hc => ?_
  obtain ⟨_, hb, _⟩ := runningClass_eq_some.mp hc
  exact absurd (hi.symm.trans hb) nofun

/-! ## The obligations -/

/-- Settles O51: a guarded byte is one of a buffer of the running command, and each access checks the bytes that it must not touch. -/
theorem bufferAccessWhileBusyIsAHazard : Obligations.BufferAccessWhileBusyIsAHazard := by
  intro s rest i a v hb hd hi
  have hrun : (s.passed rest).running = some i := running_eq_some.mpr ⟨hb, hi⟩
  refine ⟨fun hc hin hq => ?_, fun hc hin hq => ?_, fun hc hin hq => ?_⟩ <;> rw [step_host_cons (.inr hd) hq, hostAct]
  · by_cases hdest : commandClass i = .pixel ∧ InDest s.cfg a.toNat
    · exact ⟨_, hostMemWrite_fault_iff.mpr ⟨i, hrun, .inl ⟨hdest.1, hdest.2, rfl⟩⟩⟩
    · exact ⟨_, hostMemWrite_fault_iff.mpr ⟨i, hrun, .inr ⟨hc, hin, hdest, rfl⟩⟩⟩
  · exact hostMemRead_fault_iff.mpr ⟨i, hrun, hc, hin, rfl⟩
  · exact hostMemWrite_fault_iff.mpr ⟨i, hrun, .inl ⟨hc, hin, rfl⟩⟩

/-- Settles O52: a step is a fault where the host's action is one, and each record changes by its own rule. -/
theorem hostFaultsExactlyOnABrokenDuty : Obligations.HostFaultsExactlyOnABrokenDuty := by
  refine ⟨fun s r => ?_, fun s t h => ⟨?_, fun k => ?_, fun k => ?_, ?_, ?_⟩⟩
  · rw [step_fault_iff]
    constructor
    · rintro ⟨act, ha, hf⟩
      cases act with
      | regWrite off size v =>
        obtain ⟨⟨rfl, rfl⟩, hstart⟩ := hostRegWrite_fault_iff.mp hf
        exact .inl ⟨v, ha, hstart⟩
      | waitIrq => exact .inr (.inl ⟨ha, hostSleep_fault_iff.mp hf⟩)
      | memWrite a v =>
        obtain ⟨i, hrun, hguard⟩ := hostMemWrite_fault_iff.mp hf
        obtain ⟨hb, hi⟩ := running_eq_some.mp hrun
        exact .inr (.inr ⟨i, a, hb, hi, .inl ⟨v, ha, hguard⟩⟩)
      | memRead a =>
        obtain ⟨i, hrun, hguard⟩ := hostMemRead_fault_iff.mp hf
        obtain ⟨hb, hi⟩ := running_eq_some.mp hrun
        exact .inr (.inr ⟨i, a, hb, hi, .inr ⟨ha, hguard⟩⟩)
      | regRead | waitDone | reset => cases hf
    · rintro (⟨v, ha, hstart⟩ | ⟨ha, howed⟩ | ⟨i, a, hb, hi, ⟨v, ha, hguard⟩ | ⟨ha, hguard⟩⟩)
      · exact ⟨_, ha, hostRegWrite_fault_iff.mpr ⟨⟨rfl, rfl⟩, hstart⟩⟩
      · exact ⟨_, ha, hostSleep_fault_iff.mpr howed⟩
      · exact ⟨_, ha, hostMemWrite_fault_iff.mpr ⟨i, running_eq_some.mpr ⟨hb, hi⟩, hguard⟩⟩
      · exact ⟨_, ha, hostMemRead_fault_iff.mpr ⟨i, running_eq_some.mpr ⟨hb, hi⟩, hguard⟩⟩
  · intro p hp
    have hmap : p ∈ operandFlags.map fun q => (BitVec.ofNat 12 (regOffset q.1), q.2) := hp
    obtain ⟨q, hq, rfl⟩ := List.mem_map.mp hmap
    obtain ⟨hctrl, hnone, hstart⟩ := operandFlags_fixed q hq
    exact step_operand_iff h hctrl hnone (mark_operandFlags q hq) hstart
  · exact step_operand_iff (r₀ := .kw k) (get := fun w => w.kw.get k) h nofun (Bank.get_fill _ _) (mark_kw_get k) (by simp)
  · exact step_written_iff (r₀ := .hist k) (get := fun w => w.hist.get k) h nofun (Bank.get_fill _ _) (mark_hist_get k) (started_hist_get k)
  · exact step_owed_iff h rfl (fun _ _ _ => rfl) fun s off v hs => by
      simpa using (portWrite_owed (size := 32) fun ⟨hi, ho, _, hv⟩ => hs ⟨hi, ho, hv⟩).1
  · exact step_owed_iff h rfl (fun _ _ _ => rfl) fun s off v hs => by
      simpa using (portWrite_owed (size := 32) fun ⟨hi, ho, _, hv⟩ => hs ⟨hi, ho, hv⟩).2

/-- Settles O53: a reset is one action of the host, and gives the reset values whatever it draws. -/
theorem resetGivesTheResetValues : Obligations.ResetGivesTheResetValues := by
  intro s rest ht hq
  exact ⟨resetPulse (s.passed rest), by rw [step_host_cons ht hq, hostAct], rfl, rfl, rfl, rfl, rfl, statusWord_of_zero rfl rfl,
    irqEnWord_of_clear rfl, rfl, rfl, rfl, rfl, rfl, rfl, rfl, rfl, rfl, fun k _ => Bank.nth_fill_zero k, rfl,
    abandonedMem_of_idle (s := s.passed rest)⟩

/-- Settles O54: a reset clears the flags, and what it leaves in memory is the law `abandonedMem_read`. -/
theorem resetDuringACommandAbandonsIt : Obligations.ResetDuringACommandAbandonsIt := by
  intro s rest hm _ hd hq
  exact ⟨resetPulse (s.passed rest), by rw [step_host_cons (.inr hd) hq, hostAct], rfl, rfl, rfl, rfl,
    (abandonedMem_read (s := s.passed rest) hm).2⟩

/-- Settles O55, by induction on the completion delay. -/
theorem acceptedCommandCompletes : Obligations.AcceptedCommandCompletes := by
  intro s hb hr
  induction hd : s.delay generalizing s with
  | zero =>
    obtain ⟨t, he⟩ := engineStep_next s
    obtain ⟨heng, hdone, hcfg, _⟩ := engineStep_frame he
    exact .inr ⟨t, run_next ((step_engine hb hd).trans he), heng, hdone, hcfg⟩
  | succ n ih =>
    obtain ⟨r, hf⟩ | ⟨t, hn⟩ := step_fault_or_next s
    · exact .inl ⟨r, run_fault hf⟩
    · obtain ⟨hb', hd', hr', hcfg⟩ := step_busy_waits hb (by omega) hr hn
      rw [run_next hn, ← hcfg]
      exact ih t hb' hr' (by omega)

/-- Settles O59: nothing is pending and nothing runs after reset. -/
theorem resetMeetsTheInvariant : Obligations.ResetMeetsTheInvariant := fun _ _ _ _ _ _ _ _ _ hm =>
  State.inv_iff.mpr ⟨hm, .of_idle rfl nofun⟩

end Sys2Proof.Machine
